-- ==== Sys2Proof/Word.lean ====
section
/-! DEFINITION. The widths of the spec: bytes, words, addresses and operands, the command and response words,
and the open parameter XLEN with its two admitted values. -/

namespace Sys2Proof

/-- A memory byte (00_scope.md R9, R11). -/
abbrev Byte := BitVec 8

/-- A 32-bit unsigned word (00_scope.md R9, R11). -/
abbrev Word := BitVec 32

/-- An XLEN-bit address, held in the wider of the two admitted widths; with XLEN = 32 its upper half is zero
(00_scope.md R8, R11). -/
abbrev Addr := BitVec 64

/-- An XLEN-bit operand of a command, held as `Addr` is (30_encoding.md R89). -/
abbrev Operand := BitVec 64

/-- The command word CMD: 3*XLEN+2 bits, at most 194 (30_encoding.md R85). -/
abbrev Cmd := BitVec 194

/-- The response word RESP: XLEN+3 bits, at most 67 (30_encoding.md R88). -/
abbrev Resp := BitVec 67

/-- The open parameter XLEN: its two admitted values (00_scope.md R8). -/
inductive Xlen
  | x32
  | x64
deriving DecidableEq, Repr

/-- XLEN as a number of bits. -/
def Xlen.bits : Xlen → Nat
  | .x32 => 32
  | .x64 => 64

/-- 2^XLEN, the number of byte locations of the address space (20_memory.md R50). -/
abbrev Xlen.size (x : Xlen) : Nat := 2 ^ x.bits

end Sys2Proof
end

