-- ==== Sys2Proof/Syntax.lean ====
section
/-! DEFINITION. The commands of the CORE: the operation codes and the four commands with their operand
triples (30_encoding.md R86, R87). -/

namespace Sys2Proof

/-- The operation code of a command (30_encoding.md R86). -/
inductive Op
  | dma
  | sort
  | crush
  | expand
deriving DecidableEq, Repr, Inhabited

/-- A command with its operands under the names of 30_encoding.md R87: one constructor per row of the opcode
table. -/
inductive Instr
  /-- `DMA dst, src, grainCode` (40_dma_transpose.md R100). -/
  | dma (dst src : Addr) (grainCode : Operand)
  /-- `SORT addr, arrayLen, sortLen` (41_sort.md R120). -/
  | sort (addr : Addr) (arrayLen sortLen : Operand)
  /-- `CRUSH dst, src, count` (42_crush.md R140). -/
  | crush (dst src : Addr) (count : Operand)
  /-- `EXPAND dst, src, count` (43_expand.md R155). -/
  | expand (dst src : Addr) (count : Operand)
deriving DecidableEq, Repr, Inhabited

end Sys2Proof
end

