-- ==== Sys2Proof/WellFormed.lean ====
section
/-! DEFINITION. When a term of `Instr` is a command of a CORE with a given XLEN: each of its operands is an
XLEN-bit number (30_encoding.md R85, R89). Every such term is legal (30_encoding.md R90). -/

namespace Sys2Proof

/-- An operand that XLEN bits can hold. -/
def Xlen.fits (x : Xlen) (v : Operand) : Bool :=
  v.toNat < x.size

/-- All three operands of a command are XLEN bits wide. -/
def Instr.wf (x : Xlen) : Instr → Bool
  | .dma dst src grainCode => x.fits dst && x.fits src && x.fits grainCode
  | .sort addr arrayLen sortLen => x.fits addr && x.fits arrayLen && x.fits sortLen
  | .crush dst src count => x.fits dst && x.fits src && x.fits count
  | .expand dst src count => x.fits dst && x.fits src && x.fits count

end Sys2Proof
end

