-- ==== Sys2Proof/Decode.lean ====
section
/-! DEFINITION. The command word CMD and its decoder (30_encoding.md R85 to R93), then the encoder written
from the same table. The decoder is total and refuses nothing: "No command word is illegal, reserved or a
hint" (30_encoding.md R90). -/

namespace Sys2Proof

/-! ## Decoding -/

/-- The operation code spelled by the two bits `CMD[1:0]` (30_encoding.md R86). -/
def opOfBits (b : BitVec 2) : Op :=
  if b = 0#2 then .dma else if b = 1#2 then .sort else if b = 2#2 then .crush else .expand

/-- The operand in place `k` of the command word: 0 for A, 1 for B, 2 for C; the XLEN bits from bit
`k*XLEN + 2` up (30_encoding.md R85). -/
def operandField (x : Xlen) (w : Cmd) (k : Nat) : Operand :=
  (w.extractLsb' (k * x.bits + 2) x.bits).setWidth 64

/-- The command of an operation code and its operand triple (30_encoding.md R86, R87). -/
def commandOf (op : Op) (a b c : Operand) : Instr :=
  match op with
  | .dma => .dma a b c
  | .sort => .sort a b c
  | .crush => .crush a b c
  | .expand => .expand a b c

/-- Decoding a command word (30_encoding.md R93). -/
def decode (x : Xlen) (w : Cmd) : Instr :=
  commandOf (opOfBits (w.extractLsb' 0 2)) (operandField x w 0) (operandField x w 1) (operandField x w 2)

/-- The command of a word of the opcode table, at the default XLEN = 64 that the machine has at reset
(00_scope.md R8). Never `none`: the decoder refuses nothing. -/
def decodeTableWord (nbits w : Nat) : Option Instr :=
  some (decode .x64 (BitVec.ofNat 194 (w % 2 ^ nbits)))

/-! ## Encoding -/

/-- The number of an operation code (30_encoding.md R86). -/
def opCode : Op → Nat
  | .dma => 0
  | .sort => 1
  | .crush => 2
  | .expand => 3

/-- The operation code of a command. -/
def Instr.op : Instr → Op
  | .dma _ _ _ => .dma
  | .sort _ _ _ => .sort
  | .crush _ _ _ => .crush
  | .expand _ _ _ => .expand

/-- The operand a command carries in `A` (30_encoding.md R87). -/
def Instr.opA : Instr → Operand
  | .dma dst _ _ => dst
  | .sort addr _ _ => addr
  | .crush dst _ _ => dst
  | .expand dst _ _ => dst

/-- The operand a command carries in `B` (30_encoding.md R87). -/
def Instr.opB : Instr → Operand
  | .dma _ src _ => src
  | .sort _ arrayLen _ => arrayLen
  | .crush _ src _ => src
  | .expand _ src _ => src

/-- The operand a command carries in `C` (30_encoding.md R87). -/
def Instr.opC : Instr → Operand
  | .dma _ _ grainCode => grainCode
  | .sort _ _ sortLen => sortLen
  | .crush _ _ count => count
  | .expand _ _ count => count

/-- `CMD = op + A * 2^2 + B * 2^(XLEN+2) + C * 2^(2*XLEN+2)` (30_encoding.md R85). -/
def encode (x : Xlen) (i : Instr) : Cmd :=
  BitVec.ofNat 194
    (opCode i.op + i.opA.toNat * 2 ^ 2 + i.opB.toNat * 2 ^ (x.bits + 2) + i.opC.toNat * 2 ^ (2 * x.bits + 2))

end Sys2Proof
end

