-- ==== Sys2Proof/Machine/Regs.lean ====
section
/-! DEFINITION. The registers of an invocation: the record of 10_state.md R36, with the list of R33 but for
`ST`. -/

namespace Sys2Proof.Machine

/-- The sequencer status `ST` (10_state.md R22). -/
inductive Status
  | idle
  | run
deriving DecidableEq, Repr, Inhabited

/-- The kind of the sequencer's next action, `PHASE` (10_state.md R26). -/
inductive Phase
  /-- `RD`: DMA and SORT, read phase. -/
  | rd
  /-- `WR`: DMA and SORT, write phase. -/
  | wr
  /-- `SRT`: SORT, the sort itself. -/
  | srt
  /-- `R1`: CRUSH, first read of a pair. -/
  | r1
  /-- `R2`: CRUSH, second read of a pair. -/
  | r2
  /-- `W`: CRUSH, the write of a pair. -/
  | w
  /-- `R`: EXPAND, the read. -/
  | r
  /-- `WL`: EXPAND, the write of the low nibble. -/
  | wl
  /-- `WH`: EXPAND, the write of the high nibble. -/
  | wh
deriving DecidableEq, Repr, Inhabited

/-- The registers of an invocation (10_state.md R24 to R31). Lengths and the index are natural numbers, as
00_scope.md R11 has them; `State.Inv` bounds them by their widths. -/
structure Regs where
  /-- `OP`, the latched operation code (10_state.md R24). -/
  op : Op
  /-- `A`, the first latched operand (10_state.md R24). -/
  a : Addr
  /-- `B`, the second latched operand (10_state.md R24). -/
  b : Operand
  /-- `C`, the third latched operand (10_state.md R24). -/
  c : Operand
  /-- `N`, the matrix dimension of a DMA (10_state.md R25). -/
  n : Nat
  /-- `LEN`, the array length of a SORT (10_state.md R25). -/
  len : Nat
  /-- `EFF`, the effective sort length of a SORT (10_state.md R25). -/
  eff : Nat
  /-- `ITER`, the number of iterations of a CRUSH or EXPAND (10_state.md R25). -/
  iter : Nat
  /-- `PHASE` (10_state.md R26). -/
  phase : Phase
  /-- `IDX`, the loop index (10_state.md R27). -/
  idx : Nat
  /-- `V1`, the first byte temporary (10_state.md R28). -/
  v1 : Byte
  /-- `V2`, the second byte temporary (10_state.md R28). -/
  v2 : Byte
  /-- `buf`, the cells of the working buffer written by this invocation, cell 0 first (10_state.md R30,
  R31). -/
  buf : List Word
deriving DecidableEq, Repr, Inhabited

/-- The values this model names for the registers after reset, where 10_state.md R37 says "unspecified".
DESIGN CHOICE (log 3), unsafe: a claim could rest on them, though no rule reads them (10_state.md R38). -/
def Regs.reset : Regs where
  op := .dma
  a := 0
  b := 0
  c := 0
  n := 0
  len := 0
  eff := 0
  iter := 0
  phase := .rd
  idx := 0
  v1 := 0
  v2 := 0
  buf := []

end Sys2Proof.Machine
end

