-- ==== Sys2Proof/Config.lean ====
section
/-! DEFINITION. The implementation parameters (00_scope.md section 4) and the free values. -/

namespace Sys2Proof

/-- The parameters fixed for one machine (00_scope.md R8, 20_memory.md R59). They are carried in State so
that a statement about every state is a statement about every value of them; no step writes them (log 1). -/
structure Params where
  /-- `XLEN`. -/
  xlen : Xlen
  /-- `ENFORCE_ALIGN`: the Memory Port faults a word access whose address is not a multiple of 4. -/
  enforceAlign : Bool
deriving DecidableEq, Repr

/-- The defaults: XLEN = 64 (00_scope.md R8), ENFORCE_ALIGN false (20_memory.md R59). -/
def Params.default : Params where
  xlen := .x64
  enforceAlign := false

/-- Free value (log 5): what the registers hold once an invocation has ended and they are discarded
(30_encoding.md R83, 60_exceptions.md R178, 93_implementation_defined.md U12), one draw for each discard. -/
opaque Config.leftover (draw : Nat) : Machine.Regs

/-- Free value (log 5): what cell `k` of the working buffer holds before the invocation has written it
(10_state.md R37, R38), one draw for each invocation. -/
opaque Config.staleCell (draw k : Nat) : Word

end Sys2Proof
end

