-- ==== Sys2Proof/Machine/State.lean ====
section
/-! DEFINITION. The state of the machine as plain data: the CORE's registers (10_state.md), the Memory Port
(20_memory.md), the two channels (30_encoding.md), the script of the outside, and the state after reset. -/

namespace Sys2Proof.Machine

/-- What an access does (20_memory.md R55). -/
inductive Kind
  | read
  | write
deriving DecidableEq, Repr

/-- The size of an access: 1 byte or 4 bytes (00_scope.md R9). -/
inductive Size
  | byte
  | word
deriving DecidableEq, Repr

/-- A response of the CORE (30_encoding.md R88). -/
inductive Response
  | ok
  | addressFault (addr : Addr) (kind : Kind) (size : Size)
deriving DecidableEq, Repr

/-- One Memory Port call the CORE made (00_scope.md R13): what it presented to the port and the value
transferred, widened with zeros; `none` where the call raised AddressFault and transferred nothing. -/
structure Access where
  kind : Kind
  size : Size
  addr : Addr
  data : Option Word
deriving DecidableEq, Repr

/-- Byte locations `lo` to `hi`, both included, at which accesses of one kind are refused. -/
structure Region where
  lo : Nat
  hi : Nat
  kind : Kind
deriving DecidableEq, Repr

/-- One move of the outside (log 6). -/
inductive Move
  /-- Another actor writes a byte of memory (20_memory.md R66). -/
  | write (addr : Addr) (v : Byte)
  /-- The port's owner changes which byte locations are accessible (20_memory.md R55). -/
  | setDenied (regions : List Region)
  /-- The dispatcher offers a command (30_encoding.md R81). -/
  | offer (w : Cmd)
  /-- The reset input is applied (70_reset_and_hazards.md R200, R201). -/
  | reset
deriving DecidableEq, Repr

/-- How the Memory Port answers one call (20_memory.md R55, R73), and whether reset strikes while the call is in
progress (70_reset_and_hazards.md R201; log 6). -/
inductive Answer
  /-- By the reference memory's `Accessible` (20_memory.md R56). -/
  | byMap
  /-- It raises AddressFault, whatever the map says (20_memory.md R55). -/
  | refuses
  /-- It does not return in this turn: the call stays outstanding (20_memory.md R73). -/
  | pending
  /-- By the map, and reset is applied before the CORE acts on the answer: the call has fully happened and the
  invocation ends without a response (70_reset_and_hazards.md R201). -/
  | byMapThenReset
deriving DecidableEq, Repr

/-- What the outside does from one Memory Port call of the CORE to the next: its moves before the call happens,
then the port's answer to it (20_memory.md R66: between two calls, never in the middle of one). -/
structure Turn where
  moves : List Move
  answer : Answer
deriving DecidableEq, Repr

/-- Memory: the byte locations that do not hold 0, by strictly rising address (log 4). -/
abbrev Memory := List Host.Cell

/-- The state of the machine. -/
structure State where
  /-- XLEN and ENFORCE_ALIGN, which no step writes. -/
  params : Params
  /-- `ST` (10_state.md R22). -/
  st : Status
  /-- The registers of the invocation (10_state.md R33). -/
  regs : Regs
  /-- The reference memory behind the Memory Port (20_memory.md R56). -/
  mem : Memory
  /-- A Memory Port call has been made and has not returned (10_state.md R22 "waiting for one to return", R37 "no
  call outstanding"; 20_memory.md R73). -/
  outstanding : Bool
  /-- The byte locations the Memory Port refuses; everything else is accessible (20_memory.md R56). -/
  denied : List Region
  /-- The outside's turns at the CORE's next Memory Port calls; past its end the outside does nothing
  (20_memory.md R66, the default), and a call still outstanding never returns (20_memory.md R73). -/
  env : List Turn
  /-- The command channel: the CMD words offered and not yet accepted, oldest first (30_encoding.md R81). -/
  offered : List Cmd
  /-- The response channel: the responses given, oldest first (30_encoding.md R82, R88). -/
  responses : List Response
  /-- The Memory Port calls made, oldest first (00_scope.md R13); no rule reads it. -/
  calls : List Access
  /-- How many times the registers were discarded: the draw of the free values (log 5). -/
  discards : Nat
deriving DecidableEq, Repr

/-- Why the machine stops. AddressFault is none of these: it is a response, and the machine goes on
(60_exceptions.md R178). Nor is a Memory Port call that never returns: the CORE stays in RUN with the call
outstanding (93_implementation_defined.md U9: "stuck", "not a fault, not final"). -/
inductive Fault
  /-- Raised by an engine whose PHASE is none of its own (10_state.md R26 gives each engine its phases). Safe:
  no state that meets `State.Inv` raises it, so no run from reset does. -/
  | foreignPhase
deriving DecidableEq, Repr

/-- Why an instruction has no meaning. -/
inductive Refusal
  /-- Raised by an arm of `exec` whose instruction is not modelled yet; no arm raises it now. Safe. -/
  | notModelled (mnemonic : String)
deriving DecidableEq, Repr

/-- What a step answers. -/
abbrev Result := Host.Outcome State Fault Refusal

/-- The machine right after reset (10_state.md R37, 70_reset_and_hazards.md R200): `ST` is IDLE, no command
held, no response pending, no Memory Port call outstanding; the parameters at their defaults; the registers at the values of `Regs.reset`
(log 3), memory with nothing listed (log 4), nothing refused (log 7). -/
def State.reset : State where
  params := Params.default
  st := .idle
  regs := Regs.reset
  mem := []
  outstanding := false
  denied := []
  env := []
  offered := []
  responses := []
  calls := []
  discards := 0

end Sys2Proof.Machine
end

