-- ==== Sys2Proof/Machine/Operands.lean ====
section
/-! DEFINITION. Operand Validation (10_state.md R25) and the address forms (20_memory.md R52): all that a
command's operands turn into before and during its accesses. -/

namespace Sys2Proof.Machine

/-- `base + off`, computed modulo 2^XLEN (20_memory.md R52). -/
def addrAt (x : Xlen) (base : Addr) (off : Nat) : Addr :=
  BitVec.ofNat 64 ((base.toNat + off) % x.size)

/-- The address of word `k` of the word array at `base`: 4-byte stride (40_dma_transpose.md R103, 41_sort.md
R121). -/
def wordAddr (x : Xlen) (base : Addr) (k : Nat) : Addr :=
  addrAt x base (4 * k)

/-- What a latch of XLEN bits holds of an operand (10_state.md R24); an operand that fits is held whole
(30_encoding.md R89). -/
def latch (x : Xlen) (v : Operand) : Operand :=
  BitVec.ofNat 64 (v.toNat % x.size)

/-- `GrainDim`: the matrix dimension of a grain code, compared as a whole operand (40_dma_transpose.md
R101). -/
def grainDim (c : Operand) : Nat :=
  if c = 0 then 8 else if c = 1 then 16 else if c = 2 then 32 else 8

/-- `effectiveSortLen = min(sortLen, arrayLen)`, compared as unsigned numbers (41_sort.md R122). -/
def effectiveSortLen (arrayLen sortLen : Operand) : Nat :=
  min sortLen.toNat arrayLen.toNat

/-- The pairs of a CRUSH: `floor(count/2)` (42_crush.md R141). -/
def pairCount (count : Operand) : Nat :=
  (count >>> 1).toNat

/-- The index of the buffer cell that goes to destination word `m`: with `i = m div n`, `j = m mod n` it is
`j*n + i` (40_dma_transpose.md R104). -/
def transposeIndex (n m : Nat) : Nat :=
  m % n * n + m / n

/-- The packed byte of a pair (42_crush.md R143). -/
def packNibbles (v1 v2 : Byte) : Byte :=
  ((v2 &&& 0x0F#8) <<< 4) ||| (v1 &&& 0x0F#8)

/-- The low nibble of a packed byte, as a whole byte (43_expand.md R158). -/
def lowNibble (v : Byte) : Byte :=
  v &&& 0x0F#8

/-- The high nibble of a packed byte, as a whole byte (43_expand.md R158). -/
def highNibble (v : Byte) : Byte :=
  (v >>> 4) &&& 0x0F#8

/-- `SortAscU32`: the ascending rearrangement under unsigned comparison (41_sort.md R123). The algorithm is
free and cannot be observed (93_implementation_defined.md U1). -/
def sortAscU32 (ws : List Word) : List Word :=
  ws.insertionSort (· ≤ ·)

/-- The working buffer after the sort: its first `eff` cells sorted, the others as they were (41_sort.md R123,
R126). -/
def sortPrefix (eff : Nat) (ws : List Word) : List Word :=
  sortAscU32 (ws.take eff) ++ ws.drop eff

end Sys2Proof.Machine
end

