-- ==== Sys2Proof/Machine/Memory.lean ====
section
/-! DEFINITION. The reference memory (20_memory.md R56, R57): its canonical form, single bytes, and
little-endian words. -/

namespace Sys2Proof.Machine

/-- What an unlisted address reads as. The spec gives memory no contents at reset (10_state.md R37: "not
changed by reset"). DESIGN CHOICE (log 4), unsafe. -/
def blankByte : Byte := 0

/-- The canonical form: addresses strictly rising and no entry equal to what an unlisted address reads as. -/
def Memory.wf : Memory → Bool
  | [] => true
  | [(_, v)] => v != blankByte
  | (a, v) :: (b, u) :: m => v != blankByte && a < b && Memory.wf ((b, u) :: m)

/-- The byte at an address: `mem(addr)` (20_memory.md R56). -/
def Memory.read : Memory → Nat → Byte
  | [], _ => blankByte
  | (b, v) :: m, a => if a = b then v else Memory.read m a

/-- `mem(addr) <- v` (20_memory.md R56), keeping the canonical form. -/
def Memory.write : Memory → Nat → Byte → Memory
  | [], a, v => if v = blankByte then [] else [(a, v)]
  | (b, u) :: m, a, v =>
    if a < b then (if v = blankByte then (b, u) :: m else (a, v) :: (b, u) :: m)
    else if a = b then (if v = blankByte then m else (a, v) :: m)
    else (b, u) :: Memory.write m a v

/-- `MemRead(addr, 4)`: little-endian, addresses modulo 2^XLEN (20_memory.md R57). -/
def Memory.readWord (x : Xlen) (m : Memory) (a : Addr) : Word :=
  m.read (addrAt x a 3).toNat ++ m.read (addrAt x a 2).toNat ++ m.read (addrAt x a 1).toNat
    ++ m.read (addrAt x a 0).toNat

/-- `MemWrite(addr, 4, v)`: little-endian, addresses modulo 2^XLEN (20_memory.md R57). -/
def Memory.writeWord (x : Xlen) (m : Memory) (a : Addr) (v : Word) : Memory :=
  let m0 := m.write (addrAt x a 0).toNat (v.extractLsb' 0 8)
  let m1 := m0.write (addrAt x a 1).toNat (v.extractLsb' 8 8)
  let m2 := m1.write (addrAt x a 2).toNat (v.extractLsb' 16 8)
  m2.write (addrAt x a 3).toNat (v.extractLsb' 24 8)

/-- How many bytes an access of a size covers. -/
def Size.bytes : Size → Nat
  | .byte => 1
  | .word => 4

/-- The address of byte `t` of an access (20_memory.md R56: modulo 2^XLEN). -/
def byteAddr (x : Xlen) (a : Addr) (t : Nat) : Nat :=
  (addrAt x a t).toNat

/-- A region refuses an access of its kind to a byte location inside it. -/
def Region.refuses (r : Region) (a : Nat) (k : Kind) : Bool :=
  r.kind == k && r.lo ≤ a && a ≤ r.hi

/-- `ok(addr, kind)`: no region refuses the byte location (20_memory.md R56). -/
def okAt (denied : List Region) (a : Nat) (k : Kind) : Bool :=
  denied.all fun r => !r.refuses a k

/-- A word access whose address is not a multiple of 4 (20_memory.md R59); a byte access is never
misaligned. -/
def misaligned (a : Addr) (n : Size) : Bool :=
  n == .word && a.toNat % 4 != 0

end Sys2Proof.Machine
end

