-- ==== Sys2Proof/Machine/Ops.lean ====
section
/-! DEFINITION. The named operations of the machine: updates of State, the moves of the outside, the four
Memory Port operations, the response, taking the AddressFault, reset, accepting a command and one step of it. -/

namespace Sys2Proof.Machine

/-! ## Updates of one field -/

def State.setRegs (s : State) (r : Regs) : State := { s with regs := r }

def State.setMem (s : State) (m : Memory) : State := { s with mem := m }

def State.setDenied (s : State) (d : List Region) : State := { s with denied := d }

def State.setEnv (s : State) (e : List Turn) : State := { s with env := e }

def State.setOffered (s : State) (o : List Cmd) : State := { s with offered := o }

def State.setOutstanding (s : State) (b : Bool) : State := { s with outstanding := b }

/-- Write down one Memory Port call (00_scope.md R13). -/
def State.logCall (s : State) (c : Access) : State := { s with calls := s.calls ++ [c] }

/-! ## Ending an invocation -/

/-- Give the response, discard the registers of the invocation, go to IDLE (30_encoding.md R83,
60_exceptions.md R178). What the discarded registers then hold is a free value (log 5). -/
def State.respond (s : State) (r : Response) : State :=
  { s with
    st := .idle
    outstanding := false
    regs := Config.leftover s.discards
    responses := s.responses ++ [r]
    discards := s.discards + 1 }

/-- TAKING THE EXCEPTION: the AddressFault of one access (60_exceptions.md R177, R178). The access transferred
nothing, no later access is made, earlier writes stay, and the response carries what the CORE presented to
the port. The CORE saves nothing and jumps nowhere (60_exceptions.md R185), and there is no return from the
fault: "any fault is terminal for that invocation" (60_exceptions.md R183). -/
def State.takeAddressFault (s : State) (a : Addr) (k : Kind) (n : Size) : State :=
  (s.logCall { kind := k, size := n, addr := a, data := none }).respond (.addressFault a k n)

/-- The reset input (70_reset_and_hazards.md R200, R201): `ST` is IDLE, the invocation ends without a response, no
Memory Port call is outstanding, memory is not touched, the registers take the values of `Regs.reset` (log 3). -/
def State.applyReset (s : State) : State := { s with st := .idle, outstanding := false, regs := Regs.reset }

/-! ## The outside -/

/-- One move of the outside. -/
def State.move (s : State) : Move → State
  | .write a v => s.setMem (s.mem.write (byteAddr s.params.xlen a 0) v)
  | .setDenied d => s.setDenied d
  | .offer w => s.setOffered (s.offered ++ [w])
  | .reset => s.applyReset

/-- A turn in which the outside does nothing: the default of 20_memory.md R66. -/
def Turn.quiet : Turn where
  moves := []
  answer := .byMap

/-- A turn in which a call that is outstanding does not return. -/
def Turn.waiting : Turn where
  moves := []
  answer := .pending

/-- The outside's turn at the next Memory Port call. Past the end of the script the outside does nothing: a new
call is answered by the map, and a call still outstanding never returns (20_memory.md R73). -/
def State.nextTurn (s : State) : Turn :=
  s.env.headD (if s.outstanding = true then Turn.waiting else Turn.quiet)

/-- The state after the outside's moves before the next Memory Port call. -/
def State.afterMoves (s : State) : State :=
  s.nextTurn.moves.foldl State.move (s.setEnv s.env.tail)

/-- The state in which the port answers the next Memory Port call: the outside has made its moves, and the call is
no longer one that has not returned. -/
def State.atCall (s : State) : State := s.afterMoves.setOutstanding false

/-! ## The Memory Port (20_memory.md R51 to R55) -/

/-- `Accessible(addr, n, kind)` of the reference memory (20_memory.md R56, R59). -/
def State.accessible (s : State) (a : Addr) (n : Size) (k : Kind) : Bool :=
  (List.range n.bytes).all (fun t => okAt s.denied (byteAddr s.params.xlen a t) k)
    && !(s.params.enforceAlign && misaligned a n)

/-- One Memory Port call: the outside makes its moves, then the port answers. Where a move was a reset the
invocation is over and the call does not happen (70_reset_and_hazards.md R201); where the port grants the access,
`perform` is the access itself and `granted` goes on from the state it leaves; where it refuses, the AddressFault
is taken; where it does not return, the CORE stays in RUN with the call outstanding, and its next step is the same
call (20_memory.md R73); where reset strikes while the call is in progress, the call has happened and the
invocation ends without a response (70_reset_and_hazards.md R201). -/
def portCall (a : Addr) (n : Size) (k : Kind) (perform : State → State) (s : State) (granted : State → Result) :
    Result :=
  let t := s.atCall
  match t.st with
  | .idle => .next t
  | .run =>
    match s.nextTurn.answer with
    | .pending => .next (t.setOutstanding true)
    | .refuses => .next (t.takeAddressFault a k n)
    | .byMap =>
      if t.accessible a n k = true then granted (perform t) else .next (t.takeAddressFault a k n)
    | .byMapThenReset =>
      if t.accessible a n k = true then .next (perform t).applyReset
      else .next (t.logCall { kind := k, size := n, addr := a, data := none }).applyReset

/-- The access of a word read: memory is not changed, the value read is `t.mem.readWord`. -/
def performReadWord (a : Addr) (t : State) : State :=
  t.logCall { kind := .read, size := .word, addr := a, data := some (t.mem.readWord t.params.xlen a) }

/-- The access of a byte read. -/
def performReadByte (a : Addr) (t : State) : State :=
  t.logCall
    { kind := .read, size := .byte, addr := a, data := some ((t.mem.read (byteAddr t.params.xlen a 0)).setWidth 32) }

/-- The access of a word write. -/
def performWriteWord (a : Addr) (v : Word) (t : State) : State :=
  (t.setMem (t.mem.writeWord t.params.xlen a v)).logCall
    { kind := .write, size := .word, addr := a, data := some v }

/-- The access of a byte write. -/
def performWriteByte (a : Addr) (v : Byte) (t : State) : State :=
  (t.setMem (t.mem.write (byteAddr t.params.xlen a 0) v)).logCall
    { kind := .write, size := .byte, addr := a, data := some (v.setWidth 32) }

/-- `MemRead(addr, 4)` (20_memory.md R53); the value goes to `use`. -/
def readWord (a : Addr) (s : State) (use : Word → State → Result) : Result :=
  portCall a .word .read (performReadWord a) s fun t => use (t.mem.readWord t.params.xlen a) t

/-- `MemRead(addr, 1)` (20_memory.md R53); the value goes to `use`. -/
def readByte (a : Addr) (s : State) (use : Byte → State → Result) : Result :=
  portCall a .byte .read (performReadByte a) s fun t => use (t.mem.read (byteAddr t.params.xlen a 0)) t

/-- `MemWrite(addr, 4, v)` (20_memory.md R54), then `go`. -/
def writeWord (a : Addr) (v : Word) (s : State) (go : State → Result) : Result :=
  portCall a .word .write (performWriteWord a v) s go

/-- `MemWrite(addr, 1, v)` (20_memory.md R54), then `go`. -/
def writeByte (a : Addr) (v : Byte) (s : State) (go : State → Result) : Result :=
  portCall a .byte .write (performWriteByte a v) s go

/-! ## The working buffer (10_state.md R30, R31) -/

/-- `buf[k]`; a cell the invocation has not written holds a free value (log 5; 10_state.md R38: no rule reads
one). -/
def bufCell (draw : Nat) (buf : List Word) (k : Nat) : Word :=
  buf.getD k (Config.staleCell draw k)

/-- `buf[k] <- w`; cells below `k` that are not written yet keep their free values. -/
def bufWrite (draw : Nat) (buf : List Word) (k : Nat) (w : Word) : List Word :=
  if k < buf.length then buf.set k w
  else buf ++ ((List.range' buf.length (k - buf.length)).map (Config.staleCell draw)) ++ [w]

/-! ## Accepting a command and carrying it out, step by step (10_state.md R36) -/

/-- Latch a command (30_encoding.md R81, 10_state.md R24) and start its invocation: `IDX` is 0 and no cell of
the working buffer is written. The engine adds its lengths and its first phase. -/
def Regs.latched (x : Xlen) (r : Regs) (i : Instr) : Regs :=
  { r with
    op := i.op
    a := latch x i.opA
    b := latch x i.opB
    c := latch x i.opC
    idx := 0
    buf := [] }

/-- The command in the latches (10_state.md R24). -/
def Regs.command (r : Regs) : Instr := commandOf r.op r.a r.b r.c

/-- The CORE goes to RUN with the registers `r` of a new invocation (10_state.md R22). -/
def State.start (s : State) (r : Regs) : State := { s with st := .run, outstanding := false, regs := r }

/-- A command handed to a CORE that runs another one waits, unchanged, on the command channel (30_encoding.md
R81; log 8). -/
def State.enqueue (s : State) (i : Instr) : State :=
  s.setOffered (s.offered ++ [encode s.params.xlen i])

/-- One step of a command (10_state.md R36). In IDLE it is accepted; with nothing to do it responds at once. In RUN,
when it is the command in the latches, it takes the next step of its engine's step table: one Memory Port call,
or SORT's sort (log 14). In RUN any other command waits. -/
def invoke (i : Instr) (accept : State → State) (tick : State → Result) (s : State) : Result :=
  match s.st with
  | .idle => .next (accept s)
  | .run => if s.regs.command = i then tick s else .next (s.enqueue i)

end Sys2Proof.Machine
end

