-- ==== Sys2Proof/Machine/Crush.lean ====
section
/-! DEFINITION. CRUSH, the Nibble-Pack Engine (42_crush.md). -/

namespace Sys2Proof.Machine

/-- Accept: `ITER <- C >> 1`, `IDX <- 0`; with `ITER` = 0 the response is given at once (42_crush.md R141,
R147). -/
def crushAccept (dst src : Addr) (count : Operand) (s : State) : State :=
  let r := s.regs.latched s.params.xlen (.crush dst src count)
  let t := s.start { r with iter := pairCount r.c, phase := .r1 }
  if pairCount r.c = 0 then t.respond .ok else t

/-- Row `R1` of the step table, on normal return (42_crush.md R147). -/
def crushAfterFirst (v : Byte) (t : State) : State :=
  t.setRegs { t.regs with v1 := v, phase := .r2 }

/-- Row `R2` of the step table, on normal return (42_crush.md R147). -/
def crushAfterSecond (v : Byte) (t : State) : State :=
  t.setRegs { t.regs with v2 := v, phase := .w }

/-- Row `W` of the step table, on normal return (42_crush.md R147). -/
def crushAfterWrite (t : State) : State :=
  let r := t.regs
  if r.idx + 1 = r.iter then t.respond .ok else t.setRegs { r with idx := r.idx + 1, phase := .r1 }

/-- One step of CRUSH's step table (42_crush.md R142, R147). -/
def crushTick (s : State) : Result :=
  let r := s.regs
  let x := s.params.xlen
  match r.phase with
  | .r1 => readByte (addrAt x r.b (2 * r.idx)) s fun v t => .next (crushAfterFirst v t)
  | .r2 => readByte (addrAt x r.b (2 * r.idx + 1)) s fun v t => .next (crushAfterSecond v t)
  | .w => writeByte (addrAt x r.a r.idx) (packNibbles r.v1 r.v2) s fun t => .next (crushAfterWrite t)
  | .rd | .wr | .srt | .r | .wl | .wh => .fault .foreignPhase

/-- One step of `CRUSH dst, src, count` (42_crush.md R140, R147). -/
def execCrush (dst src : Addr) (count : Operand) (s : State) : Result :=
  invoke (.crush dst src count) (crushAccept dst src count) crushTick s

end Sys2Proof.Machine
end

