-- ==== Sys2Proof/Machine/Dma.lean ====
section
/-! DEFINITION. DMA, the Matrix Transpose Engine (40_dma_transpose.md). -/

namespace Sys2Proof.Machine

/-- Accept: `N <- GrainDim(C)`, `PHASE <- RD`, `IDX <- 0` (40_dma_transpose.md R108). -/
def dmaAccept (dst src : Addr) (grainCode : Operand) (s : State) : State :=
  let r := s.regs.latched s.params.xlen (.dma dst src grainCode)
  s.start { r with n := grainDim r.c, phase := .rd }

/-- Row `RD` of the step table, on normal return (40_dma_transpose.md R103, R108). -/
def dmaAfterRead (w : Word) (t : State) : State :=
  let r := t.regs
  let buf := bufWrite t.discards r.buf r.idx w
  if r.idx + 1 = r.n * r.n then t.setRegs { r with buf := buf, phase := .wr, idx := 0 }
  else t.setRegs { r with buf := buf, idx := r.idx + 1 }

/-- Row `WR` of the step table, on normal return (40_dma_transpose.md R108). -/
def dmaAfterWrite (t : State) : State :=
  let r := t.regs
  if r.idx + 1 = r.n * r.n then t.respond .ok else t.setRegs { r with idx := r.idx + 1 }

/-- One step of the DMA's step table (40_dma_transpose.md R108). -/
def dmaTick (s : State) : Result :=
  let r := s.regs
  let x := s.params.xlen
  match r.phase with
  | .rd => readWord (wordAddr x r.b r.idx) s fun w t => .next (dmaAfterRead w t)
  | .wr =>
    writeWord (wordAddr x r.a r.idx) (bufCell s.discards r.buf (transposeIndex r.n r.idx)) s
      fun t => .next (dmaAfterWrite t)
  | .srt | .r1 | .r2 | .w | .r | .wl | .wh => .fault .foreignPhase

/-- One step of `DMA dst, src, grainCode` (40_dma_transpose.md R100, R108). -/
def execDma (dst src : Addr) (grainCode : Operand) (s : State) : Result :=
  invoke (.dma dst src grainCode) (dmaAccept dst src grainCode) dmaTick s

end Sys2Proof.Machine
end

