-- ==== Sys2Proof/Machine/Expand.lean ====
section
/-! DEFINITION. EXPAND, the Nibble-Unpack Engine (43_expand.md). -/

namespace Sys2Proof.Machine

/-- Accept: `ITER <- C`, `IDX <- 0`; with `ITER` = 0 the response is given at once (43_expand.md R156,
R162). -/
def expandAccept (dst src : Addr) (count : Operand) (s : State) : State :=
  let r := s.regs.latched s.params.xlen (.expand dst src count)
  let t := s.start { r with iter := r.c.toNat, phase := .r }
  if r.c.toNat = 0 then t.respond .ok else t

/-- Row `R` of the step table, on normal return (43_expand.md R162). -/
def expandAfterRead (v : Byte) (t : State) : State :=
  t.setRegs { t.regs with v1 := v, phase := .wl }

/-- Row `WL` of the step table, on normal return (43_expand.md R162). -/
def expandAfterLow (t : State) : State :=
  t.setRegs { t.regs with phase := .wh }

/-- Row `WH` of the step table, on normal return (43_expand.md R162). -/
def expandAfterHigh (t : State) : State :=
  let r := t.regs
  if r.idx + 1 = r.iter then t.respond .ok else t.setRegs { r with idx := r.idx + 1, phase := .r }

/-- One step of EXPAND's step table (43_expand.md R157, R162). -/
def expandTick (s : State) : Result :=
  let r := s.regs
  let x := s.params.xlen
  match r.phase with
  | .r => readByte (addrAt x r.b r.idx) s fun v t => .next (expandAfterRead v t)
  | .wl => writeByte (addrAt x r.a (2 * r.idx)) (lowNibble r.v1) s fun t => .next (expandAfterLow t)
  | .wh => writeByte (addrAt x r.a (2 * r.idx + 1)) (highNibble r.v1) s fun t => .next (expandAfterHigh t)
  | .rd | .wr | .srt | .r1 | .r2 | .w => .fault .foreignPhase

/-- One step of `EXPAND dst, src, count` (43_expand.md R155, R162). -/
def execExpand (dst src : Addr) (count : Operand) (s : State) : Result :=
  invoke (.expand dst src count) (expandAccept dst src count) expandTick s

end Sys2Proof.Machine
end

