-- ==== Sys2Proof/Machine/Sort.lean ====
section
/-! DEFINITION. SORT, the Bounded Sort Engine (41_sort.md). -/

namespace Sys2Proof.Machine

/-- Accept: `LEN <- B`, `EFF <- min(C, B)`, `IDX <- 0`; with `LEN` = 0 the response is given at once
(41_sort.md R128, R129). -/
def sortAccept (addr : Addr) (arrayLen sortLen : Operand) (s : State) : State :=
  let r := s.regs.latched s.params.xlen (.sort addr arrayLen sortLen)
  let t := s.start { r with len := r.b.toNat, eff := effectiveSortLen r.b r.c, phase := .rd }
  if r.b.toNat = 0 then t.respond .ok else t

/-- Row `RD` of the step table, on normal return (41_sort.md R124, R129). -/
def sortAfterRead (w : Word) (t : State) : State :=
  let r := t.regs
  let buf := bufWrite t.discards r.buf r.idx w
  if r.idx + 1 = r.len then t.setRegs { r with buf := buf, phase := .srt, idx := 0 }
  else t.setRegs { r with buf := buf, idx := r.idx + 1 }

/-- Row `SRT` of the step table: no access (41_sort.md R123, R126, R129). -/
def sortBuffer (s : State) : State :=
  s.setRegs { s.regs with buf := sortPrefix s.regs.eff s.regs.buf, phase := .wr }

/-- Row `WR` of the step table, on normal return (41_sort.md R129). -/
def sortAfterWrite (t : State) : State :=
  let r := t.regs
  if r.idx + 1 = r.len then t.respond .ok else t.setRegs { r with idx := r.idx + 1 }

/-- One step of SORT's step table (41_sort.md R129). -/
def sortTick (s : State) : Result :=
  let r := s.regs
  let x := s.params.xlen
  match r.phase with
  | .rd => readWord (wordAddr x r.a r.idx) s fun w t => .next (sortAfterRead w t)
  | .srt => .next (sortBuffer s)
  | .wr => writeWord (wordAddr x r.a r.idx) (bufCell s.discards r.buf r.idx) s fun t => .next (sortAfterWrite t)
  | .r1 | .r2 | .w | .r | .wl | .wh => .fault .foreignPhase

/-- One step of `SORT addr, arrayLen, sortLen` (41_sort.md R120, R129). -/
def execSort (addr : Addr) (arrayLen sortLen : Operand) (s : State) : Result :=
  invoke (.sort addr arrayLen sortLen) (sortAccept addr arrayLen sortLen) sortTick s

end Sys2Proof.Machine
end

