-- ==== Sys2Proof/Machine/Dispatch.lean ====
section
/-! DEFINITION. The dispatch of a command to its engine (30_encoding.md R86, R93). -/

namespace Sys2Proof.Machine

def exec (i : Instr) (s : State) : Host.Outcome State Fault Refusal :=
  match i with
  | .dma dst src grainCode => Sys2Proof.Machine.execDma dst src grainCode s
  | .sort addr arrayLen sortLen => Sys2Proof.Machine.execSort addr arrayLen sortLen s
  | .crush dst src count => Sys2Proof.Machine.execCrush dst src count s
  | .expand dst src count => Sys2Proof.Machine.execExpand dst src count s

end Sys2Proof.Machine
end

