-- ==== Sys2Proof/Machine/Sequencer.lean ====
section
/-! DEFINITION. The sequencer (10_state.md R36): the step of the command in progress, an idle turn, taking a word
off the command channel, and placing one there. -/

namespace Sys2Proof.Machine

/-- In RUN: one step of the command in the latches (10_state.md R24, R36 steps 2 to 4, the response merged with
the last access). -/
def tick (s : State) : Result := exec s.regs.command s

/-- In IDLE with no command offered the CORE does nothing and needs nothing but a command (60_exceptions.md
R188); the outside has its turn. -/
def idleTurn (s : State) : State := s.afterMoves

/-- The oldest offered command word is taken off the channel and decoded (30_encoding.md R81, R93); `none` when
none is offered. -/
def takeCommand (s : State) : Option (Instr × State) :=
  match s.offered with
  | [] => none
  | w :: rest => some (decode s.params.xlen w, s.setOffered rest)

/-- A word placed at the head of the command channel of an IDLE CORE, bits above `nbits` zero. -/
def placeCommand (s : State) (nbits w : Nat) : State :=
  { s with st := .idle, outstanding := false, offered := BitVec.ofNat 194 (w % 2 ^ nbits) :: s.offered }

end Sys2Proof.Machine
end

