-- ==== Sys2Proof/Machine/Step.lean ====
section
/-! DEFINITION. One step of the machine (10_state.md R36, 30_encoding.md R81, R93). -/

namespace Sys2Proof.Machine

/-- In IDLE the oldest offered command is taken off the channel, decoded and accepted; with none offered the CORE
idles. In RUN the command in the latches takes its next step: one Memory Port call, or SORT's sort. -/
def step (s : State) : Host.Outcome State Fault Refusal :=
  match s.st with
  | .run => tick s
  | .idle =>
    match takeCommand s with
    | none => .next (idleTurn s)
    | some (i, t) => exec i t

/-- The state with a command word on the channel, so that the very next step accepts it: the CORE's commands are
handed to it from outside (00_scope.md R6), which this stands for (log 13). -/
def State.withFetchWord (s : State) (nbits w : Nat) : State :=
  placeCommand s nbits w

end Sys2Proof.Machine
end

