-- ==== Sys2Proof/Assembler.lean ====
section
/-! DEFINITION. The textual form of a command (30_encoding.md R92): the mnemonic, then its three operands
separated by commas, each an unsigned integer literal, decimal or hexadecimal with `0x`. -/

namespace Sys2Proof

/-- The value of a digit, hexadecimal digits in either case. -/
def digitValue (c : Char) : Option Nat :=
  if '0' ≤ c ∧ c ≤ '9' then some (c.toNat - '0'.toNat)
  else if 'a' ≤ c ∧ c ≤ 'f' then some (c.toNat - 'a'.toNat + 10)
  else if 'A' ≤ c ∧ c ≤ 'F' then some (c.toNat - 'A'.toNat + 10)
  else none

/-- The number that digits spell after the ones already read, `acc`; every one must be a digit of the base. -/
def readDigits (base : Nat) : List Char → Nat → Option Nat
  | [], acc => some acc
  | c :: cs, acc =>
    match digitValue c with
    | none => none
    | some d => if d < base then readDigits base cs (acc * base + d) else none

/-- An unsigned integer literal, decimal or hexadecimal with `0x`. -/
def readLiteral (cs : List Char) : Option Nat :=
  match cs with
  | [] => none
  | '0' :: 'x' :: d :: ds => readDigits 16 (d :: ds) 0
  | d :: ds => readDigits 10 (d :: ds) 0

/-- Text without the spaces before its first and after its last other character. DESIGN CHOICE (log 15): spaces
around an operand are allowed. -/
def trimSpaces (cs : List Char) : List Char :=
  ((cs.dropWhile fun c => c == ' ').reverse.dropWhile fun c => c == ' ').reverse

/-- The text between commas; never empty. -/
def splitCommas : List Char → List (List Char)
  | [] => [[]]
  | c :: cs =>
    match splitCommas cs with
    | [] => [[c]]
    | p :: ps => if c = ',' then [] :: p :: ps else (c :: p) :: ps

/-- An operand: a literal that XLEN bits can hold (30_encoding.md R89). DESIGN CHOICE (log 15): a space inside a
literal makes it no literal, and the line no command. -/
def readOperand (x : Xlen) (cs : List Char) : Option Operand :=
  match readLiteral (trimSpaces cs) with
  | none => none
  | some v => if v < x.size then some (BitVec.ofNat 64 v) else none

/-- The operation code of a mnemonic. There are no aliases and no pseudo-instructions. -/
def readMnemonic (cs : List Char) : Option Op :=
  if cs = ['D', 'M', 'A'] then some .dma
  else if cs = ['S', 'O', 'R', 'T'] then some .sort
  else if cs = ['C', 'R', 'U', 'S', 'H'] then some .crush
  else if cs = ['E', 'X', 'P', 'A', 'N', 'D'] then some .expand
  else none

/-- The command a line of text spells. -/
def assemble (x : Xlen) (line : List Char) : Option Instr :=
  let name := line.takeWhile fun c => c != ' '
  match readMnemonic name, (splitCommas (line.drop name.length)).map (readOperand x) with
  | some op, [some a, some b, some c] => some (commandOf op a b c)
  | _, _ => none

end Sys2Proof
end

