-- ==== Sys2Proof/Machine/Invocation.lean ====
section
/-! DEFINITION. A whole invocation: the acceptance of a command, then `step` after `step` to its response, or to a
Memory Port call that does not return. Statements speak of commands through it; no meaning calls this file. -/

namespace Sys2Proof.Machine

/-- Step until the CORE is IDLE or waits for a call that has not returned, at most `fuel` times. -/
def untilIdle : Nat → State → Result
  | 0, s => .next s
  | fuel + 1, s =>
    match s.st, s.outstanding with
    | .idle, _ => .next s
    | .run, true => .next s
    | .run, false =>
      match step s with
      | .next t => untilIdle fuel t
      | .fault f => .fault f
      | .refused r => .refused r

/-- The exact number of steps from acceptance to the response of an invocation that does not fault: its Memory
Port calls (70_reset_and_hazards.md R225), and SORT's one sort step. -/
def Regs.stepCount (r : Regs) : Nat :=
  match r.op with
  | .dma => 2 * (r.n * r.n)
  | .sort => 2 * r.len + 1
  | .crush => 3 * r.iter
  | .expand => 3 * r.iter

/-- The rest of the invocation that a command's acceptance has started. -/
def finish (t : State) : Result := untilIdle t.regs.stepCount t

/-- The invocation of a command handed to an IDLE CORE, from its acceptance on (30_encoding.md R81 to R84). -/
def invocation (i : Instr) (s : State) : Result :=
  match exec i s with
  | .next t => finish t
  | .fault f => .fault f
  | .refused r => .refused r

end Sys2Proof.Machine
end

