-- ==== Sys2Proof/Machine/Effects.lean ====
section
/-! DEFINITION. What the commands do in closed form when no other actor moves: the memory a command leaves and
the Memory Port calls it makes, in order. Statements compare the meanings with these; no meaning calls this
file. -/

namespace Sys2Proof.Machine

/-- Words `val 0`, `val 1`, ... written in increasing order to the first `n` places of the word array at
`base`. -/
def storeWords (x : Xlen) (m : Memory) (base : Addr) (val : Nat → Word) (n : Nat) : Memory :=
  (List.range n).foldl (fun m k => m.writeWord x (wordAddr x base k) (val k)) m

/-- Word `k` of the word array at `base`. -/
def wordAt (x : Xlen) (m : Memory) (base : Addr) (k : Nat) : Word :=
  m.readWord x (wordAddr x base k)

/-- The byte at `base + off` (20_memory.md R52). -/
def byteAt (x : Xlen) (m : Memory) (base : Addr) (off : Nat) : Byte :=
  m.read (addrAt x base off).toNat

/-- The first `n` words of the word array at `base`. -/
def wordsAt (x : Xlen) (m : Memory) (base : Addr) (n : Nat) : List Word :=
  (List.range n).map (wordAt x m base)

/-- The words a DMA writes: the source as it was before the command, transposed (40_dma_transpose.md R104,
R105). -/
def transposed (x : Xlen) (m : Memory) (src : Addr) (n k : Nat) : Word :=
  wordAt x m src (transposeIndex n k)

/-- The words a SORT writes: the array as it was, its first `eff` words sorted (41_sort.md R123, R126). -/
def sortedWord (x : Xlen) (m : Memory) (addr : Addr) (len eff k : Nat) : Word :=
  (sortPrefix eff (wordsAt x m addr len)).getD k 0

/-- The byte iteration `i` of a CRUSH writes, memory being `m` at its start (42_crush.md R143). -/
def crushByte (x : Xlen) (m : Memory) (src : Addr) (i : Nat) : Byte :=
  packNibbles (byteAt x m src (2 * i)) (byteAt x m src (2 * i + 1))

/-- Memory after the first `n` iterations of a CRUSH; each iteration reads what the earlier ones left
(42_crush.md R145). -/
def crushMem (x : Xlen) (m : Memory) (dst src : Addr) (n : Nat) : Memory :=
  (List.range n).foldl (fun m i => m.write (addrAt x dst i).toNat (crushByte x m src i)) m

/-- Memory after the low nibble of iteration `i` of an EXPAND is written, memory being `m` at its start. -/
def expandLow (x : Xlen) (m : Memory) (dst src : Addr) (i : Nat) : Memory :=
  m.write (addrAt x dst (2 * i)).toNat (lowNibble (byteAt x m src i))

/-- Memory after iteration `i` of an EXPAND, memory being `m` at its start: both nibbles are of the byte read
before either write (43_expand.md R157). -/
def expandBoth (x : Xlen) (m : Memory) (dst src : Addr) (i : Nat) : Memory :=
  (expandLow x m dst src i).write (addrAt x dst (2 * i + 1)).toNat (highNibble (byteAt x m src i))

/-- Memory after the first `n` iterations of an EXPAND; each iteration reads what the earlier ones left
(43_expand.md R159). -/
def expandMem (x : Xlen) (m : Memory) (dst src : Addr) (n : Nat) : Memory :=
  (List.range n).foldl (fun m i => expandBoth x m dst src i) m

/-! ## Access sequences (00_scope.md R13) -/

/-- `n` word accesses of one kind at the word array at `base`, in increasing order. -/
def wordCalls (x : Xlen) (k : Kind) (base : Addr) (val : Nat → Word) (n : Nat) : List Access :=
  (List.range n).map fun j => { kind := k, size := .word, addr := wordAddr x base j, data := some (val j) }

/-- One byte access. -/
def byteCall (x : Xlen) (k : Kind) (base : Addr) (off : Nat) (v : Byte) : Access where
  kind := k
  size := .byte
  addr := addrAt x base off
  data := some (v.setWidth 32)

/-- The three accesses of iteration `i` of a CRUSH, memory being `m` at its start (42_crush.md R142). -/
def crushCallsAt (x : Xlen) (m : Memory) (dst src : Addr) (i : Nat) : List Access :=
  [byteCall x .read src (2 * i) (byteAt x m src (2 * i)),
   byteCall x .read src (2 * i + 1) (byteAt x m src (2 * i + 1)),
   byteCall x .write dst i (crushByte x m src i)]

/-- The accesses of the first `n` iterations of a CRUSH. -/
def crushCalls (x : Xlen) (m : Memory) (dst src : Addr) (n : Nat) : List Access :=
  (List.range n).flatMap fun i => crushCallsAt x (crushMem x m dst src i) dst src i

/-- The three accesses of iteration `i` of an EXPAND, memory being `m` at its start (43_expand.md R157). -/
def expandCallsAt (x : Xlen) (m : Memory) (dst src : Addr) (i : Nat) : List Access :=
  [byteCall x .read src i (byteAt x m src i),
   byteCall x .write dst (2 * i) (lowNibble (byteAt x m src i)),
   byteCall x .write dst (2 * i + 1) (highNibble (byteAt x m src i))]

/-- The accesses of the first `n` iterations of an EXPAND. -/
def expandCalls (x : Xlen) (m : Memory) (dst src : Addr) (n : Nat) : List Access :=
  (List.range n).flatMap fun i => expandCallsAt x (expandMem x m dst src i) dst src i

/-- What the CORE presents to the port for its next Memory Port call, as the step tables give it for (`OP`, `PHASE`,
`IDX`): a write carries its value, a read none; no call in SORT's `SRT` (40_dma_transpose.md R108, 41_sort.md R129,
42_crush.md R147, 43_expand.md R162). -/
def Regs.nextCall (x : Xlen) (r : Regs) : Option Access :=
  match r.op, r.phase with
  | .dma, .rd => some { kind := .read, size := .word, addr := wordAddr x r.b r.idx, data := none }
  | .dma, .wr =>
    some
      { kind := .write
        size := .word
        addr := wordAddr x r.a r.idx
        data := some (r.buf.getD (r.idx % r.n * r.n + r.idx / r.n) 0) }
  | .sort, .rd => some { kind := .read, size := .word, addr := wordAddr x r.a r.idx, data := none }
  | .sort, .wr =>
    some { kind := .write, size := .word, addr := wordAddr x r.a r.idx, data := some (r.buf.getD r.idx 0) }
  | .crush, .r1 => some { kind := .read, size := .byte, addr := addrAt x r.b (2 * r.idx), data := none }
  | .crush, .r2 => some { kind := .read, size := .byte, addr := addrAt x r.b (2 * r.idx + 1), data := none }
  | .crush, .w =>
    some
      { kind := .write
        size := .byte
        addr := addrAt x r.a r.idx
        data := some ((((r.v2 &&& 0x0F#8) <<< 4) ||| (r.v1 &&& 0x0F#8)).setWidth 32) }
  | .expand, .r => some { kind := .read, size := .byte, addr := addrAt x r.b r.idx, data := none }
  | .expand, .wl =>
    some
      { kind := .write
        size := .byte
        addr := addrAt x r.a (2 * r.idx)
        data := some ((r.v1 &&& 0x0F#8).setWidth 32) }
  | .expand, .wh =>
    some
      { kind := .write
        size := .byte
        addr := addrAt x r.a (2 * r.idx + 1)
        data := some (((r.v1 >>> 4) &&& 0x0F#8).setWidth 32) }
  | _, _ => none

/-- The call that raised AddressFault: presented to the port, nothing transferred (60_exceptions.md R178). -/
def failedCall (a : Addr) (k : Kind) (n : Size) : Access where
  kind := k
  size := n
  addr := a
  data := none

/-- The state after an invocation that left memory `m`, made the calls `cs` and gave the response `r`. -/
def State.finished (s : State) (m : Memory) (cs : List Access) (r : Response) : State :=
  ({ s with mem := m, calls := s.calls ++ cs } : State).respond r

/-- What a logged call did to memory: a write that was performed stored its bytes; any other call nothing. -/
def Memory.replay (x : Xlen) (m : Memory) (c : Access) : Memory :=
  match c.kind, c.size, c.data with
  | .write, .word, some v => m.writeWord x c.addr v
  | .write, .byte, some v => m.write (byteAddr x c.addr 0) (v.setWidth 8)
  | _, _, _ => m

end Sys2Proof.Machine
end

