-- ==== Sys2Proof/Machine/Flags.lean ====
section
/-! DEFINITION. The CORE has no flags, condition codes or predicates (10_state.md R29). What reports the
outcome of a command is its response, whose bits are computed here (30_encoding.md R88). -/

namespace Sys2Proof.Machine

/-- `STATUS`: 0 for OK, 1 for AddressFault (60_exceptions.md R175). -/
def Response.statusBit : Response → Nat
  | .ok => 0
  | .addressFault _ _ _ => 1

/-- `FKIND`: 0 for a read, 1 for a write; 0 on OK. -/
def Response.kindBit : Response → Nat
  | .ok => 0
  | .addressFault _ .read _ => 0
  | .addressFault _ .write _ => 1

/-- `FSIZE`: 0 for 1 byte, 1 for 4 bytes; 0 on OK. -/
def Response.sizeBit : Response → Nat
  | .ok => 0
  | .addressFault _ _ .byte => 0
  | .addressFault _ _ .word => 1

/-- `FADDR`: the address of the failing access; 0 on OK. -/
def Response.faultAddr : Response → Addr
  | .ok => 0
  | .addressFault a _ _ => a

/-- The response word RESP: `STATUS` in bit 0, `FKIND` in bit 1, `FSIZE` in bit 2, `FADDR` from bit 3 up
(30_encoding.md R88). -/
def Response.word (r : Response) : Resp :=
  BitVec.ofNat 67 (r.statusBit + r.kindBit * 2 + r.sizeBit * 4 + r.faultAddr.toNat * 8)

end Sys2Proof.Machine
end

