-- ==== Sys2Proof/Machine/Pseudocode.lean ====
section
/-! DEFINITION. The pseudocode of the four commands (40_dma_transpose.md R100, 41_sort.md R120, 42_crush.md
R140, 43_expand.md R155), written apart from the step tables the meanings take.
The registers of the step tables have no place in it: `s.started` leaves them as they were. "If a reader finds them to
differ, the pseudocode governs" (10_state.md R36): the statements say that they do not. No meaning calls this
file. -/

namespace Sys2Proof.Machine

/-- `for k in lo .. lo+count-1: body`, then `go` (00_scope.md R12). -/
def forLoop (body : Nat → State → (State → Result) → Result) : Nat → Nat → State → (State → Result) → Result
  | 0, _, s, go => go s
  | count + 1, lo, s, go => body lo s fun t => forLoop body count (lo + 1) t go

/-- `for k in lo .. lo+count-1: buf[k] <- MemRead(base + 4*k, 4)`, `buf` growing from `acc`, then `go`. -/
def readLoop (x : Xlen) (base : Addr) :
    Nat → Nat → List Word → State → (List Word → State → Result) → Result
  | 0, _, acc, s, go => go acc s
  | count + 1, lo, acc, s, go =>
    readWord (wordAddr x base lo) s fun w t => readLoop x base count (lo + 1) (acc ++ [w]) t go

/-- `respond OK` (30_encoding.md R83). -/
def respondOk (s : State) : Result := .next (s.respond .ok)

/-- The CORE at work: `ST` is RUN from acceptance to response (10_state.md R22). -/
def State.started (s : State) : State := s.start s.regs

/-- The pseudocode of DMA (40_dma_transpose.md R100). -/
def dmaPseudocode (dst src : Addr) (grainCode : Operand) (s : State) : Result :=
  let x := s.params.xlen
  let A := latch x dst
  let B := latch x src
  let N := grainDim (latch x grainCode)
  readLoop x B (N * N) 0 [] s.started fun buf t =>
    forLoop
      (fun m t go =>
        let i := m / N
        let j := m % N
        writeWord (wordAddr x A m) (buf.getD (j * N + i) 0) t go)
      (N * N) 0 t respondOk

/-- The pseudocode of SORT (41_sort.md R120). -/
def sortPseudocode (addr : Addr) (arrayLen sortLen : Operand) (s : State) : Result :=
  let x := s.params.xlen
  let A := latch x addr
  let LEN := (latch x arrayLen).toNat
  let EFF := min (latch x sortLen).toNat LEN
  readLoop x A LEN 0 [] s.started fun buf t =>
    let sorted := sortAscU32 (buf.take EFF) ++ buf.drop EFF
    forLoop (fun k t go => writeWord (wordAddr x A k) (sorted.getD k 0) t go) LEN 0 t respondOk

/-- The pseudocode of CRUSH (42_crush.md R140). -/
def crushPseudocode (dst src : Addr) (count : Operand) (s : State) : Result :=
  let x := s.params.xlen
  let A := latch x dst
  let B := latch x src
  let ITER := (latch x count).toNat / 2
  forLoop
    (fun i t go =>
      readByte (addrAt x B (2 * i)) t fun V1 t =>
        readByte (addrAt x B (2 * i + 1)) t fun V2 t =>
          writeByte (addrAt x A i) (((V2 &&& 0x0F#8) <<< 4) ||| (V1 &&& 0x0F#8)) t go)
    ITER 0 s.started respondOk

/-- The pseudocode of EXPAND (43_expand.md R155). -/
def expandPseudocode (dst src : Addr) (count : Operand) (s : State) : Result :=
  let x := s.params.xlen
  let A := latch x dst
  let B := latch x src
  let ITER := (latch x count).toNat
  forLoop
    (fun i t go =>
      readByte (addrAt x B i) t fun V1 t =>
        writeByte (addrAt x A (2 * i)) (V1 &&& 0x0F#8) t fun t =>
          writeByte (addrAt x A (2 * i + 1)) ((V1 >>> 4) &&& 0x0F#8) t go)
    ITER 0 s.started respondOk

/-- The pseudocode of a command. -/
def pseudocode (i : Instr) (s : State) : Result :=
  match i with
  | .dma dst src grainCode => dmaPseudocode dst src grainCode s
  | .sort addr arrayLen sortLen => sortPseudocode addr arrayLen sortLen s
  | .crush dst src count => crushPseudocode dst src count s
  | .expand dst src count => expandPseudocode dst src count s

end Sys2Proof.Machine
end

