-- ==== Sys2Proof/Safety.lean ====
section
/-! DEFINITION. The invariant of the machine, and the premises of the spec's laws: which states a run can
reach, when no other actor moves, when a region is accessible. -/

namespace Sys2Proof.Machine

/-- Every listed byte location is one of the address space (20_memory.md R50). -/
def Memory.inSpace (x : Xlen) (m : Memory) : Bool := m.all fun c => c.1 < x.size

/-- The registers of a running invocation (10_state.md R24 to R31): the operands fit XLEN bits, the lengths are
those Operand Validation resolves, PHASE is one of the engine's own, IDX is below its bound, and the working
buffer holds just the cells the phase has written. -/
def Regs.Inv (x : Xlen) (r : Regs) : Prop :=
  x.fits r.a ∧ x.fits r.b ∧ x.fits r.c ∧
    match r.op with
    | .dma =>
      r.n = grainDim r.c ∧ r.idx < r.n * r.n ∧
        ((r.phase = .rd ∧ r.buf.length = r.idx) ∨ (r.phase = .wr ∧ r.buf.length = r.n * r.n))
    | .sort =>
      r.len = r.b.toNat ∧ r.eff = effectiveSortLen r.b r.c ∧ r.idx < r.len ∧
        ((r.phase = .rd ∧ r.buf.length = r.idx) ∨ (r.phase = .srt ∧ r.idx = 0 ∧ r.buf.length = r.len) ∨
          (r.phase = .wr ∧ r.buf.length = r.len))
    | .crush =>
      r.iter = pairCount r.c ∧ r.idx < r.iter ∧ (r.phase = .r1 ∨ r.phase = .r2 ∨ r.phase = .w)
    | .expand =>
      r.iter = r.c.toNat ∧ r.idx < r.iter ∧ (r.phase = .r ∨ r.phase = .wl ∨ r.phase = .wh)

/-- The invariant of the machine: memory is canonical and inside the address space, in RUN the registers meet
theirs, and a Memory Port call is outstanding only in RUN, in a phase that makes one (10_state.md R22, R37). In IDLE
the registers have no meaning (10_state.md R24). -/
def State.Inv (s : State) : Prop :=
  s.mem.wf = true ∧ s.mem.inSpace s.params.xlen = true ∧ (s.st = .run → s.regs.Inv s.params.xlen) ∧
    (s.outstanding = true → s.st = .run ∧ s.regs.phase ≠ .srt)

/-- The CORE can accept a command (30_encoding.md R81) and there is no other actor (20_memory.md R66, the
default). -/
def State.Ready (s : State) : Prop := s.st = .idle ∧ s.env = []

/-- A CORE in RUN with no other actor (20_memory.md R66, the default) and no call outstanding. -/
def State.Undisturbed (s : State) : Prop := s.st = .run ∧ s.env = [] ∧ s.outstanding = false

/-- The port grants every word access of one kind to the first `n` words at `base`. -/
def State.wordsOpen (s : State) (k : Kind) (base : Addr) (n : Nat) : Prop :=
  ∀ j < n, s.accessible (wordAddr s.params.xlen base j) .word k = true

/-- The port grants every byte access of one kind to the first `n` bytes at `base`. -/
def State.bytesOpen (s : State) (k : Kind) (base : Addr) (n : Nat) : Prop :=
  ∀ j < n, s.accessible (addrAt s.params.xlen base j) .byte k = true

/-- Two regions of `n` and `m` bytes that share no byte location, addresses taken modulo 2^XLEN. -/
def Disjoint (x : Xlen) (a : Addr) (n : Nat) (b : Addr) (m : Nat) : Prop :=
  ∀ i < n, ∀ j < m, (addrAt x a i).toNat ≠ (addrAt x b j).toNat

/-- A byte location inside the region of `n` bytes at `a`. -/
def InRegion (x : Xlen) (a : Addr) (n : Nat) (loc : Nat) : Prop :=
  ∃ i < n, loc = (addrAt x a i).toNat

/-- No turn of the outside applies reset (30_encoding.md R82, "unless a reset intervenes"). -/
def State.NoReset (s : State) : Prop := ∀ t ∈ s.env, Move.reset ∉ t.moves ∧ t.answer ≠ .byMapThenReset

/-- Every Memory Port call returns in its turn: the assumption about the port of 20_memory.md R73. -/
def State.PortReturns (s : State) : Prop := ∀ t ∈ s.env, t.answer ≠ .pending

end Sys2Proof.Machine
end

