-- ==== Sys2Proof/Certificates/Slice0/Obligations.lean ====
section
/-! DEFINITION. The statements for the provers. Each docstring names the rules it formalises.
What is the model's own in many of them: `s.finished m cs r` is `s` with memory `m`, the calls `cs` added to
the log of Memory Port calls (log 9), the response `r` added to the response channel (log 8), and the
registers discarded, that is at free values (log 5, whatever those are); the outside moves as the script
`env` says (log 6). `exec i s` is one step of a command, and `finish` steps the machine on to the response, so
that `exec i s = .next t` with `finish t = .next u`, in short `invocation i s = .next u`, is the whole of it
(log 14). The byte order of words is the spec's decision D3, the address wrap its D2. -/

open Sys2Proof Sys2Proof.Machine

/-! ## Command and response words -/

/-- 30_encoding.md R85, R86, R87, R93: decoding the word of a command gives the command back, every operand at
every value XLEN bits admit. -/
def Obligations.DecodeEncodeRoundTrip : Prop :=
  ∀ (x : Xlen) (i : Instr), i.wf x = true → decode x (encode x i) = i

/-- 30_encoding.md R90, R93: every word of 3*XLEN+2 bits is a command, with operands of XLEN bits, and is the
only word of that command. -/
def Obligations.EveryWordIsOneCommand : Prop :=
  ∀ (x : Xlen) (w : Cmd), w.toNat < 2 ^ (3 * x.bits + 2) →
    (decode x w).wf x = true ∧ encode x (decode x w) = w

/-- 30_encoding.md R85: the number a command's word spells, and its length of 3*XLEN+2 bits. -/
def Obligations.CommandWordLayout : Prop :=
  ∀ (x : Xlen) (i : Instr), i.wf x = true →
    (encode x i).toNat =
        opCode i.op + i.opA.toNat * 2 ^ 2 + i.opB.toNat * 2 ^ (x.bits + 2) + i.opC.toNat * 2 ^ (2 * x.bits + 2) ∧
      (encode x i).toNat < 2 ^ (3 * x.bits + 2)

/-- 95_test_vectors.md V-ENC-1: four command words of the spec, one per command, at both widths. -/
def Obligations.SampleCommandWords : Prop :=
  decode .x64 0x0000000000000000000000000000040000000000000008000 = .dma 0x2000 0x1000 0 ∧
    decode .x32 0x0000000040000400000008000 = .dma 0x2000 0x1000 1 ∧
    decode .x64 0x0000000000000000C0000000000000014000000000000C001 = .sort 0x3000 5 3 ∧
    decode .x32 0x00000000C000000140000C001 = .sort 0x3000 5 3 ∧
    decode .x64 0x0000000000000001C00000000000140000000000000018002 = .crush 0x6000 0x5000 7 ∧
    decode .x32 0x000000020000180000001C002 = .crush 0x7000 0x6000 8 ∧
    decode .x64 0x0000000000000000C0000000000018000000000000001C003 = .expand 0x7000 0x6000 3 ∧
    decode .x32 0x0000000100001400000018003 = .expand 0x6000 0x5000 4

/-- 30_encoding.md R88: the response word, field by field, and its length of XLEN+3 bits. -/
def Obligations.ResponseWordLayout : Prop :=
  Response.ok.word = 0 ∧
    ∀ (x : Xlen) (a : Addr) (k : Kind) (n : Size), x.fits a = true →
      ((Response.addressFault a k n).word.toNat =
          1 + (if k = .write then 2 else 0) + (if n = .word then 4 else 0) + a.toNat * 8) ∧
        (Response.addressFault a k n).word.toNat < 2 ^ (x.bits + 3)

/-! ## Steps, the command channel and reset -/

/-- 30_encoding.md R81, R93, 10_state.md R36: in IDLE a step takes the oldest word off the command channel, and is
`exec` of the command that word decodes to; in RUN a step is `exec` of the command in the latches. -/
def Obligations.StepRunsOfferedCommand : Prop :=
  (∀ (s : State) (w : Cmd) (rest : List Cmd), s.st = .idle → s.offered = w :: rest →
      step s = exec (decode s.params.xlen w) { s with offered := rest }) ∧
    ∀ s : State, s.st = .run → step s = exec s.regs.command s

/-- 60_exceptions.md R188: in IDLE with no command offered (and no other actor) a step changes nothing. -/
def Obligations.IdleCoreDoesNothing : Prop :=
  ∀ s : State, s.Ready → s.offered = [] → step s = .next s

/-- 30_encoding.md R81: in RUN an offered command is not accepted; it waits on the channel, unchanged and in
order, whatever the invocation in progress does next, and a command handed to `exec` that is not the one in
progress is put there. The channel itself is the model's form (log 8). -/
def Obligations.OfferedCommandWaitsInRun : Prop :=
  ∀ s : State, s.st = .run →
    (∀ i : Instr, i ≠ s.regs.command →
        exec i s = .next { s with offered := s.offered ++ [encode s.params.xlen i] }) ∧
      ∀ t : State, step s = .next t → ∃ more, t.offered = s.offered ++ more

/-- 10_state.md R37, 70_reset_and_hazards.md R200: what the spec says reset leaves. The parameters have the
defaults of 00_scope.md R8 and 20_memory.md R59. -/
def Obligations.ResetLeavesIdle : Prop :=
  State.reset.st = .idle ∧ State.reset.offered = [] ∧ State.reset.responses = [] ∧
    State.reset.outstanding = false ∧ State.reset.params.xlen = .x64 ∧ State.reset.params.enforceAlign = false ∧
    State.reset.env = []

/-- 70_reset_and_hazards.md R201: reset in RUN ends the invocation without a response, and memory keeps every write
whose call had happened. Before a Memory Port call, or with one outstanding that has not happened, that call does
not happen; while a call is in progress it may have happened whole, the last call of the invocation like any other.
The registers' values are the model's (log 3), and where a reset lands is the model's script (log 6). -/
def Obligations.ResetEndsInvocation : Prop :=
  (∀ (s : State) (ans : Answer) (later : List Turn), s.Inv → s.st = .run → s.regs.phase ≠ .srt →
      s.env = { moves := [.reset], answer := ans } :: later →
      step s = .next { s with st := .idle, outstanding := false, regs := Regs.reset, env := later }) ∧
    ∀ (s : State) (moves : List Move) (later : List Turn) (c : Access), s.Inv → s.st = .run →
      s.regs.nextCall s.params.xlen = some c → s.env = { moves := moves, answer := .byMapThenReset } :: later →
      Move.reset ∉ moves → s.atCall.accessible c.addr c.size c.kind = true →
      ∃ t d, step s = .next t ∧ t.st = .idle ∧ t.outstanding = false ∧ t.responses = s.responses ∧
        t.mem = Memory.replay s.params.xlen s.atCall.mem c ∧ t.calls = s.calls ++ [{ c with data := some d }]

/-! ## Invariants and whole-machine rules -/

/-- The state after reset meets the invariant of the machine. -/
def Obligations.ResetMeetsInvariant : Prop :=
  State.reset.Inv

/-- 10_state.md R22, R24 to R28: memory stays canonical and inside the address space, and in RUN the registers hold
what Operand Validation resolved, PHASE is the engine's own, IDX is below its bound, and the buffer holds just
the cells written; a Memory Port call is outstanding only in RUN, in a phase that makes one. -/
def Obligations.StepKeepsInvariant : Prop :=
  ∀ s t : State, s.Inv → step s = .next t → t.Inv

/-- 10_state.md R26, 30_encoding.md R90: under the invariant every step answers a next state, so that no engine finds
itself in a phase that is not its own (log 11); and in every state no command is refused. -/
def Obligations.NoForeignPhase : Prop :=
  (∀ s : State, s.Inv → ∃ t, step s = .next t) ∧ ∀ (i : Instr) (s : State) (r : Refusal), exec i s ≠ .refused r

/-- 30_encoding.md R82, R83, 60_exceptions.md R178: every accepted command produces exactly one response and leaves
the CORE IDLE, unless a reset intervenes or a Memory Port call never returns. -/
def Obligations.EveryCommandGetsOneResponse : Prop :=
  ∀ (i : Instr) (s : State), s.st = .idle → s.NoReset → s.PortReturns →
    ∃ t u r, exec i s = .next t ∧ finish t = .next u ∧ u.st = .idle ∧ u.responses = s.responses ++ [r]

/-- 20_memory.md R73, 60_exceptions.md R181: an invocation ends in IDLE unless a Memory Port call does not return.
Then the CORE stays in RUN, where it was, with the call outstanding and every earlier write in memory; if the call
never returns (the end of the script, log 6) every later step leaves it there. Only reset ends that
(ResetEndsInvocation), or the call's return. -/
def Obligations.OnlyAHangingPortStops : Prop :=
  (∀ (i : Instr) (s : State), s.st = .idle →
      ∃ t u, exec i s = .next t ∧ finish t = .next u ∧
        (u.st = .run → u.outstanding = true ∧ ∃ w ∈ s.env, w.answer = .pending)) ∧
    (∀ (s : State) (moves : List Move) (later : List Turn), s.Inv → s.st = .run → s.regs.phase ≠ .srt →
      s.env = { moves := moves, answer := .pending } :: later → Move.reset ∉ moves →
      ∃ t, step s = .next t ∧ t.st = .run ∧ t.outstanding = true ∧ t.regs = s.regs ∧ t.mem = s.atCall.mem ∧
        t.calls = s.calls ∧ t.responses = s.responses) ∧
    ∀ s : State, s.Inv → s.outstanding = true → s.env = [] → step s = .next s

/-- 10_state.md R21, R38: the outcome of a command does not depend on what the registers held before it. Where a
Memory Port call does not return, the two states differ in the registers alone. -/
def Obligations.OldRegistersNeverObserved : Prop :=
  ∀ (i : Instr) (s : State) (r : Regs), s.st = .idle →
    ∃ t r', invocation i s = .next t ∧ invocation i { s with regs := r } = .next { t with regs := r' } ∧
      (t.st = .idle → r' = t.regs)

/-- 30_encoding.md R84, 10_state.md R24, R25: while an invocation runs, the latched command and the resolved
lengths do not change. -/
def Obligations.LatchedCommandHolds : Prop :=
  ∀ s t : State, s.st = .run → step s = .next t → t.st = .run →
    t.regs.op = s.regs.op ∧ t.regs.a = s.regs.a ∧ t.regs.b = s.regs.b ∧ t.regs.c = s.regs.c ∧
      t.regs.n = s.regs.n ∧ t.regs.len = s.regs.len ∧ t.regs.eff = s.regs.eff ∧ t.regs.iter = s.regs.iter

/-- 00_scope.md section 4: the parameters are fixed; no step changes them (log 1). -/
def Obligations.ParametersFixed : Prop :=
  ∀ s t : State, step s = .next t → t.params = s.params

/-- 20_memory.md R60: DMA and SORT make only 4-byte accesses, CRUSH and EXPAND only 1-byte accesses. -/
def Obligations.AccessWidths : Prop :=
  ∀ (i : Instr) (s t : State), s.st = .idle → invocation i s = .next t →
    ∃ new, t.calls = s.calls ++ new ∧
      ∀ c ∈ new, c.size = match i with
        | .dma _ _ _ => .word
        | .sort _ _ _ => .word
        | .crush _ _ _ => .byte
        | .expand _ _ _ => .byte

/-- 60_exceptions.md R178: a command that ends with AddressFault ends at the access that raised it, which
transferred nothing and is the one the response names; every access before it was performed, and a command
that ends with OK had all of its accesses performed. -/
def Obligations.FirstFaultEndsTheCommand : Prop :=
  ∀ (i : Instr) (s t : State), s.st = .idle → s.NoReset → invocation i s = .next t → t.st = .idle →
    ∃ new r, t.calls = s.calls ++ new ∧ t.responses = s.responses ++ [r] ∧
      match r with
      | .ok => ∀ c ∈ new, c.data ≠ none
      | .addressFault a k n => ∃ before, new = before ++ [failedCall a k n] ∧ ∀ c ∈ before, c.data ≠ none

/-- 20_memory.md R51, R54, R63, 60_exceptions.md R178: with no other actor, memory after a command is memory
before it with the writes it performed applied in the order made: nothing else writes, nothing is rolled
back. -/
def Obligations.MemoryIsTheWritesReplayed : Prop :=
  ∀ (i : Instr) (s t : State), s.Ready → invocation i s = .next t →
    ∃ new, t.calls = s.calls ++ new ∧ t.mem = new.foldl (Memory.replay s.params.xlen) s.mem

/-- 70_reset_and_hazards.md R225: the exact numbers of reads and of writes of a command that does not fault,
whatever other actors do (the spec marks the table as derived). -/
def Obligations.TrafficCounts : Prop :=
  ∀ (i : Instr) (s t : State), s.st = .idle → i.wf s.params.xlen = true →
    invocation i s = .next t → t.responses = s.responses ++ [.ok] →
    ∃ new, t.calls = s.calls ++ new ∧
      ((new.filter (·.kind = .read)).length, (new.filter (·.kind = .write)).length) = match i with
        | .dma _ _ c => (grainDim c * grainDim c, grainDim c * grainDim c)
        | .sort _ b _ => (b.toNat, b.toNat)
        | .crush _ _ c => (2 * (c.toNat / 2), c.toNat / 2)
        | .expand _ _ c => (c.toNat, 2 * c.toNat)

/-- 10_state.md R36: the steps of the meanings, which follow the step tables, and the pseudocode, which governs, give
the same outcome for every command: whatever the port refuses, whatever the outside does. Where a Memory Port call
does not return, the states differ in the registers alone, which the pseudocode does not have. -/
def Obligations.StepTablesMeetPseudocode : Prop :=
  ∀ (i : Instr) (s : State), s.st = .idle →
    ∃ t r, invocation i s = .next t ∧ pseudocode i s = .next { t with regs := r } ∧ (t.st = .idle → r = t.regs)

/-! ## The Memory Port -/

/-- 20_memory.md R52: every address is computed modulo 2^XLEN. -/
def Obligations.AddressesWrap : Prop :=
  ∀ (x : Xlen) (base : Addr) (off : Nat), (addrAt x base off).toNat = (base.toNat + off) % 2 ^ x.bits

/-- 20_memory.md R57, R75: the four bytes a word write stores and the four a word read is made of,
little-endian, addresses modulo 2^XLEN; a write changes no other byte location; and a word read back is the
word written. -/
def Obligations.WordsAreLittleEndian : Prop :=
  ∀ (x : Xlen) (m : Memory) (a : Addr) (v : Word), m.wf = true →
    (∀ t < 4, (m.writeWord x a v).read (addrAt x a t).toNat = v.extractLsb' (8 * t) 8) ∧
      (∀ loc, (∀ t < 4, loc ≠ (addrAt x a t).toNat) → (m.writeWord x a v).read loc = m.read loc) ∧
      (m.writeWord x a v).readWord x a = v ∧
      ∀ t < 4, (m.readWord x a).extractLsb' (8 * t) 8 = m.read (addrAt x a t).toNat

/-- 20_memory.md R56, R59: which accesses the reference memory grants. -/
def Obligations.AccessibleRule : Prop :=
  ∀ (s : State) (a : Addr) (n : Size) (k : Kind),
    s.accessible a n k = true ↔
      (∀ t < n.bytes, ∀ r ∈ s.denied,
          ¬(r.kind = k ∧ r.lo ≤ byteAddr s.params.xlen a t ∧ byteAddr s.params.xlen a t ≤ r.hi)) ∧
        (s.params.enforceAlign = true → n = .word → a.toNat % 4 = 0)

/-- 20_memory.md R59: with alignment enforced and a misaligned base, DMA and SORT (with `arrayLen` > 0) fault on
their first access and change no memory. -/
def Obligations.MisalignedBaseFaultsAtOnce : Prop :=
  ∀ (s : State) (base : Addr), s.Ready → s.params.enforceAlign = true → s.params.xlen.fits base = true →
    base.toNat % 4 ≠ 0 →
    (∀ dst g, invocation (.dma dst base g) s =
        .next (s.finished s.mem [failedCall base .read .word] (.addressFault base .read .word))) ∧
      ∀ len sortLen, s.params.xlen.fits len = true → len ≠ 0 →
        invocation (.sort base len sortLen) s =
          .next (s.finished s.mem [failedCall base .read .word] (.addressFault base .read .word))

/-- 20_memory.md R54, R55, R61, 60_exceptions.md R178: an access the port refuses, whatever the reason, transfers
nothing: memory is what the other actors left, the call of the row is logged without data, and the invocation ends
with AddressFault of that call. The refusal comes from the model's script (log 6). -/
def Obligations.RefusedAccessTransfersNothing : Prop :=
  ∀ (s : State) (moves : List Move) (later : List Turn) (c : Access), s.Inv → s.st = .run →
    s.regs.nextCall s.params.xlen = some c → s.env = { moves := moves, answer := .refuses } :: later →
    Move.reset ∉ moves →
    ∃ t, step s = .next t ∧ t.st = .idle ∧ t.mem = s.atCall.mem ∧
      t.calls = s.calls ++ [failedCall c.addr c.kind c.size] ∧
      t.responses = s.responses ++ [.addressFault c.addr c.kind c.size]

/-- 20_memory.md R66, R67: a read of any engine returns what memory held when it was made, and a write lands when it
is made, whatever the other actors did before that call. Their moves land between two calls because the model's
script puts them there (log 6). -/
def Obligations.ReadSeesOtherActorsWrite : Prop :=
  (∀ (s : State) (a : Addr) (v : Byte) (later : List Turn) (ans : Answer),
      s.env = { moves := [.write a v], answer := ans } :: later →
      s.atCall.mem = s.mem.write (addrAt s.params.xlen a 0).toNat v) ∧
    ∀ (s : State) (moves : List Move) (later : List Turn) (c : Access), s.Inv → s.st = .run →
      s.regs.nextCall s.params.xlen = some c → s.env = { moves := moves, answer := .byMap } :: later →
      Move.reset ∉ moves → s.atCall.accessible c.addr c.size c.kind = true →
      ∃ t, step s = .next t ∧ t.mem = Memory.replay s.params.xlen s.atCall.mem c ∧
        (c.kind = .read → t.st = .run ∧
          match s.regs.phase with
          | .rd => t.regs.buf = s.regs.buf ++ [s.atCall.mem.readWord s.params.xlen c.addr]
          | .r1 => t.regs.v1 = s.atCall.mem.read c.addr.toNat
          | .r2 => t.regs.v2 = s.atCall.mem.read c.addr.toNat
          | .r => t.regs.v1 = s.atCall.mem.read c.addr.toNat
          | _ => False)

/-! ## DMA -/

/-- 40_dma_transpose.md R101: the grain table, on the whole operand. -/
def Obligations.GrainTable : Prop :=
  grainDim 0 = 8 ∧ grainDim 1 = 16 ∧ grainDim 2 = 32 ∧
    ∀ c : Operand, c ≠ 0 → c ≠ 1 → c ≠ 2 → grainDim c = 8

/-- 40_dma_transpose.md R108, 10_state.md R24: accepting a DMA latches it, and its two rows, each with the
fault it can raise. The discarded registers are free values and the call log is the model's own field (log 5,
log 9). -/
def Obligations.DmaStepTable : Prop :=
  (∀ (s : State) (dst src : Addr) (g : Operand), s.st = .idle → (Instr.dma dst src g).wf s.params.xlen = true →
      ∃ r, exec (.dma dst src g) s = .next (s.start r) ∧ r.command = .dma dst src g ∧ r.n = grainDim g ∧
        r.phase = .rd ∧ r.idx = 0 ∧ r.buf = []) ∧
    ∀ (s : State) (dst src : Addr) (g : Operand), s.Inv → s.Undisturbed → s.regs.command = .dma dst src g →
      let x := s.params.xlen
      let r := s.regs
      (r.phase = .rd →
        let a := wordAddr x src r.idx
        let w := s.mem.readWord x a
        exec (.dma dst src g) s =
          if s.accessible a .word .read = true then
            .next { s with
              calls := s.calls ++ [{ kind := .read, size := .word, addr := a, data := some w }]
              regs :=
                if r.idx = r.n * r.n - 1 then { r with buf := r.buf ++ [w], phase := .wr, idx := 0 }
                else { r with buf := r.buf ++ [w], idx := r.idx + 1 } }
          else .next (s.finished s.mem [failedCall a .read .word] (.addressFault a .read .word))) ∧
        (r.phase = .wr →
          let a := wordAddr x dst r.idx
          let w := r.buf.getD (r.idx % r.n * r.n + r.idx / r.n) 0
          let c : Access := { kind := .write, size := .word, addr := a, data := some w }
          exec (.dma dst src g) s =
            if s.accessible a .word .write = true then
              .next
                (if r.idx = r.n * r.n - 1 then s.finished (s.mem.writeWord x a w) [c] .ok
                 else
                   { s with
                     mem := s.mem.writeWord x a w
                     calls := s.calls ++ [c]
                     regs := { r with idx := r.idx + 1 } })
            else .next (s.finished s.mem [failedCall a .write .word] (.addressFault a .write .word)))

/-- 40_dma_transpose.md R103, R104, R105, R107, R109: a DMA whose accesses are all granted, with no other actor,
makes exactly its closed-form access sequence and writes the transpose of the source as it was before the
command, whatever the overlap; the response is OK and nothing else of the state changes but the registers,
which are discarded. -/
def Obligations.DmaCompletes : Prop :=
  ∀ (s : State) (dst src : Addr) (g : Operand), s.Ready → (Instr.dma dst src g).wf s.params.xlen = true →
    let x := s.params.xlen
    let n := grainDim g
    s.wordsOpen .read src (n * n) → s.wordsOpen .write dst (n * n) →
    ∃ t, exec (.dma dst src g) s = .next t ∧ finish t =
      .next (s.finished (storeWords x s.mem dst (transposed x s.mem src n) (n * n))
        (wordCalls x .read src (wordAt x s.mem src) (n * n) ++
          wordCalls x .write dst (transposed x s.mem src n) (n * n))
        .ok)

/-- 40_dma_transpose.md R110 (with R105: the destination words need no premise on overlap): `dst[i][j]` is
`M[j][i]`; with disjoint regions the source is unchanged; no byte outside the destination is changed. -/
def Obligations.DmaTransposes : Prop :=
  ∀ (s : State) (dst src : Addr) (g : Operand), s.Ready → s.mem.wf = true →
    (Instr.dma dst src g).wf s.params.xlen = true →
    let x := s.params.xlen
    let n := grainDim g
    s.wordsOpen .read src (n * n) → s.wordsOpen .write dst (n * n) →
    ∃ t, invocation (.dma dst src g) s = .next t ∧ t.responses = s.responses ++ [.ok] ∧
      (∀ i < n, ∀ j < n, wordAt x t.mem dst (i * n + j) = wordAt x s.mem src (j * n + i)) ∧
      (Disjoint x dst (4 * (n * n)) src (4 * (n * n)) →
        ∀ k < n * n, wordAt x t.mem src k = wordAt x s.mem src k) ∧
      ∀ loc, ¬InRegion x dst (4 * (n * n)) loc → t.mem.read loc = s.mem.read loc

/-- 40_dma_transpose.md R111: transposing there and back restores the source matrix, and so does transposing
twice in place. -/
def Obligations.DmaTwiceRestores : Prop :=
  ∀ (s : State) (dst src : Addr) (g : Operand), s.Ready → s.mem.wf = true →
    (Instr.dma dst src g).wf s.params.xlen = true →
    let x := s.params.xlen
    let n := grainDim g
    s.wordsOpen .read src (n * n) → s.wordsOpen .write src (n * n) →
    s.wordsOpen .read dst (n * n) → s.wordsOpen .write dst (n * n) →
    (Disjoint x dst (4 * (n * n)) src (4 * (n * n)) →
      ∃ t u, invocation (.dma dst src g) s = .next t ∧ invocation (.dma src dst g) t = .next u ∧
        ∀ k < n * n, wordAt x u.mem src k = wordAt x s.mem src k) ∧
      ∃ t u, invocation (.dma src src g) s = .next t ∧ invocation (.dma src src g) t = .next u ∧
        ∀ k < n * n, wordAt x u.mem src k = wordAt x s.mem src k

/-- 40_dma_transpose.md R106: the access that faults first, in either phase. In the read phase memory is
unchanged; in the write phase exactly the words before the failing one hold their transposed values. -/
def Obligations.DmaFaultLeavesPrefix : Prop :=
  ∀ (s : State) (dst src : Addr) (g : Operand) (k : Nat), s.Ready →
    (Instr.dma dst src g).wf s.params.xlen = true →
    let x := s.params.xlen
    let n := grainDim g
    k < n * n →
    (s.wordsOpen .read src k → s.accessible (wordAddr x src k) .word .read = false →
      invocation (.dma dst src g) s =
        .next (s.finished s.mem
          (wordCalls x .read src (wordAt x s.mem src) k ++ [failedCall (wordAddr x src k) .read .word])
          (.addressFault (wordAddr x src k) .read .word))) ∧
      (s.wordsOpen .read src (n * n) → s.wordsOpen .write dst k →
        s.accessible (wordAddr x dst k) .word .write = false →
        invocation (.dma dst src g) s =
          .next (s.finished (storeWords x s.mem dst (transposed x s.mem src n) k)
            (wordCalls x .read src (wordAt x s.mem src) (n * n) ++
              wordCalls x .write dst (transposed x s.mem src n) k ++
              [failedCall (wordAddr x dst k) .write .word])
            (.addressFault (wordAddr x dst k) .write .word)))

/-- 40_dma_transpose.md R113, and the frame of DMA, faulting or not: no byte outside the 4*N*N bytes at `A`
changes, no word outside those at `B` is read, and of the rest of the state only the registers, which are
discarded, the call log and the response channel change. -/
def Obligations.DmaFrame : Prop :=
  ∀ (s t : State) (dst src : Addr) (g : Operand), s.Ready → invocation (.dma dst src g) s = .next t →
    let x := s.params.xlen
    let n := grainDim (latch x g)
    (∀ loc, (∀ k < n * n, ∀ b < 4, loc ≠ (addrAt x (wordAddr x (latch x dst) k) b).toNat) →
        t.mem.read loc = s.mem.read loc) ∧
      (∃ new, t.calls = s.calls ++ new ∧
        ∀ c ∈ new, c.kind = .read → ∃ k < n * n, c.addr = wordAddr x (latch x src) k) ∧
      t.st = .idle ∧ t.outstanding = false ∧ t.params = s.params ∧ t.denied = s.denied ∧ t.env = s.env ∧
      t.offered = s.offered ∧ t.regs = Config.leftover s.discards ∧ t.discards = s.discards + 1

/-! ## SORT -/

/-- 41_sort.md R123: the sorted sequence has the same multiset of values, is in non-decreasing unsigned order,
and is the only such sequence. -/
def Obligations.SortAscendingUnsigned : Prop :=
  ∀ ws : List Word,
    (sortAscU32 ws).Perm ws ∧ (sortAscU32 ws).Pairwise (fun a b => a.toNat ≤ b.toNat) ∧
      ∀ vs : List Word, vs.Perm ws → vs.Pairwise (fun a b => a.toNat ≤ b.toNat) → vs = sortAscU32 ws

/-- 41_sort.md R129, 10_state.md R24: accepting a SORT latches it, or responds OK at once where there is nothing to
do, and its three rows, each with the fault it can raise. The discarded registers are free values and the call
log is the model's own field (log 5, log 9). -/
def Obligations.SortStepTable : Prop :=
  (∀ (s : State) (addr : Addr) (len sortLen : Operand), s.st = .idle →
      (Instr.sort addr len sortLen).wf s.params.xlen = true →
      if len = 0 then exec (.sort addr len sortLen) s = .next (s.finished s.mem [] .ok)
      else
        ∃ r, exec (.sort addr len sortLen) s = .next (s.start r) ∧ r.command = .sort addr len sortLen ∧
          r.len = len.toNat ∧ r.eff = min sortLen.toNat len.toNat ∧ r.phase = .rd ∧ r.idx = 0 ∧ r.buf = []) ∧
    ∀ (s : State) (addr : Addr) (len sortLen : Operand), s.Inv → s.Undisturbed →
      s.regs.command = .sort addr len sortLen →
      let x := s.params.xlen
      let r := s.regs
      let a := wordAddr x addr r.idx
      (r.phase = .rd →
        let w := s.mem.readWord x a
        exec (.sort addr len sortLen) s =
          if s.accessible a .word .read = true then
            .next { s with
              calls := s.calls ++ [{ kind := .read, size := .word, addr := a, data := some w }]
              regs :=
                if r.idx = r.len - 1 then { r with buf := r.buf ++ [w], phase := .srt, idx := 0 }
                else { r with buf := r.buf ++ [w], idx := r.idx + 1 } }
          else .next (s.finished s.mem [failedCall a .read .word] (.addressFault a .read .word))) ∧
        (r.phase = .srt →
          exec (.sort addr len sortLen) s =
            .next { s with
              regs := { r with buf := sortAscU32 (r.buf.take r.eff) ++ r.buf.drop r.eff, phase := .wr } }) ∧
        (r.phase = .wr →
          let w := r.buf.getD r.idx 0
          let c : Access := { kind := .write, size := .word, addr := a, data := some w }
          exec (.sort addr len sortLen) s =
            if s.accessible a .word .write = true then
              .next
                (if r.idx = r.len - 1 then s.finished (s.mem.writeWord x a w) [c] .ok
                 else
                   { s with
                     mem := s.mem.writeWord x a w
                     calls := s.calls ++ [c]
                     regs := { r with idx := r.idx + 1 } })
            else .next (s.finished s.mem [failedCall a .write .word] (.addressFault a .write .word)))

/-- 41_sort.md R121, R122, R124, R125, R126: a SORT whose accesses are all granted, with no other actor, reads
all `arrayLen` words, sorts the first `min(sortLen, arrayLen)` of them and writes all of them back, in
increasing order, and responds OK; nothing else of the state changes but the registers, which are discarded.
With `arrayLen` = 0 it makes no access. -/
def Obligations.SortCompletes : Prop :=
  ∀ (s : State) (addr : Addr) (len sortLen : Operand), s.Ready →
    (Instr.sort addr len sortLen).wf s.params.xlen = true →
    let x := s.params.xlen
    let val := sortedWord x s.mem addr len.toNat (min sortLen.toNat len.toNat)
    s.wordsOpen .read addr len.toNat → s.wordsOpen .write addr len.toNat →
    ∃ t, exec (.sort addr len sortLen) s = .next t ∧ finish t =
      .next (s.finished (storeWords x s.mem addr val len.toNat)
        (wordCalls x .read addr (wordAt x s.mem addr) len.toNat ++ wordCalls x .write addr val len.toNat)
        .ok)

/-- 41_sort.md R130: with 4*L below 2^XLEN the tail is as it was, the first `min(S, L)` words are their former
multiset in ascending order, and no byte outside the array is changed. -/
def Obligations.SortLaw : Prop :=
  ∀ (s : State) (addr : Addr) (len sortLen : Operand), s.Ready → s.mem.wf = true →
    (Instr.sort addr len sortLen).wf s.params.xlen = true → 4 * len.toNat < 2 ^ s.params.xlen.bits →
    let x := s.params.xlen
    let e := min sortLen.toNat len.toNat
    s.wordsOpen .read addr len.toNat → s.wordsOpen .write addr len.toNat →
    ∃ t new, invocation (.sort addr len sortLen) s = .next t ∧ t.responses = s.responses ++ [.ok] ∧
      (wordsAt x t.mem addr len.toNat).drop e = (wordsAt x s.mem addr len.toNat).drop e ∧
      ((wordsAt x t.mem addr len.toNat).take e).Perm ((wordsAt x s.mem addr len.toNat).take e) ∧
      ((wordsAt x t.mem addr len.toNat).take e).Pairwise (fun a b => a.toNat ≤ b.toNat) ∧
      (∀ loc, ¬InRegion x addr (4 * len.toNat) loc → t.mem.read loc = s.mem.read loc) ∧
      t.calls = s.calls ++ new ∧ ∀ c ∈ new, ∃ k < len.toNat, c.addr = wordAddr x addr k

/-- 41_sort.md R131, with the premises of R130: running the same SORT again changes no byte. -/
def Obligations.SortTwiceIsSortOnce : Prop :=
  ∀ (s : State) (addr : Addr) (len sortLen : Operand), s.Ready → s.mem.wf = true →
    (Instr.sort addr len sortLen).wf s.params.xlen = true → 4 * len.toNat < 2 ^ s.params.xlen.bits →
    s.wordsOpen .read addr len.toNat → s.wordsOpen .write addr len.toNat →
    ∃ t u, invocation (.sort addr len sortLen) s = .next t ∧ invocation (.sort addr len sortLen) t = .next u ∧
      u.responses = s.responses ++ [.ok, .ok] ∧ u.calls.length = t.calls.length + 2 * len.toNat ∧
      ∀ loc, u.mem.read loc = t.mem.read loc

/-- 41_sort.md R122, R131: `sortLen` above `arrayLen` is clamped, never an error: the outcome is that of
`sortLen` = `arrayLen`, in every state in which the command is accepted (where a Memory Port call does not return,
the latch `C` alone tells the two apart). -/
def Obligations.SortLenIsClamped : Prop :=
  ∀ (s : State) (addr : Addr) (len sortLen : Operand), s.st = .idle →
    s.params.xlen.fits len = true → s.params.xlen.fits sortLen = true → len.toNat ≤ sortLen.toNat →
    ∃ t u, invocation (.sort addr len sortLen) s = .next t ∧ invocation (.sort addr len len) s = .next u ∧
      t = { u with regs := { u.regs with c := t.regs.c } } ∧ (t.st = .idle → t = u)

/-- 41_sort.md R128: `arrayLen` = 0 makes no access and responds OK, whatever `addr`, `sortLen` and the port
are; with `arrayLen` > 0 the addresses of the accesses made do not depend on `sortLen` or on the data. -/
def Obligations.SortEmptyArray : Prop :=
  (∀ (s : State) (addr sortLen : Operand), s.st = .idle →
      invocation (.sort addr 0 sortLen) s = .next (s.finished s.mem [] .ok)) ∧
    ∀ (s : State) (addr len sortLen : Operand), s.Ready →
      (Instr.sort addr len sortLen).wf s.params.xlen = true →
      s.wordsOpen .read addr len.toNat → s.wordsOpen .write addr len.toNat →
      ∃ t new, invocation (.sort addr len sortLen) s = .next t ∧ t.calls = s.calls ++ new ∧
        new.length = 2 * len.toNat ∧
        new.map (fun c => (c.kind, c.addr)) =
          (List.range len.toNat).map (fun k => (Kind.read, wordAddr s.params.xlen addr k)) ++
            (List.range len.toNat).map (fun k => (Kind.write, wordAddr s.params.xlen addr k))

/-- 41_sort.md R127: the access that faults first, in either phase. In the read phase memory is unchanged; in
the write phase exactly the words before the failing one hold their final values. -/
def Obligations.SortFaultLeavesPrefix : Prop :=
  ∀ (s : State) (addr : Addr) (len sortLen : Operand) (k : Nat), s.Ready →
    (Instr.sort addr len sortLen).wf s.params.xlen = true →
    let x := s.params.xlen
    let val := sortedWord x s.mem addr len.toNat (min sortLen.toNat len.toNat)
    k < len.toNat →
    (s.wordsOpen .read addr k → s.accessible (wordAddr x addr k) .word .read = false →
      invocation (.sort addr len sortLen) s =
        .next (s.finished s.mem
          (wordCalls x .read addr (wordAt x s.mem addr) k ++ [failedCall (wordAddr x addr k) .read .word])
          (.addressFault (wordAddr x addr k) .read .word))) ∧
      (s.wordsOpen .read addr len.toNat → s.wordsOpen .write addr k →
        s.accessible (wordAddr x addr k) .word .write = false →
        invocation (.sort addr len sortLen) s =
          .next (s.finished (storeWords x s.mem addr val k)
            (wordCalls x .read addr (wordAt x s.mem addr) len.toNat ++ wordCalls x .write addr val k ++
              [failedCall (wordAddr x addr k) .write .word])
            (.addressFault (wordAddr x addr k) .write .word)))

/-- 41_sort.md R125 and the frame of SORT, faulting or not: no byte outside the words of the array changes, and
of the rest of the state only the registers, which are discarded, the call log and the response channel
change. -/
def Obligations.SortFrame : Prop :=
  ∀ (s t : State) (addr : Addr) (len sortLen : Operand), s.Ready → invocation (.sort addr len sortLen) s = .next t →
    let x := s.params.xlen
    (∀ loc, (∀ k < (latch x len).toNat, ∀ b < 4, loc ≠ (addrAt x (wordAddr x (latch x addr) k) b).toNat) →
        t.mem.read loc = s.mem.read loc) ∧
      t.st = .idle ∧ t.outstanding = false ∧ t.params = s.params ∧ t.denied = s.denied ∧ t.env = s.env ∧
      t.offered = s.offered ∧ t.regs = Config.leftover s.discards ∧ t.discards = s.discards + 1

/-! ## CRUSH -/

/-- 42_crush.md R143, 43_expand.md R158: the packed byte has the low nibble of the pair's first byte in bits 3:0
and that of its second in bits 7:4; unpacking gives the two nibbles, each a whole byte with bits 7:4 clear. -/
def Obligations.NibblesPackAndSplit : Prop :=
  ∀ v1 v2 v : Byte,
    packNibbles v1 v2 = ((v2 &&& 0x0F#8) <<< 4) ||| (v1 &&& 0x0F#8) ∧
      (packNibbles v1 v2).extractLsb' 0 4 = v1.extractLsb' 0 4 ∧
      (packNibbles v1 v2).extractLsb' 4 4 = v2.extractLsb' 0 4 ∧
      lowNibble v = v &&& 0x0F#8 ∧ highNibble v = (v >>> 4) &&& 0x0F#8 ∧
      (lowNibble v).toNat = v.toNat % 16 ∧ (highNibble v).toNat = v.toNat / 16

/-- 42_crush.md R147, 10_state.md R24: accepting a CRUSH latches it, or responds OK at once where there is nothing to
do, and its three rows, each with the fault it can raise. The discarded registers are free values and the call
log is the model's own field (log 5, log 9). -/
def Obligations.CrushStepTable : Prop :=
  (∀ (s : State) (dst src : Addr) (count : Operand), s.st = .idle →
      (Instr.crush dst src count).wf s.params.xlen = true →
      if count >>> 1 = 0 then exec (.crush dst src count) s = .next (s.finished s.mem [] .ok)
      else
        ∃ r, exec (.crush dst src count) s = .next (s.start r) ∧ r.command = .crush dst src count ∧
          r.iter = (count >>> 1).toNat ∧ r.phase = .r1 ∧ r.idx = 0) ∧
    ∀ (s : State) (dst src : Addr) (count : Operand), s.Inv → s.Undisturbed →
      s.regs.command = .crush dst src count →
      let x := s.params.xlen
      let r := s.regs
      (r.phase = .r1 →
        let a := addrAt x src (2 * r.idx)
        let v := byteAt x s.mem src (2 * r.idx)
        exec (.crush dst src count) s =
          if s.accessible a .byte .read = true then
            .next { s with
              calls := s.calls ++ [byteCall x .read src (2 * r.idx) v]
              regs := { r with v1 := v, phase := .r2 } }
          else .next (s.finished s.mem [failedCall a .read .byte] (.addressFault a .read .byte))) ∧
        (r.phase = .r2 →
          let a := addrAt x src (2 * r.idx + 1)
          let v := byteAt x s.mem src (2 * r.idx + 1)
          exec (.crush dst src count) s =
            if s.accessible a .byte .read = true then
              .next { s with
                calls := s.calls ++ [byteCall x .read src (2 * r.idx + 1) v]
                regs := { r with v2 := v, phase := .w } }
            else .next (s.finished s.mem [failedCall a .read .byte] (.addressFault a .read .byte))) ∧
        (r.phase = .w →
          let a := addrAt x dst r.idx
          let p := ((r.v2 &&& 0x0F#8) <<< 4) ||| (r.v1 &&& 0x0F#8)
          exec (.crush dst src count) s =
            if s.accessible a .byte .write = true then
              .next
                (if r.idx = r.iter - 1 then s.finished (s.mem.write a.toNat p) [byteCall x .write dst r.idx p] .ok
                 else
                   { s with
                     mem := s.mem.write a.toNat p
                     calls := s.calls ++ [byteCall x .write dst r.idx p]
                     regs := { r with idx := r.idx + 1, phase := .r1 } })
            else .next (s.finished s.mem [failedCall a .write .byte] (.addressFault a .write .byte)))

/-- 42_crush.md R141, R142, R143, R145: a CRUSH whose accesses are all granted, with no other actor, makes its
three accesses an iteration in order, each iteration reading what the earlier ones left, and responds OK;
nothing else of the state changes but the registers, which are discarded. -/
def Obligations.CrushCompletes : Prop :=
  ∀ (s : State) (dst src : Addr) (count : Operand), s.Ready →
    (Instr.crush dst src count).wf s.params.xlen = true →
    let x := s.params.xlen
    let n := count.toNat / 2
    s.bytesOpen .read src (2 * n) → s.bytesOpen .write dst n →
    ∃ t, exec (.crush dst src count) s = .next t ∧ finish t =
      .next (s.finished (crushMem x s.mem dst src n) (crushCalls x s.mem dst src n) .ok)

/-- 42_crush.md R148: with disjoint regions, the packed bytes of the source as it was; the source is unchanged,
no byte outside the destination is changed and no byte outside the pairs is read. -/
def Obligations.CrushLaw : Prop :=
  ∀ (s : State) (dst src : Addr) (count : Operand), s.Ready → s.mem.wf = true →
    (Instr.crush dst src count).wf s.params.xlen = true →
    let x := s.params.xlen
    let n := count.toNat / 2
    s.bytesOpen .read src (2 * n) → s.bytesOpen .write dst n → Disjoint x dst n src (2 * n) →
    ∃ t new, invocation (.crush dst src count) s = .next t ∧ t.responses = s.responses ++ [.ok] ∧
      (∀ i < n, byteAt x t.mem dst i =
        ((byteAt x s.mem src (2 * i + 1) &&& 0x0F#8) <<< 4) ||| (byteAt x s.mem src (2 * i) &&& 0x0F#8)) ∧
      (∀ k < 2 * n, byteAt x t.mem src k = byteAt x s.mem src k) ∧
      (∀ loc, ¬InRegion x dst n loc → t.mem.read loc = s.mem.read loc) ∧
      t.calls = s.calls ++ new ∧ ∀ c ∈ new, c.kind = .read → ∃ k < 2 * n, c.addr = addrAt x src k

/-- 42_crush.md R141, R144: the trailing byte of an odd count is not read: the outcome is that of the even count
below it, whatever the port would say of that byte (where a Memory Port call does not return, the latch `C` alone
tells the two apart); with `count` < 2 no access is made. -/
def Obligations.CrushOddCount : Prop :=
  (∀ (s : State) (dst src : Addr) (k : Nat), s.st = .idle → 2 * k + 1 < 2 ^ s.params.xlen.bits →
      ∃ t u, invocation (.crush dst src (BitVec.ofNat 64 (2 * k + 1))) s = .next t ∧
        invocation (.crush dst src (BitVec.ofNat 64 (2 * k))) s = .next u ∧
        t = { u with regs := { u.regs with c := t.regs.c } } ∧ (t.st = .idle → t = u)) ∧
    ∀ (s : State) (dst src : Addr) (count : Operand), s.st = .idle → count.toNat < 2 →
      invocation (.crush dst src count) s = .next (s.finished s.mem [] .ok)

/-- 42_crush.md R145: packing in place gives the packed bytes of the source as it was. -/
def Obligations.CrushInPlace : Prop :=
  ∀ (s : State) (a : Addr) (count : Operand), s.Ready → s.mem.wf = true →
    (Instr.crush a a count).wf s.params.xlen = true →
    let x := s.params.xlen
    let n := count.toNat / 2
    s.bytesOpen .read a (2 * n) → s.bytesOpen .write a n →
    ∃ t, invocation (.crush a a count) s = .next t ∧ ∀ i < n, byteAt x t.mem a i = crushByte x s.mem a i

/-- 42_crush.md R146: the access that faults first, whichever of the three of iteration `i` it is; the packed
bytes of the iterations before `i` are written and nothing else is. -/
def Obligations.CrushFaultLeavesPrefix : Prop :=
  ∀ (s : State) (dst src : Addr) (count : Operand) (i : Nat), s.Ready →
    (Instr.crush dst src count).wf s.params.xlen = true →
    let x := s.params.xlen
    let m := crushMem x s.mem dst src i
    let before := crushCalls x s.mem dst src i
    let a1 := addrAt x src (2 * i)
    let a2 := addrAt x src (2 * i + 1)
    let aw := addrAt x dst i
    i < count.toNat / 2 → s.bytesOpen .read src (2 * i) → s.bytesOpen .write dst i →
    (s.accessible a1 .byte .read = false →
      invocation (.crush dst src count) s =
        .next (s.finished m (before ++ [failedCall a1 .read .byte]) (.addressFault a1 .read .byte))) ∧
      (s.accessible a1 .byte .read = true → s.accessible a2 .byte .read = false →
        invocation (.crush dst src count) s =
          .next (s.finished m
            (before ++ [byteCall x .read src (2 * i) (byteAt x m src (2 * i)), failedCall a2 .read .byte])
            (.addressFault a2 .read .byte))) ∧
      (s.accessible a1 .byte .read = true → s.accessible a2 .byte .read = true →
        s.accessible aw .byte .write = false →
        invocation (.crush dst src count) s =
          .next (s.finished m
            (before ++
              [byteCall x .read src (2 * i) (byteAt x m src (2 * i)),
               byteCall x .read src (2 * i + 1) (byteAt x m src (2 * i + 1)),
               failedCall aw .write .byte])
            (.addressFault aw .write .byte)))

/-- 42_crush.md R142 and the frame of CRUSH, faulting or not: no byte but those at `A + i`, `i < ITER`, changes,
and of the rest of the state only the registers, which are discarded, the call log and the response channel
change. -/
def Obligations.CrushFrame : Prop :=
  ∀ (s t : State) (dst src : Addr) (count : Operand), s.Ready → invocation (.crush dst src count) s = .next t →
    let x := s.params.xlen
    (∀ loc, (∀ i < pairCount (latch x count), loc ≠ (addrAt x (latch x dst) i).toNat) →
        t.mem.read loc = s.mem.read loc) ∧
      t.st = .idle ∧ t.outstanding = false ∧ t.params = s.params ∧ t.denied = s.denied ∧ t.env = s.env ∧
      t.offered = s.offered ∧ t.regs = Config.leftover s.discards ∧ t.discards = s.discards + 1

/-! ## EXPAND -/

/-- 43_expand.md R162, 10_state.md R24: accepting an EXPAND latches it, or responds OK at once where there is nothing
to do, and its three rows, each with the fault it can raise. The discarded registers are free values and the call
log is the model's own field (log 5, log 9). -/
def Obligations.ExpandStepTable : Prop :=
  (∀ (s : State) (dst src : Addr) (count : Operand), s.st = .idle →
      (Instr.expand dst src count).wf s.params.xlen = true →
      if count = 0 then exec (.expand dst src count) s = .next (s.finished s.mem [] .ok)
      else
        ∃ r, exec (.expand dst src count) s = .next (s.start r) ∧ r.command = .expand dst src count ∧
          r.iter = count.toNat ∧ r.phase = .r ∧ r.idx = 0) ∧
    ∀ (s : State) (dst src : Addr) (count : Operand), s.Inv → s.Undisturbed →
      s.regs.command = .expand dst src count →
      let x := s.params.xlen
      let r := s.regs
      (r.phase = .r →
        let a := addrAt x src r.idx
        let v := byteAt x s.mem src r.idx
        exec (.expand dst src count) s =
          if s.accessible a .byte .read = true then
            .next { s with
              calls := s.calls ++ [byteCall x .read src r.idx v]
              regs := { r with v1 := v, phase := .wl } }
          else .next (s.finished s.mem [failedCall a .read .byte] (.addressFault a .read .byte))) ∧
        (r.phase = .wl →
          let a := addrAt x dst (2 * r.idx)
          let v := r.v1 &&& 0x0F#8
          exec (.expand dst src count) s =
            if s.accessible a .byte .write = true then
              .next { s with
                mem := s.mem.write a.toNat v
                calls := s.calls ++ [byteCall x .write dst (2 * r.idx) v]
                regs := { r with phase := .wh } }
            else .next (s.finished s.mem [failedCall a .write .byte] (.addressFault a .write .byte))) ∧
        (r.phase = .wh →
          let a := addrAt x dst (2 * r.idx + 1)
          let v := (r.v1 >>> 4) &&& 0x0F#8
          let c := byteCall x .write dst (2 * r.idx + 1) v
          exec (.expand dst src count) s =
            if s.accessible a .byte .write = true then
              .next
                (if r.idx = r.iter - 1 then s.finished (s.mem.write a.toNat v) [c] .ok
                 else
                   { s with
                     mem := s.mem.write a.toNat v
                     calls := s.calls ++ [c]
                     regs := { r with idx := r.idx + 1, phase := .r } })
            else .next (s.finished s.mem [failedCall a .write .byte] (.addressFault a .write .byte)))

/-- 43_expand.md R156, R157, R158, R159: an EXPAND whose accesses are all granted, with no other actor, makes its
three accesses an iteration in order, each iteration reading what the earlier ones left, and responds OK;
nothing else of the state changes but the registers, which are discarded. -/
def Obligations.ExpandCompletes : Prop :=
  ∀ (s : State) (dst src : Addr) (count : Operand), s.Ready →
    (Instr.expand dst src count).wf s.params.xlen = true →
    let x := s.params.xlen
    let n := count.toNat
    s.bytesOpen .read src n → s.bytesOpen .write dst (2 * n) →
    ∃ t, exec (.expand dst src count) s = .next t ∧ finish t =
      .next (s.finished (expandMem x s.mem dst src n) (expandCalls x s.mem dst src n) .ok)

/-- 43_expand.md R161: with disjoint regions that do not wrap onto themselves, the nibbles of the source as it
was; the source is unchanged, no byte outside the destination is changed and no byte outside the source is
read. -/
def Obligations.ExpandLaw : Prop :=
  ∀ (s : State) (dst src : Addr) (count : Operand), s.Ready → s.mem.wf = true →
    (Instr.expand dst src count).wf s.params.xlen = true →
    let x := s.params.xlen
    let n := count.toNat
    2 * n ≤ 2 ^ x.bits → s.bytesOpen .read src n → s.bytesOpen .write dst (2 * n) →
    Disjoint x dst (2 * n) src n →
    ∃ t new, invocation (.expand dst src count) s = .next t ∧ t.responses = s.responses ++ [.ok] ∧
      (∀ i < n, byteAt x t.mem dst (2 * i) = byteAt x s.mem src i &&& 0x0F#8 ∧
        byteAt x t.mem dst (2 * i + 1) = (byteAt x s.mem src i >>> 4) &&& 0x0F#8) ∧
      (∀ k < n, byteAt x t.mem src k = byteAt x s.mem src k) ∧
      (∀ loc, ¬InRegion x dst (2 * n) loc → t.mem.read loc = s.mem.read loc) ∧
      t.calls = s.calls ++ new ∧ ∀ c ∈ new, c.kind = .read → ∃ k < n, c.addr = addrAt x src k

/-- 43_expand.md R160: the access that faults first, whichever of the three of iteration `i` it is; a fault on
the high nibble leaves the low nibble of that byte written. -/
def Obligations.ExpandFaultLeavesPrefix : Prop :=
  ∀ (s : State) (dst src : Addr) (count : Operand) (i : Nat), s.Ready →
    (Instr.expand dst src count).wf s.params.xlen = true →
    let x := s.params.xlen
    let m := expandMem x s.mem dst src i
    let before := expandCalls x s.mem dst src i
    let v := byteAt x m src i
    let ar := addrAt x src i
    let al := addrAt x dst (2 * i)
    let ah := addrAt x dst (2 * i + 1)
    i < count.toNat → s.bytesOpen .read src i → s.bytesOpen .write dst (2 * i) →
    (s.accessible ar .byte .read = false →
      invocation (.expand dst src count) s =
        .next (s.finished m (before ++ [failedCall ar .read .byte]) (.addressFault ar .read .byte))) ∧
      (s.accessible ar .byte .read = true → s.accessible al .byte .write = false →
        invocation (.expand dst src count) s =
          .next (s.finished m (before ++ [byteCall x .read src i v, failedCall al .write .byte])
            (.addressFault al .write .byte))) ∧
      (s.accessible ar .byte .read = true → s.accessible al .byte .write = true →
        s.accessible ah .byte .write = false →
        invocation (.expand dst src count) s =
          .next (s.finished (expandLow x m dst src i)
            (before ++
              [byteCall x .read src i v, byteCall x .write dst (2 * i) (lowNibble v), failedCall ah .write .byte])
            (.addressFault ah .write .byte)))

/-- 43_expand.md R157 and the frame of EXPAND, faulting or not: no byte but those at `A + 2*i` and `A + 2*i + 1`,
`i < ITER`, changes, and of the rest of the state only the registers, which are discarded, the call log and
the response channel change. -/
def Obligations.ExpandFrame : Prop :=
  ∀ (s t : State) (dst src : Addr) (count : Operand), s.Ready → invocation (.expand dst src count) s = .next t →
    let x := s.params.xlen
    (∀ loc, (∀ i < 2 * (latch x count).toNat, loc ≠ (addrAt x (latch x dst) i).toNat) →
        t.mem.read loc = s.mem.read loc) ∧
      t.st = .idle ∧ t.outstanding = false ∧ t.params = s.params ∧ t.denied = s.denied ∧ t.env = s.env ∧
      t.offered = s.offered ∧ t.regs = Config.leftover s.discards ∧ t.discards = s.discards + 1

/-! ## CRUSH and EXPAND together -/

/-- 43_expand.md R163: CRUSH of `n` bytes then EXPAND of `floor(n/2)` keeps exactly the low nibbles of the first
`2*floor(n/2)` bytes; where `n` is even and the bytes are at most 0x0F, that is the source itself. -/
def Obligations.CrushThenExpandKeepsLowNibbles : Prop :=
  ∀ (s : State) (p src y : Addr) (n : Operand), s.Ready → s.mem.wf = true →
    (Instr.crush p src n).wf s.params.xlen = true → s.params.xlen.fits y = true →
    let x := s.params.xlen
    let h := n.toNat / 2
    s.bytesOpen .read src (2 * h) → s.bytesOpen .write p h → s.bytesOpen .read p h →
    s.bytesOpen .write y (2 * h) → Disjoint x p h src n.toNat → Disjoint x y (2 * h) p h →
    Disjoint x y (2 * h) src n.toNat →
    ∃ t u, invocation (.crush p src n) s = .next t ∧ invocation (.expand y p (BitVec.ofNat 64 h)) t = .next u ∧
      (∀ k < 2 * h, byteAt x u.mem y k = byteAt x s.mem src k &&& 0x0F#8) ∧
      (n.toNat % 2 = 0 → (∀ k < n.toNat, (byteAt x s.mem src k).toNat ≤ 0x0F) →
        ∀ k < n.toNat, byteAt x u.mem y k = byteAt x s.mem src k)

/-- 43_expand.md R164: EXPAND of `n` bytes then CRUSH of `2*n` gives back every byte whole. -/
def Obligations.ExpandThenCrushLosesNothing : Prop :=
  ∀ (s : State) (y z w : Addr) (n : Operand), s.Ready → s.mem.wf = true →
    (Instr.expand y z n).wf s.params.xlen = true → s.params.xlen.fits w = true →
    let x := s.params.xlen
    2 * n.toNat < 2 ^ x.bits → s.bytesOpen .read z n.toNat → s.bytesOpen .write y (2 * n.toNat) →
    s.bytesOpen .read y (2 * n.toNat) → s.bytesOpen .write w n.toNat →
    Disjoint x y (2 * n.toNat) z n.toNat → Disjoint x w n.toNat y (2 * n.toNat) →
    Disjoint x w n.toNat z n.toNat →
    ∃ t u, invocation (.expand y z n) s = .next t ∧
      invocation (.crush w y (BitVec.ofNat 64 (2 * n.toNat))) t = .next u ∧
      ∀ i < n.toNat, byteAt x u.mem w i = byteAt x s.mem z i
end

