-- ==== Sys2Proof/Laws/Encoding.lean ====
section
/-! SUPPORT. The fields of a command word as numbers: what the proofs about `encode` and `decode` cite in place
of arithmetic on 194-bit numerals. -/

namespace Sys2Proof

/-- A command word is below 2^194 at both widths. -/
theorem four_mul_size_cubed_le (x : Xlen) : 4 * (x.size * (x.size * x.size)) ≤ 2 ^ 194 := by
  cases x <;> decide

/-- The sum of 30_encoding.md R85, its fields nested. -/
theorem fields_nested (x : Xlen) (op a b c : Nat) :
    op + a * 2 ^ 2 + b * 2 ^ (x.bits + 2) + c * 2 ^ (2 * x.bits + 2) =
      op + 4 * (a + x.size * (b + x.size * c)) := by
  simp only [Xlen.size]
  ring

/-- Nested fields, each below its bound, are read back by division and remainder. -/
theorem fields_split {S op a b c : Nat} (ho : op < 4) (ha : a < S) (hb : b < S) (hc : c < S) :
    (op + 4 * (a + S * (b + S * c))) % 4 = op ∧ (op + 4 * (a + S * (b + S * c))) / 4 % S = a ∧
      (op + 4 * (a + S * (b + S * c))) / (4 * S) % S = b ∧
      (op + 4 * (a + S * (b + S * c))) / (4 * S * S) % S = c := by
  have hS : 0 < S := by omega
  have h1 : (op + 4 * (a + S * (b + S * c))) / 4 = a + S * (b + S * c) := by omega
  have h2 : (a + S * (b + S * c)) / S = b + S * c := by
    rw [Nat.add_mul_div_left _ _ hS, Nat.div_eq_of_lt ha, Nat.zero_add]
  have h3 : (b + S * c) / S = c := by
    rw [Nat.add_mul_div_left _ _ hS, Nat.div_eq_of_lt hb, Nat.zero_add]
  refine ⟨by omega, ?_, ?_, ?_⟩
  · rw [h1, Nat.add_mul_mod_self_left, Nat.mod_eq_of_lt ha]
  · rw [← Nat.div_div_eq_div_mul, h1, h2, Nat.add_mul_mod_self_left, Nat.mod_eq_of_lt hb]
  · rw [← Nat.div_div_eq_div_mul, ← Nat.div_div_eq_div_mul, h1, h2, h3, Nat.mod_eq_of_lt hc]

/-- Nested fields, each below its bound, stay below the product of the bounds. -/
theorem fields_bound {S op a b c : Nat} (ho : op < 4) (ha : a < S) (hb : b < S) (hc : c < S) :
    op + 4 * (a + S * (b + S * c)) < 4 * (S * (S * S)) := by
  have h1 : b + S * c < S * S := by nlinarith
  have h2 : a + S * (b + S * c) < S * (S * S) := by nlinarith
  omega

/-- An operand field as a number. -/
theorem operandField_toNat (x : Xlen) (w : Cmd) (k : Nat) :
    (operandField x w k).toNat = w.toNat / 2 ^ (k * x.bits + 2) % x.size := by
  have h : x.size ≤ 2 ^ 64 := by cases x <;> decide
  simp only [operandField, BitVec.toNat_setWidth, BitVec.extractLsb'_toNat, Nat.shiftRight_eq_div_pow]
  exact Nat.mod_eq_of_lt (lt_of_lt_of_le (Nat.mod_lt _ (Nat.two_pow_pos _)) h)

end Sys2Proof
end

