-- ==== Sys2Proof/Laws/State.lean ====
section
/-! SUPPORT. One lemma for each field and each update of State: no later proof unfolds an update. -/

namespace Sys2Proof.Machine

variable (s : State)

@[simp] theorem State.setRegs_params (r : Regs) : (s.setRegs r).params = s.params := rfl
@[simp] theorem State.setRegs_st (r : Regs) : (s.setRegs r).st = s.st := rfl
@[simp] theorem State.setRegs_regs (r : Regs) : (s.setRegs r).regs = r := rfl
@[simp] theorem State.setRegs_mem (r : Regs) : (s.setRegs r).mem = s.mem := rfl
@[simp] theorem State.setRegs_outstanding (r : Regs) : (s.setRegs r).outstanding = s.outstanding := rfl
@[simp] theorem State.setRegs_denied (r : Regs) : (s.setRegs r).denied = s.denied := rfl
@[simp] theorem State.setRegs_env (r : Regs) : (s.setRegs r).env = s.env := rfl
@[simp] theorem State.setRegs_offered (r : Regs) : (s.setRegs r).offered = s.offered := rfl
@[simp] theorem State.setRegs_responses (r : Regs) : (s.setRegs r).responses = s.responses := rfl
@[simp] theorem State.setRegs_calls (r : Regs) : (s.setRegs r).calls = s.calls := rfl
@[simp] theorem State.setRegs_discards (r : Regs) : (s.setRegs r).discards = s.discards := rfl

@[simp] theorem State.setMem_params (m : Memory) : (s.setMem m).params = s.params := rfl
@[simp] theorem State.setMem_st (m : Memory) : (s.setMem m).st = s.st := rfl
@[simp] theorem State.setMem_regs (m : Memory) : (s.setMem m).regs = s.regs := rfl
@[simp] theorem State.setMem_mem (m : Memory) : (s.setMem m).mem = m := rfl
@[simp] theorem State.setMem_outstanding (m : Memory) : (s.setMem m).outstanding = s.outstanding := rfl
@[simp] theorem State.setMem_denied (m : Memory) : (s.setMem m).denied = s.denied := rfl
@[simp] theorem State.setMem_env (m : Memory) : (s.setMem m).env = s.env := rfl
@[simp] theorem State.setMem_offered (m : Memory) : (s.setMem m).offered = s.offered := rfl
@[simp] theorem State.setMem_responses (m : Memory) : (s.setMem m).responses = s.responses := rfl
@[simp] theorem State.setMem_calls (m : Memory) : (s.setMem m).calls = s.calls := rfl
@[simp] theorem State.setMem_discards (m : Memory) : (s.setMem m).discards = s.discards := rfl

@[simp] theorem State.setDenied_params (d : List Region) : (s.setDenied d).params = s.params := rfl
@[simp] theorem State.setDenied_st (d : List Region) : (s.setDenied d).st = s.st := rfl
@[simp] theorem State.setDenied_regs (d : List Region) : (s.setDenied d).regs = s.regs := rfl
@[simp] theorem State.setDenied_mem (d : List Region) : (s.setDenied d).mem = s.mem := rfl
@[simp] theorem State.setDenied_outstanding (d : List Region) : (s.setDenied d).outstanding = s.outstanding := rfl
@[simp] theorem State.setDenied_denied (d : List Region) : (s.setDenied d).denied = d := rfl
@[simp] theorem State.setDenied_env (d : List Region) : (s.setDenied d).env = s.env := rfl
@[simp] theorem State.setDenied_offered (d : List Region) : (s.setDenied d).offered = s.offered := rfl
@[simp] theorem State.setDenied_responses (d : List Region) : (s.setDenied d).responses = s.responses := rfl
@[simp] theorem State.setDenied_calls (d : List Region) : (s.setDenied d).calls = s.calls := rfl
@[simp] theorem State.setDenied_discards (d : List Region) : (s.setDenied d).discards = s.discards := rfl

@[simp] theorem State.setEnv_params (e : List Turn) : (s.setEnv e).params = s.params := rfl
@[simp] theorem State.setEnv_st (e : List Turn) : (s.setEnv e).st = s.st := rfl
@[simp] theorem State.setEnv_regs (e : List Turn) : (s.setEnv e).regs = s.regs := rfl
@[simp] theorem State.setEnv_mem (e : List Turn) : (s.setEnv e).mem = s.mem := rfl
@[simp] theorem State.setEnv_outstanding (e : List Turn) : (s.setEnv e).outstanding = s.outstanding := rfl
@[simp] theorem State.setEnv_denied (e : List Turn) : (s.setEnv e).denied = s.denied := rfl
@[simp] theorem State.setEnv_env (e : List Turn) : (s.setEnv e).env = e := rfl
@[simp] theorem State.setEnv_offered (e : List Turn) : (s.setEnv e).offered = s.offered := rfl
@[simp] theorem State.setEnv_responses (e : List Turn) : (s.setEnv e).responses = s.responses := rfl
@[simp] theorem State.setEnv_calls (e : List Turn) : (s.setEnv e).calls = s.calls := rfl
@[simp] theorem State.setEnv_discards (e : List Turn) : (s.setEnv e).discards = s.discards := rfl

@[simp] theorem State.setOffered_params (o : List Cmd) : (s.setOffered o).params = s.params := rfl
@[simp] theorem State.setOffered_st (o : List Cmd) : (s.setOffered o).st = s.st := rfl
@[simp] theorem State.setOffered_regs (o : List Cmd) : (s.setOffered o).regs = s.regs := rfl
@[simp] theorem State.setOffered_mem (o : List Cmd) : (s.setOffered o).mem = s.mem := rfl
@[simp] theorem State.setOffered_outstanding (o : List Cmd) : (s.setOffered o).outstanding = s.outstanding := rfl
@[simp] theorem State.setOffered_denied (o : List Cmd) : (s.setOffered o).denied = s.denied := rfl
@[simp] theorem State.setOffered_env (o : List Cmd) : (s.setOffered o).env = s.env := rfl
@[simp] theorem State.setOffered_offered (o : List Cmd) : (s.setOffered o).offered = o := rfl
@[simp] theorem State.setOffered_responses (o : List Cmd) : (s.setOffered o).responses = s.responses := rfl
@[simp] theorem State.setOffered_calls (o : List Cmd) : (s.setOffered o).calls = s.calls := rfl
@[simp] theorem State.setOffered_discards (o : List Cmd) : (s.setOffered o).discards = s.discards := rfl

@[simp] theorem State.setOutstanding_params (b : Bool) : (s.setOutstanding b).params = s.params := rfl
@[simp] theorem State.setOutstanding_st (b : Bool) : (s.setOutstanding b).st = s.st := rfl
@[simp] theorem State.setOutstanding_regs (b : Bool) : (s.setOutstanding b).regs = s.regs := rfl
@[simp] theorem State.setOutstanding_mem (b : Bool) : (s.setOutstanding b).mem = s.mem := rfl
@[simp] theorem State.setOutstanding_outstanding (b : Bool) : (s.setOutstanding b).outstanding = b := rfl
@[simp] theorem State.setOutstanding_denied (b : Bool) : (s.setOutstanding b).denied = s.denied := rfl
@[simp] theorem State.setOutstanding_env (b : Bool) : (s.setOutstanding b).env = s.env := rfl
@[simp] theorem State.setOutstanding_offered (b : Bool) : (s.setOutstanding b).offered = s.offered := rfl
@[simp] theorem State.setOutstanding_responses (b : Bool) : (s.setOutstanding b).responses = s.responses := rfl
@[simp] theorem State.setOutstanding_calls (b : Bool) : (s.setOutstanding b).calls = s.calls := rfl
@[simp] theorem State.setOutstanding_discards (b : Bool) : (s.setOutstanding b).discards = s.discards := rfl

@[simp] theorem State.logCall_params (c : Access) : (s.logCall c).params = s.params := rfl
@[simp] theorem State.logCall_st (c : Access) : (s.logCall c).st = s.st := rfl
@[simp] theorem State.logCall_regs (c : Access) : (s.logCall c).regs = s.regs := rfl
@[simp] theorem State.logCall_mem (c : Access) : (s.logCall c).mem = s.mem := rfl
@[simp] theorem State.logCall_outstanding (c : Access) : (s.logCall c).outstanding = s.outstanding := rfl
@[simp] theorem State.logCall_denied (c : Access) : (s.logCall c).denied = s.denied := rfl
@[simp] theorem State.logCall_env (c : Access) : (s.logCall c).env = s.env := rfl
@[simp] theorem State.logCall_offered (c : Access) : (s.logCall c).offered = s.offered := rfl
@[simp] theorem State.logCall_responses (c : Access) : (s.logCall c).responses = s.responses := rfl
@[simp] theorem State.logCall_calls (c : Access) : (s.logCall c).calls = s.calls ++ [c] := rfl
@[simp] theorem State.logCall_discards (c : Access) : (s.logCall c).discards = s.discards := rfl

@[simp] theorem State.respond_params (r : Response) : (s.respond r).params = s.params := rfl
@[simp] theorem State.respond_st (r : Response) : (s.respond r).st = .idle := rfl
@[simp] theorem State.respond_regs (r : Response) : (s.respond r).regs = Config.leftover s.discards := rfl
@[simp] theorem State.respond_mem (r : Response) : (s.respond r).mem = s.mem := rfl
@[simp] theorem State.respond_outstanding (r : Response) : (s.respond r).outstanding = false := rfl
@[simp] theorem State.respond_denied (r : Response) : (s.respond r).denied = s.denied := rfl
@[simp] theorem State.respond_env (r : Response) : (s.respond r).env = s.env := rfl
@[simp] theorem State.respond_offered (r : Response) : (s.respond r).offered = s.offered := rfl
@[simp] theorem State.respond_responses (r : Response) : (s.respond r).responses = s.responses ++ [r] := rfl
@[simp] theorem State.respond_calls (r : Response) : (s.respond r).calls = s.calls := rfl
@[simp] theorem State.respond_discards (r : Response) : (s.respond r).discards = s.discards + 1 := rfl

@[simp] theorem State.takeAddressFault_params (a : Addr) (k : Kind) (n : Size) :
    (s.takeAddressFault a k n).params = s.params := rfl
@[simp] theorem State.takeAddressFault_st (a : Addr) (k : Kind) (n : Size) :
    (s.takeAddressFault a k n).st = .idle := rfl
@[simp] theorem State.takeAddressFault_regs (a : Addr) (k : Kind) (n : Size) :
    (s.takeAddressFault a k n).regs = Config.leftover s.discards := rfl
@[simp] theorem State.takeAddressFault_mem (a : Addr) (k : Kind) (n : Size) :
    (s.takeAddressFault a k n).mem = s.mem := rfl
@[simp] theorem State.takeAddressFault_outstanding (a : Addr) (k : Kind) (n : Size) :
    (s.takeAddressFault a k n).outstanding = false := rfl
@[simp] theorem State.takeAddressFault_denied (a : Addr) (k : Kind) (n : Size) :
    (s.takeAddressFault a k n).denied = s.denied := rfl
@[simp] theorem State.takeAddressFault_env (a : Addr) (k : Kind) (n : Size) :
    (s.takeAddressFault a k n).env = s.env := rfl
@[simp] theorem State.takeAddressFault_offered (a : Addr) (k : Kind) (n : Size) :
    (s.takeAddressFault a k n).offered = s.offered := rfl
@[simp] theorem State.takeAddressFault_responses (a : Addr) (k : Kind) (n : Size) :
    (s.takeAddressFault a k n).responses = s.responses ++ [.addressFault a k n] := rfl
@[simp] theorem State.takeAddressFault_calls (a : Addr) (k : Kind) (n : Size) :
    (s.takeAddressFault a k n).calls = s.calls ++ [{ kind := k, size := n, addr := a, data := none }] := rfl
@[simp] theorem State.takeAddressFault_discards (a : Addr) (k : Kind) (n : Size) :
    (s.takeAddressFault a k n).discards = s.discards + 1 := rfl

@[simp] theorem State.applyReset_params : (s.applyReset).params = s.params := rfl
@[simp] theorem State.applyReset_st : (s.applyReset).st = .idle := rfl
@[simp] theorem State.applyReset_regs : (s.applyReset).regs = Regs.reset := rfl
@[simp] theorem State.applyReset_mem : (s.applyReset).mem = s.mem := rfl
@[simp] theorem State.applyReset_outstanding : (s.applyReset).outstanding = false := rfl
@[simp] theorem State.applyReset_denied : (s.applyReset).denied = s.denied := rfl
@[simp] theorem State.applyReset_env : (s.applyReset).env = s.env := rfl
@[simp] theorem State.applyReset_offered : (s.applyReset).offered = s.offered := rfl
@[simp] theorem State.applyReset_responses : (s.applyReset).responses = s.responses := rfl
@[simp] theorem State.applyReset_calls : (s.applyReset).calls = s.calls := rfl
@[simp] theorem State.applyReset_discards : (s.applyReset).discards = s.discards := rfl

@[simp] theorem State.start_params (r : Regs) : (s.start r).params = s.params := rfl
@[simp] theorem State.start_st (r : Regs) : (s.start r).st = .run := rfl
@[simp] theorem State.start_regs (r : Regs) : (s.start r).regs = r := rfl
@[simp] theorem State.start_mem (r : Regs) : (s.start r).mem = s.mem := rfl
@[simp] theorem State.start_outstanding (r : Regs) : (s.start r).outstanding = false := rfl
@[simp] theorem State.start_denied (r : Regs) : (s.start r).denied = s.denied := rfl
@[simp] theorem State.start_env (r : Regs) : (s.start r).env = s.env := rfl
@[simp] theorem State.start_offered (r : Regs) : (s.start r).offered = s.offered := rfl
@[simp] theorem State.start_responses (r : Regs) : (s.start r).responses = s.responses := rfl
@[simp] theorem State.start_calls (r : Regs) : (s.start r).calls = s.calls := rfl
@[simp] theorem State.start_discards (r : Regs) : (s.start r).discards = s.discards := rfl

@[simp] theorem State.started_params : (s.started).params = s.params := rfl
@[simp] theorem State.started_st : (s.started).st = .run := rfl
@[simp] theorem State.started_regs : (s.started).regs = s.regs := rfl
@[simp] theorem State.started_mem : (s.started).mem = s.mem := rfl
@[simp] theorem State.started_outstanding : (s.started).outstanding = false := rfl
@[simp] theorem State.started_denied : (s.started).denied = s.denied := rfl
@[simp] theorem State.started_env : (s.started).env = s.env := rfl
@[simp] theorem State.started_offered : (s.started).offered = s.offered := rfl
@[simp] theorem State.started_responses : (s.started).responses = s.responses := rfl
@[simp] theorem State.started_calls : (s.started).calls = s.calls := rfl
@[simp] theorem State.started_discards : (s.started).discards = s.discards := rfl

@[simp] theorem State.finished_params (m : Memory) (cs : List Access) (r : Response) :
    (s.finished m cs r).params = s.params := rfl
@[simp] theorem State.finished_st (m : Memory) (cs : List Access) (r : Response) :
    (s.finished m cs r).st = .idle := rfl
@[simp] theorem State.finished_regs (m : Memory) (cs : List Access) (r : Response) :
    (s.finished m cs r).regs = Config.leftover s.discards := rfl
@[simp] theorem State.finished_mem (m : Memory) (cs : List Access) (r : Response) : (s.finished m cs r).mem = m := rfl
@[simp] theorem State.finished_outstanding (m : Memory) (cs : List Access) (r : Response) :
    (s.finished m cs r).outstanding = false := rfl
@[simp] theorem State.finished_denied (m : Memory) (cs : List Access) (r : Response) :
    (s.finished m cs r).denied = s.denied := rfl
@[simp] theorem State.finished_env (m : Memory) (cs : List Access) (r : Response) :
    (s.finished m cs r).env = s.env := rfl
@[simp] theorem State.finished_offered (m : Memory) (cs : List Access) (r : Response) :
    (s.finished m cs r).offered = s.offered := rfl
@[simp] theorem State.finished_responses (m : Memory) (cs : List Access) (r : Response) :
    (s.finished m cs r).responses = s.responses ++ [r] := rfl
@[simp] theorem State.finished_calls (m : Memory) (cs : List Access) (r : Response) :
    (s.finished m cs r).calls = s.calls ++ cs := rfl
@[simp] theorem State.finished_discards (m : Memory) (cs : List Access) (r : Response) :
    (s.finished m cs r).discards = s.discards + 1 := rfl

@[simp] theorem performReadWord_params (a : Addr) : (performReadWord a s).params = s.params := rfl
@[simp] theorem performReadWord_st (a : Addr) : (performReadWord a s).st = s.st := rfl
@[simp] theorem performReadWord_regs (a : Addr) : (performReadWord a s).regs = s.regs := rfl
@[simp] theorem performReadWord_mem (a : Addr) : (performReadWord a s).mem = s.mem := rfl
@[simp] theorem performReadWord_outstanding (a : Addr) : (performReadWord a s).outstanding = s.outstanding := rfl
@[simp] theorem performReadWord_denied (a : Addr) : (performReadWord a s).denied = s.denied := rfl
@[simp] theorem performReadWord_env (a : Addr) : (performReadWord a s).env = s.env := rfl
@[simp] theorem performReadWord_offered (a : Addr) : (performReadWord a s).offered = s.offered := rfl
@[simp] theorem performReadWord_responses (a : Addr) : (performReadWord a s).responses = s.responses := rfl
@[simp] theorem performReadWord_calls (a : Addr) :
    (performReadWord a s).calls =
      s.calls ++ [{ kind := .read, size := .word, addr := a, data := some (s.mem.readWord s.params.xlen a) }] :=
  rfl
@[simp] theorem performReadWord_discards (a : Addr) : (performReadWord a s).discards = s.discards := rfl

@[simp] theorem performReadByte_params (a : Addr) : (performReadByte a s).params = s.params := rfl
@[simp] theorem performReadByte_st (a : Addr) : (performReadByte a s).st = s.st := rfl
@[simp] theorem performReadByte_regs (a : Addr) : (performReadByte a s).regs = s.regs := rfl
@[simp] theorem performReadByte_mem (a : Addr) : (performReadByte a s).mem = s.mem := rfl
@[simp] theorem performReadByte_outstanding (a : Addr) : (performReadByte a s).outstanding = s.outstanding := rfl
@[simp] theorem performReadByte_denied (a : Addr) : (performReadByte a s).denied = s.denied := rfl
@[simp] theorem performReadByte_env (a : Addr) : (performReadByte a s).env = s.env := rfl
@[simp] theorem performReadByte_offered (a : Addr) : (performReadByte a s).offered = s.offered := rfl
@[simp] theorem performReadByte_responses (a : Addr) : (performReadByte a s).responses = s.responses := rfl
@[simp] theorem performReadByte_calls (a : Addr) :
    (performReadByte a s).calls = s.calls ++
      [{ kind := .read, size := .byte, addr := a, data := some ((s.mem.read (byteAddr s.params.xlen a 0)).setWidth 32) }] :=
  rfl
@[simp] theorem performReadByte_discards (a : Addr) : (performReadByte a s).discards = s.discards := rfl

@[simp] theorem performWriteWord_params (a : Addr) (v : Word) : (performWriteWord a v s).params = s.params := rfl
@[simp] theorem performWriteWord_st (a : Addr) (v : Word) : (performWriteWord a v s).st = s.st := rfl
@[simp] theorem performWriteWord_regs (a : Addr) (v : Word) : (performWriteWord a v s).regs = s.regs := rfl
@[simp] theorem performWriteWord_mem (a : Addr) (v : Word) :
    (performWriteWord a v s).mem = s.mem.writeWord s.params.xlen a v := rfl
@[simp] theorem performWriteWord_outstanding (a : Addr) (v : Word) :
    (performWriteWord a v s).outstanding = s.outstanding := rfl
@[simp] theorem performWriteWord_denied (a : Addr) (v : Word) : (performWriteWord a v s).denied = s.denied := rfl
@[simp] theorem performWriteWord_env (a : Addr) (v : Word) : (performWriteWord a v s).env = s.env := rfl
@[simp] theorem performWriteWord_offered (a : Addr) (v : Word) : (performWriteWord a v s).offered = s.offered := rfl
@[simp] theorem performWriteWord_responses (a : Addr) (v : Word) :
    (performWriteWord a v s).responses = s.responses := rfl
@[simp] theorem performWriteWord_calls (a : Addr) (v : Word) :
    (performWriteWord a v s).calls = s.calls ++ [{ kind := .write, size := .word, addr := a, data := some v }] := rfl
@[simp] theorem performWriteWord_discards (a : Addr) (v : Word) :
    (performWriteWord a v s).discards = s.discards := rfl

@[simp] theorem performWriteByte_params (a : Addr) (v : Byte) : (performWriteByte a v s).params = s.params := rfl
@[simp] theorem performWriteByte_st (a : Addr) (v : Byte) : (performWriteByte a v s).st = s.st := rfl
@[simp] theorem performWriteByte_regs (a : Addr) (v : Byte) : (performWriteByte a v s).regs = s.regs := rfl
@[simp] theorem performWriteByte_mem (a : Addr) (v : Byte) :
    (performWriteByte a v s).mem = s.mem.write (byteAddr s.params.xlen a 0) v := rfl
@[simp] theorem performWriteByte_outstanding (a : Addr) (v : Byte) :
    (performWriteByte a v s).outstanding = s.outstanding := rfl
@[simp] theorem performWriteByte_denied (a : Addr) (v : Byte) : (performWriteByte a v s).denied = s.denied := rfl
@[simp] theorem performWriteByte_env (a : Addr) (v : Byte) : (performWriteByte a v s).env = s.env := rfl
@[simp] theorem performWriteByte_offered (a : Addr) (v : Byte) : (performWriteByte a v s).offered = s.offered := rfl
@[simp] theorem performWriteByte_responses (a : Addr) (v : Byte) :
    (performWriteByte a v s).responses = s.responses := rfl
@[simp] theorem performWriteByte_calls (a : Addr) (v : Byte) :
    (performWriteByte a v s).calls =
      s.calls ++ [{ kind := .write, size := .byte, addr := a, data := some (v.setWidth 32) }] := rfl
@[simp] theorem performWriteByte_discards (a : Addr) (v : Byte) :
    (performWriteByte a v s).discards = s.discards := rfl

end Sys2Proof.Machine
end

