-- ==== Sys2Proof/Laws/Memory.lean ====
section
/-! SUPPORT. The laws of addresses and of the reference memory: a read after a write, and that every write keeps
the canonical form and stays inside the address space. -/

namespace Sys2Proof.Machine

/-! ## Addresses -/

theorem size_pos (x : Xlen) : 0 < x.size := Nat.two_pow_pos _

theorem four_le_size (x : Xlen) : 4 ≤ x.size := by cases x <;> decide

theorem size_le (x : Xlen) : x.size ≤ 2 ^ 64 := by cases x <;> decide

/-- 20_memory.md R52. -/
@[simp] theorem addrAt_toNat (x : Xlen) (base : Addr) (off : Nat) :
    (addrAt x base off).toNat = (base.toNat + off) % x.size := by
  have h := Nat.mod_lt (base.toNat + off) (size_pos x)
  have hx := size_le x
  simp only [addrAt, BitVec.toNat_ofNat]
  omega

theorem addrAt_lt (x : Xlen) (base : Addr) (off : Nat) : (addrAt x base off).toNat < x.size := by
  rw [addrAt_toNat]
  exact Nat.mod_lt _ (size_pos x)

/-- An address plus an offset plus another is the address plus their sum. -/
theorem addrAt_addrAt (x : Xlen) (base : Addr) (i j : Nat) :
    addrAt x (addrAt x base i) j = addrAt x base (i + j) := by
  apply BitVec.eq_of_toNat_eq
  simp [Nat.add_assoc]

/-- An address the CORE issued is the address of its own first byte. -/
@[simp] theorem addrAt_addrAt_zero (x : Xlen) (base : Addr) (i : Nat) :
    addrAt x (addrAt x base i) 0 = addrAt x base i := addrAt_addrAt x base i 0

@[simp] theorem byteAddr_addrAt (x : Xlen) (base : Addr) (i : Nat) :
    byteAddr x (addrAt x base i) 0 = (addrAt x base i).toNat := by
  simp [byteAddr]

/-- A word address is the base plus a multiple of 4. -/
theorem wordAddr_eq (x : Xlen) (base : Addr) (k : Nat) : wordAddr x base k = addrAt x base (4 * k) := rfl

/-- An operand that fits XLEN bits is latched whole (30_encoding.md R89). -/
theorem latch_of_fits {x : Xlen} {v : Operand} (h : x.fits v = true) : latch x v = v := by
  apply BitVec.eq_of_toNat_eq
  simp only [Xlen.fits, decide_eq_true_eq] at h
  have hv := v.isLt
  simp only [latch, BitVec.toNat_ofNat, Nat.mod_eq_of_lt h]
  omega

theorem latch_fits (x : Xlen) (v : Operand) : x.fits (latch x v) = true := by
  have h := Nat.mod_lt v.toNat (size_pos x)
  have hx := size_le x
  simp only [Xlen.fits, latch, BitVec.toNat_ofNat, decide_eq_true_eq]
  omega

/-- Two offsets below 2^XLEN give the same address only if they are equal. -/
theorem addrAt_inj {x : Xlen} {base : Addr} {i j : Nat} (hi : i < x.size) (hj : j < x.size)
    (h : (addrAt x base i).toNat = (addrAt x base j).toNat) : i = j := by
  rw [addrAt_toNat, addrAt_toNat] at h
  have := Nat.ModEq.add_left_cancel' base.toNat h
  rwa [Nat.ModEq, Nat.mod_eq_of_lt hi, Nat.mod_eq_of_lt hj] at this

/-! ## One byte -/

@[simp] theorem Memory.read_nil (a : Nat) : Memory.read [] a = blankByte := rfl

theorem Memory.read_cons (b : Nat) (v : Byte) (m : Memory) (a : Nat) :
    Memory.read ((b, v) :: m) a = if a = b then v else Memory.read m a := rfl

/-- A write leaves every other byte location alone. -/
theorem Memory.read_write_other (m : Memory) {a b : Nat} (v : Byte) (h : b ≠ a) :
    (m.write a v).read b = m.read b := by
  induction m with
  | nil =>
    simp only [Memory.write]
    split
    · rfl
    · simp [Memory.read_cons, h]
  | cons c m ih =>
    obtain ⟨k, u⟩ := c
    simp only [Memory.write]
    split_ifs with h1 h2 h3 h4
    · rfl
    · simp [Memory.read_cons, h]
    · subst h3
      simp [Memory.read_cons, h]
    · subst h3
      simp [Memory.read_cons, h]
    · simp only [Memory.read_cons, ih]

/-- Memory with an entry below which nothing is listed. -/
theorem Memory.wf_cons {k : Nat} {u : Byte} {m : Memory} :
    Memory.wf ((k, u) :: m) = true ↔ u ≠ blankByte ∧ (∀ c ∈ m, k < c.1) ∧ Memory.wf m = true := by
  induction m generalizing k u with
  | nil => simp [Memory.wf]
  | cons c m ih =>
    obtain ⟨b, w⟩ := c
    have hb := @ih b w
    simp only [Memory.wf, Bool.and_eq_true, bne_iff_ne, decide_eq_true_eq, List.mem_cons, forall_eq_or_imp]
    constructor
    · rintro ⟨⟨hu, hk⟩, hm⟩
      exact ⟨hu, ⟨hk, fun c hc => lt_trans hk ((hb.1 hm).2.1 c hc)⟩, hm⟩
    · rintro ⟨hu, ⟨hk, _⟩, hm⟩
      exact ⟨⟨hu, hk⟩, hm⟩

/-- A location below every listed one reads as an unlisted address does. -/
theorem Memory.read_of_lt (m : Memory) {a : Nat} (h : ∀ c ∈ m, a < c.1) : m.read a = blankByte := by
  induction m with
  | nil => rfl
  | cons c m ih =>
    obtain ⟨k, u⟩ := c
    have hk : a < k := h (k, u) (by simp)
    rw [Memory.read_cons, if_neg (Nat.ne_of_lt hk)]
    exact ih fun c hc => h c (List.mem_cons_of_mem _ hc)

/-- A read after a write to the same place gives the value written. -/
theorem Memory.read_write_same {m : Memory} (hm : m.wf = true) (a : Nat) (v : Byte) :
    (m.write a v).read a = v := by
  induction m with
  | nil =>
    simp only [Memory.write]
    split <;> simp_all [Memory.read_cons]
  | cons c m ih =>
    obtain ⟨k, u⟩ := c
    obtain ⟨hu, hlt, hm'⟩ := Memory.wf_cons.1 hm
    simp only [Memory.write]
    split_ifs with h1 h2 h3 h4
    · rw [h2]
      refine Memory.read_of_lt _ ?_
      rintro c hc
      rcases List.mem_cons.1 hc with rfl | hc
      · exact h1
      · exact lt_trans h1 (hlt c hc)
    · simp [Memory.read_cons]
    · subst h3
      rw [h4]
      exact Memory.read_of_lt _ hlt
    · simp [Memory.read_cons]
    · rw [Memory.read_cons, if_neg h3, ih hm']

/-- Where a read after a write goes, in canonical memory. -/
theorem Memory.read_write {m : Memory} (hm : m.wf = true) (a b : Nat) (v : Byte) :
    (m.write a v).read b = if b = a then v else m.read b := by
  split
  · next h => rw [h, Memory.read_write_same hm]
  · next h => exact Memory.read_write_other m v h

/-- What a write lists lies at the written location or was listed before. -/
theorem Memory.mem_write {m : Memory} {a : Nat} {v : Byte} {c : Host.Cell} (h : c ∈ m.write a v) :
    c.1 = a ∨ c ∈ m := by
  induction m with
  | nil =>
    simp only [Memory.write] at h
    split at h <;> simp_all
  | cons d m ih =>
    obtain ⟨k, u⟩ := d
    simp only [Memory.write] at h
    split_ifs at h <;> simp only [List.mem_cons] at h ⊢
    · exact .inr h
    · rcases h with rfl | h
      · exact .inl rfl
      · exact .inr h
    · exact .inr (.inr h)
    · rcases h with rfl | h
      · exact .inl rfl
      · exact .inr (.inr h)
    · rcases h with rfl | h
      · exact .inr (.inl rfl)
      · exact (ih h).imp_right .inr

/-- A byte write keeps the canonical form. -/
theorem Memory.write_wf {m : Memory} (hm : m.wf = true) (a : Nat) (v : Byte) : (m.write a v).wf = true := by
  induction m with
  | nil =>
    simp only [Memory.write]
    split <;> simp_all [Memory.wf]
  | cons c m ih =>
    obtain ⟨k, u⟩ := c
    obtain ⟨hu, hlt, hm'⟩ := Memory.wf_cons.1 hm
    simp only [Memory.write]
    split_ifs with h1 h2 h3 h4
    · exact hm
    · refine Memory.wf_cons.2 ⟨h2, ?_, hm⟩
      rintro c hc
      rcases List.mem_cons.1 hc with rfl | hc
      · exact h1
      · exact lt_trans h1 (hlt c hc)
    · exact hm'
    · subst h3
      exact Memory.wf_cons.2 ⟨h4, hlt, hm'⟩
    · refine Memory.wf_cons.2 ⟨hu, ?_, ih hm'⟩
      intro c hc
      rcases Memory.mem_write hc with h | h
      · omega
      · exact hlt c h

/-- A byte write inside the address space stays inside it. -/
theorem Memory.write_inSpace {x : Xlen} {m : Memory} (hm : m.inSpace x = true) {a : Nat} (ha : a < x.size) (v : Byte) :
    (m.write a v).inSpace x = true := by
  simp only [Memory.inSpace, List.all_eq_true, decide_eq_true_eq] at hm ⊢
  intro c hc
  rcases Memory.mem_write hc with h | h
  · omega
  · exact hm c h

/-! ## Words -/

/-- A word write keeps the canonical form. -/
theorem Memory.writeWord_wf {m : Memory} (hm : m.wf = true) (x : Xlen) (a : Addr) (v : Word) :
    (m.writeWord x a v).wf = true :=
  Memory.write_wf (Memory.write_wf (Memory.write_wf (Memory.write_wf hm _ _) _ _) _ _) _ _

/-- A word write stays inside the address space. -/
theorem Memory.writeWord_inSpace {x : Xlen} {m : Memory} (hm : m.inSpace x = true) (a : Addr) (v : Word) :
    (m.writeWord x a v).inSpace x = true :=
  Memory.write_inSpace (Memory.write_inSpace (Memory.write_inSpace (Memory.write_inSpace hm (addrAt_lt ..) _)
    (addrAt_lt ..) _) (addrAt_lt ..) _) (addrAt_lt ..) _

/-- A word write leaves every byte location but its four alone. -/
theorem Memory.read_writeWord_other (m : Memory) (x : Xlen) (a : Addr) (v : Word) {loc : Nat}
    (h : ∀ t < 4, loc ≠ (addrAt x a t).toNat) : (m.writeWord x a v).read loc = m.read loc := by
  simp only [Memory.writeWord]
  rw [Memory.read_write_other _ _ (h 3 (by omega)), Memory.read_write_other _ _ (h 2 (by omega)),
    Memory.read_write_other _ _ (h 1 (by omega)), Memory.read_write_other _ _ (h 0 (by omega))]

end Sys2Proof.Machine
end

