-- ==== Sys2Proof/Laws/Ops.lean ====
section
/-! SUPPORT. What the shared operations can do, said once: the outside's turn, a Memory Port call, one step of a
command, a whole invocation. -/

namespace Sys2Proof.Machine

/-! ## The outside's turn -/

section Turn

variable (s : State) (ms : List Move)

theorem moves_params : (ms.foldl State.move s).params = s.params := by
  induction ms generalizing s with
  | nil => rfl
  | cons m ms ih => cases m <;> simp [State.move, ih]

theorem moves_env : (ms.foldl State.move s).env = s.env := by
  induction ms generalizing s with
  | nil => rfl
  | cons m ms ih => cases m <;> simp [State.move, ih]

theorem moves_calls : (ms.foldl State.move s).calls = s.calls := by
  induction ms generalizing s with
  | nil => rfl
  | cons m ms ih => cases m <;> simp [State.move, ih]

theorem moves_responses : (ms.foldl State.move s).responses = s.responses := by
  induction ms generalizing s with
  | nil => rfl
  | cons m ms ih => cases m <;> simp [State.move, ih]

theorem moves_discards : (ms.foldl State.move s).discards = s.discards := by
  induction ms generalizing s with
  | nil => rfl
  | cons m ms ih => cases m <;> simp [State.move, ih]

theorem moves_offered : ∃ more, (ms.foldl State.move s).offered = s.offered ++ more := by
  induction ms generalizing s with
  | nil => exact ⟨[], by simp⟩
  | cons m ms ih =>
    obtain ⟨more, h⟩ := ih (s.move m)
    cases m with
    | offer w => exact ⟨w :: more, by simpa [State.move] using h⟩
    | write _ _ | setDenied _ | reset => exact ⟨more, by simpa [State.move] using h⟩

/-- The outside's moves reset the CORE or leave `ST` and the registers alone. -/
theorem moves_core :
    ((ms.foldl State.move s).st = .idle ∧ (ms.foldl State.move s).regs = Regs.reset) ∨
      ((ms.foldl State.move s).st = s.st ∧ (ms.foldl State.move s).regs = s.regs) := by
  induction ms generalizing s with
  | nil => exact .inr ⟨rfl, rfl⟩
  | cons m ms ih =>
    cases m with
    | reset =>
      rcases ih s.applyReset with h | h
      · exact .inl h
      · exact .inl h
    | write _ _ | setDenied _ | offer _ => exact ih _

/-- Without a reset the outside's moves leave `ST` and the registers alone. -/
theorem moves_core_of_no_reset (h : Move.reset ∉ ms) :
    (ms.foldl State.move s).st = s.st ∧ (ms.foldl State.move s).regs = s.regs := by
  induction ms generalizing s with
  | nil => exact ⟨rfl, rfl⟩
  | cons m ms ih =>
    simp only [List.mem_cons, not_or] at h
    cases m with
    | reset => exact absurd rfl h.1
    | write _ _ | setDenied _ | offer _ => exact ih _ h.2

/-- The outside's moves do not depend on the registers, and a reset is a reset whatever they held. -/
theorem moves_setRegs (r : Regs) :
    (ms.foldl State.move (s.setRegs r) = ms.foldl State.move s ∧ (ms.foldl State.move s).st = .idle) ∨
      ms.foldl State.move (s.setRegs r) = (ms.foldl State.move s).setRegs r := by
  induction ms generalizing s with
  | nil => exact .inr rfl
  | cons m ms ih =>
    cases m with
    | reset =>
      refine .inl ⟨rfl, ?_⟩
      rcases moves_core s.applyReset ms with h | h
      · exact h.1
      · exact h.1
    | write a v => exact ih (s.move (.write a v))
    | setDenied d => exact ih (s.move (.setDenied d))
    | offer w => exact ih (s.move (.offer w))

theorem moves_wf (h : s.mem.wf = true) : (ms.foldl State.move s).mem.wf = true := by
  induction ms generalizing s with
  | nil => exact h
  | cons m ms ih =>
    cases m with
    | write a v => exact ih _ (Memory.write_wf h _ _)
    | setDenied _ | offer _ | reset => exact ih _ h

theorem moves_inSpace (h : s.mem.inSpace s.params.xlen = true) :
    (ms.foldl State.move s).mem.inSpace s.params.xlen = true := by
  induction ms generalizing s with
  | nil => exact h
  | cons m ms ih =>
    cases m with
    | write a v => exact ih _ (Memory.write_inSpace h (addrAt_lt ..) _)
    | setDenied _ | offer _ | reset => exact ih _ h

@[simp] theorem afterMoves_params : s.afterMoves.params = s.params := moves_params _ _
@[simp] theorem afterMoves_env : s.afterMoves.env = s.env.tail := moves_env _ _
@[simp] theorem afterMoves_calls : s.afterMoves.calls = s.calls := moves_calls _ _
@[simp] theorem afterMoves_responses : s.afterMoves.responses = s.responses := moves_responses _ _
@[simp] theorem afterMoves_discards : s.afterMoves.discards = s.discards := moves_discards _ _

theorem afterMoves_offered : ∃ more, s.afterMoves.offered = s.offered ++ more := moves_offered _ _

theorem afterMoves_core :
    (s.afterMoves.st = .idle ∧ s.afterMoves.regs = Regs.reset) ∨
      (s.afterMoves.st = s.st ∧ s.afterMoves.regs = s.regs) := moves_core _ _

/-- Still in RUN after the outside's turn: the registers are as they were. -/
theorem afterMoves_regs_of_run (h : s.afterMoves.st = .run) : s.afterMoves.regs = s.regs := by
  rcases afterMoves_core s with ⟨h1, _⟩ | ⟨_, h2⟩
  · simp [h1] at h
  · exact h2

theorem afterMoves_wf (h : s.mem.wf = true) : s.afterMoves.mem.wf = true := moves_wf _ _ h

theorem afterMoves_inSpace (h : s.mem.inSpace s.params.xlen = true) :
    s.afterMoves.mem.inSpace s.params.xlen = true := moves_inSpace (s.setEnv s.env.tail) _ h

theorem afterMoves_setRegs (r : Regs) :
    ((s.setRegs r).afterMoves = s.afterMoves ∧ s.afterMoves.st = .idle) ∨
      (s.setRegs r).afterMoves = s.afterMoves.setRegs r := moves_setRegs (s.setEnv s.env.tail) _ r

/-- Past the end of the script the outside makes no move. -/
theorem nextTurn_moves_of_quiet (h : s.env = []) : s.nextTurn.moves = [] := by
  simp only [State.nextTurn, h, List.headD_nil]
  split <;> rfl

/-- With no other actor the outside's turn changes nothing. -/
theorem afterMoves_of_quiet (h : s.env = []) : s.afterMoves = s := by
  rw [State.afterMoves, nextTurn_moves_of_quiet s h]
  cases s
  simp_all [State.setEnv]

theorem nextTurn_of_quiet (h : s.env = []) (ho : s.outstanding = false) : s.nextTurn = Turn.quiet := by
  simp [State.nextTurn, h, ho]

/-- Past the end of the script a call still outstanding does not return (20_memory.md R73). -/
theorem nextTurn_of_waiting (h : s.env = []) (ho : s.outstanding = true) : s.nextTurn = Turn.waiting := by
  simp [State.nextTurn, h, ho]

@[simp] theorem nextTurn_setRegs (r : Regs) : (s.setRegs r).nextTurn = s.nextTurn := rfl

/-- The outside's moves make no Memory Port call. -/
theorem moves_outstanding (h : (ms.foldl State.move s).outstanding = true) : s.outstanding = true := by
  induction ms generalizing s with
  | nil => exact h
  | cons m ms ih =>
    cases m with
    | reset => exact absurd (ih _ h) (by simp [State.move])
    | write a v => exact ih (s.move (.write a v)) h
    | setDenied d => exact ih (s.move (.setDenied d)) h
    | offer w => exact ih (s.move (.offer w)) h

theorem afterMoves_outstanding (h : s.afterMoves.outstanding = true) : s.outstanding = true :=
  moves_outstanding (s.setEnv s.env.tail) _ h

@[simp] theorem atCall_params : s.atCall.params = s.params := afterMoves_params _
@[simp] theorem atCall_st : s.atCall.st = s.afterMoves.st := rfl
@[simp] theorem atCall_regs : s.atCall.regs = s.afterMoves.regs := rfl
@[simp] theorem atCall_mem : s.atCall.mem = s.afterMoves.mem := rfl
@[simp] theorem atCall_outstanding : s.atCall.outstanding = false := rfl
@[simp] theorem atCall_denied : s.atCall.denied = s.afterMoves.denied := rfl
@[simp] theorem atCall_env : s.atCall.env = s.env.tail := afterMoves_env _
@[simp] theorem atCall_offered : s.atCall.offered = s.afterMoves.offered := rfl
@[simp] theorem atCall_responses : s.atCall.responses = s.responses := afterMoves_responses _
@[simp] theorem atCall_calls : s.atCall.calls = s.calls := afterMoves_calls _
@[simp] theorem atCall_discards : s.atCall.discards = s.discards := afterMoves_discards _

/-- With no other actor and no call outstanding the state at the next call is the state itself. -/
theorem atCall_of_quiet (h : s.env = []) (ho : s.outstanding = false) : s.atCall = s := by
  rw [State.atCall, afterMoves_of_quiet s h]
  cases s
  simp_all [State.setOutstanding]

/-- The state at the next call depends on the registers only by holding them, unless reset discards them. -/
theorem atCall_setRegs (r : Regs) :
    ((s.setRegs r).atCall = s.atCall ∧ s.atCall.st = .idle) ∨ (s.setRegs r).atCall = s.atCall.setRegs r := by
  rcases afterMoves_setRegs s r with ⟨h1, h2⟩ | h1
  · exact .inl ⟨by rw [State.atCall, State.atCall, h1], h2⟩
  · exact .inr (by rw [State.atCall, State.atCall, h1]; rfl)

end Turn

/-! ## Accessibility -/

/-- `Accessible` depends on the parameters and the port's map only (20_memory.md R56). -/
theorem accessible_congr {s t : State} (hp : t.params = s.params) (hd : t.denied = s.denied) (a : Addr) (n : Size)
    (k : Kind) : t.accessible a n k = s.accessible a n k := by
  simp [State.accessible, hp, hd]

/-- Where nothing is refused and alignment is not enforced every access is granted. -/
theorem accessible_of_open {s : State} (hd : s.denied = []) (he : s.params.enforceAlign = false) (a : Addr) (n : Size)
    (k : Kind) : s.accessible a n k = true := by
  simp [State.accessible, hd, he, okAt]

/-! ## A Memory Port call -/

/-- All a Memory Port call can do when it answers a next state: the outside reset the CORE first, the call does
not return, the access raised AddressFault, it was granted, or reset struck while it was in progress. -/
theorem portCall_next {a : Addr} {n : Size} {k : Kind} {perform : State → State} {s t : State}
    {granted : State → Result} (h : portCall a n k perform s granted = .next t) :
    (s.atCall.st = .idle ∧ t = s.atCall) ∨
      (s.atCall.st = .run ∧ s.nextTurn.answer = .pending ∧ t = s.atCall.setOutstanding true) ∨
      (s.atCall.st = .run ∧ t = s.atCall.takeAddressFault a k n) ∨
      (s.atCall.st = .run ∧ s.atCall.accessible a n k = true ∧ granted (perform s.atCall) = .next t) ∨
      (s.atCall.st = .run ∧ s.nextTurn.answer = .byMapThenReset ∧
        ((s.atCall.accessible a n k = true ∧ t = (perform s.atCall).applyReset) ∨
          t = (s.atCall.logCall { kind := k, size := n, addr := a, data := none }).applyReset)) := by
  unfold portCall at h
  dsimp only at h
  split at h
  · next hst => exact .inl ⟨hst, by cases h; rfl⟩
  · next hst =>
    split at h
    · next hans => exact .inr (.inl ⟨hst, hans, by cases h; rfl⟩)
    · exact .inr (.inr (.inl ⟨hst, by cases h; rfl⟩))
    · split at h
      · next hacc => exact .inr (.inr (.inr (.inl ⟨hst, hacc, h⟩)))
      · exact .inr (.inr (.inl ⟨hst, by cases h; rfl⟩))
    · next hans =>
      split at h
      · next hacc => exact .inr (.inr (.inr (.inr ⟨hst, hans, .inl ⟨hacc, by cases h; rfl⟩⟩)))
      · exact .inr (.inr (.inr (.inr ⟨hst, hans, .inr (by cases h; rfl)⟩)))

/-- A Memory Port call stops the machine only where what follows the granted access does. -/
theorem portCall_fault {a : Addr} {n : Size} {k : Kind} {perform : State → State} {s : State} {f : Fault}
    {granted : State → Result} (h : portCall a n k perform s granted = .fault f) :
    s.atCall.st = .run ∧ granted (perform s.atCall) = .fault f := by
  unfold portCall at h
  dsimp only at h
  split at h
  · cases h
  · next hst =>
    split at h
    · cases h
    · cases h
    · split at h
      · exact ⟨hst, h⟩
      · cases h
    · split at h <;> cases h

/-- Where what follows a granted access is always a next state, so is the call. -/
theorem portCall_total (a : Addr) (n : Size) (k : Kind) (perform : State → State) (s : State)
    (after : State → State) : ∃ t, portCall a n k perform s (fun u => .next (after u)) = .next t := by
  unfold portCall
  dsimp only
  split
  · exact ⟨_, rfl⟩
  · split
    · exact ⟨_, rfl⟩
    · exact ⟨_, rfl⟩
    · split <;> exact ⟨_, rfl⟩
    · split <;> exact ⟨_, rfl⟩

/-- Undisturbed, a Memory Port call is granted or takes the AddressFault. -/
theorem portCall_quiet {s : State} (he : s.env = []) (ho : s.outstanding = false) (hst : s.st = .run) (a : Addr)
    (n : Size) (k : Kind) (perform : State → State) (granted : State → Result) :
    portCall a n k perform s granted =
      if s.accessible a n k = true then granted (perform s) else .next (s.takeAddressFault a k n) := by
  simp [portCall, atCall_of_quiet s he ho, nextTurn_of_quiet s he ho, hst, Turn.quiet]

/-- A call outstanding at the end of the script leaves the machine where it is (20_memory.md R73). -/
theorem portCall_waiting {s : State} (he : s.env = []) (ho : s.outstanding = true) (hst : s.st = .run) (a : Addr)
    (n : Size) (k : Kind) (perform : State → State) (granted : State → Result) :
    portCall a n k perform s granted = .next s := by
  have h : (s.afterMoves.setOutstanding false).setOutstanding true = s := by
    rw [afterMoves_of_quiet s he]
    cases s
    simp_all [State.setOutstanding]
  simp [portCall, State.atCall, afterMoves_of_quiet s he, nextTurn_of_waiting s he ho, hst, Turn.waiting]
  rw [afterMoves_of_quiet s he] at h
  exact h

/-! ## The working buffer -/

/-- The next cell to be written is appended. -/
theorem bufWrite_append (draw : Nat) (buf : List Word) (w : Word) :
    bufWrite draw buf buf.length w = buf ++ [w] := by
  simp [bufWrite]

/-- A cell that was written is read as it was written: no free value (10_state.md R38). -/
theorem bufCell_of_lt {draw : Nat} {buf : List Word} {k : Nat} (h : k < buf.length) :
    bufCell draw buf k = buf.getD k 0 := by
  simp [bufCell, List.getD_eq_getElem?_getD, h]

/-! ## A command, step by step -/

/-- A command handed to an IDLE CORE is accepted (30_encoding.md R81). -/
theorem invoke_idle {i : Instr} {accept : State → State} {tick : State → Result} {s : State} (h : s.st = .idle) :
    invoke i accept tick s = .next (accept s) := by
  simp [invoke, h]

/-- The command in the latches takes its engine's next step (10_state.md R36). -/
theorem invoke_run {i : Instr} {accept : State → State} {tick : State → Result} {s : State} (h : s.st = .run)
    (hi : s.regs.command = i) : invoke i accept tick s = tick s := by
  simp [invoke, h, hi]

/-- Another command waits (30_encoding.md R81). -/
theorem invoke_other {i : Instr} {accept : State → State} {tick : State → Result} {s : State} (h : s.st = .run)
    (hi : s.regs.command ≠ i) : invoke i accept tick s = .next (s.enqueue i) := by
  simp [invoke, h, hi]

/-- In IDLE every command is accepted. -/
theorem exec_idle (i : Instr) {s : State} (h : s.st = .idle) : ∃ t, exec i s = .next t := by
  cases i <;> exact ⟨_, invoke_idle h⟩

/-- A step in RUN is the engine's step table, by the latched operation code (10_state.md R36). -/
theorem step_run {s : State} (h : s.st = .run) :
    step s = match s.regs.op with
      | .dma => dmaTick s
      | .sort => sortTick s
      | .crush => crushTick s
      | .expand => expandTick s := by
  simp only [step, h, tick, Regs.command]
  cases hop : s.regs.op <;> exact invoke_run h (by simp [Regs.command, commandOf, hop])

theorem untilIdle_zero (s : State) : untilIdle 0 s = .next s := rfl

theorem untilIdle_idle (fuel : Nat) {s : State} (h : s.st = .idle) : untilIdle fuel s = .next s := by
  cases fuel <;> simp [untilIdle, h]

/-- A call that does not return ends what the invocation does by itself. -/
theorem untilIdle_waiting (fuel : Nat) {s : State} (ho : s.outstanding = true) : untilIdle fuel s = .next s := by
  cases fuel with
  | zero => rfl
  | succ n => cases hst : s.st <;> simp [untilIdle, ho, hst]

theorem untilIdle_next {fuel : Nat} {s t : State} (h : s.st = .run) (ho : s.outstanding = false)
    (ht : step s = .next t) : untilIdle (fuel + 1) s = untilIdle fuel t := by
  simp [untilIdle, h, ho, ht]

/-- A step that makes one Memory Port call and then answers a next state: the invocation goes on from that state
inside the granted access. -/
theorem untilIdle_portCall {fuel : Nat} {s : State} (h : s.st = .run) (ho : s.outstanding = false) {a : Addr}
    {n : Size} {k : Kind} {perform after : State → State}
    (ht : step s = portCall a n k perform s fun t => .next (after t)) :
    untilIdle (fuel + 1) s = portCall a n k perform s fun t => untilIdle fuel (after t) := by
  simp only [untilIdle, h, ho, ht, portCall]
  cases hst : s.atCall.st with
  | idle => simp [untilIdle_idle _ hst]
  | run =>
    cases s.nextTurn.answer with
    | pending => exact untilIdle_waiting fuel rfl
    | refuses => exact untilIdle_idle fuel rfl
    | byMap =>
      by_cases hacc : s.atCall.accessible a n k = true
      · simp [hacc]
      · simpa [hacc] using untilIdle_idle fuel (State.takeAddressFault_st s.atCall a k n)
    | byMapThenReset =>
      by_cases hacc : s.atCall.accessible a n k = true
      · simpa [hacc] using untilIdle_idle fuel (State.applyReset_st _)
      · simpa [hacc] using untilIdle_idle fuel (State.applyReset_st _)

/-- An invocation is the acceptance of its command, then the rest of it. -/
theorem invocation_eq {i : Instr} {s t : State} (h : exec i s = .next t) : invocation i s = finish t := by
  simp only [invocation, h]

end Sys2Proof.Machine
end

