-- ==== Sys2Proof/Laws/Engines.lean ====
section
/-! SUPPORT. The engines' operand facts, and each row of the step tables as one Memory Port call. -/

namespace Sys2Proof.Machine

/-! ## Operands -/

/-- 40_dma_transpose.md R102: the grain code bounds the dimension. -/
theorem grainDim_cases (c : Operand) : grainDim c = 8 ∨ grainDim c = 16 ∨ grainDim c = 32 := by
  unfold grainDim
  split_ifs <;> simp

theorem grainDim_sq_pos (c : Operand) : 0 < grainDim c * grainDim c := by
  rcases grainDim_cases c with h | h | h <;> simp [h]

/-- The transposed index of a cell of an n by n buffer is a cell of it. -/
theorem transposeIndex_lt {n m : Nat} (h : m < n * n) : transposeIndex n m < n * n := by
  have hn : 0 < n := by
    rcases Nat.eq_zero_or_pos n with rfl | hn
    · simp at h
    · exact hn
  have h1 : m % n < n := Nat.mod_lt _ hn
  have h2 : m / n < n := Nat.div_lt_of_lt_mul h
  unfold transposeIndex
  nlinarith

/-- Transposing an index twice gives it back. -/
theorem transposeIndex_transposeIndex {n m : Nat} (h : m < n * n) :
    transposeIndex n (transposeIndex n m) = m := by
  have hn : 0 < n := by
    rcases Nat.eq_zero_or_pos n with rfl | hn
    · simp at h
    · exact hn
  have h2 : m / n < n := Nat.div_lt_of_lt_mul h
  have e1 : (m % n * n + m / n) % n = m / n := by
    rw [Nat.mul_comm, Nat.mul_add_mod, Nat.mod_eq_of_lt h2]
  have e2 : (m % n * n + m / n) / n = m % n := by
    rw [Nat.mul_comm, Nat.mul_add_div hn, Nat.div_eq_of_lt h2, Nat.add_zero]
  unfold transposeIndex
  rw [e1, e2, Nat.mul_comm]
  exact Nat.div_add_mod m n

/-- 42_crush.md R141: `C >> 1` is `floor(count/2)`. -/
theorem pairCount_eq (c : Operand) : pairCount c = c.toNat / 2 := by
  simp [pairCount, Nat.shiftRight_eq_div_pow]

/-! ## The rows of the step tables -/

section Rows

variable {s : State}

theorem dmaTick_rd (h : s.regs.phase = .rd) :
    dmaTick s = readWord (wordAddr s.params.xlen s.regs.b s.regs.idx) s fun w t => .next (dmaAfterRead w t) := by
  simp only [dmaTick, h]

theorem dmaTick_wr (h : s.regs.phase = .wr) :
    dmaTick s = writeWord (wordAddr s.params.xlen s.regs.a s.regs.idx)
      (bufCell s.discards s.regs.buf (transposeIndex s.regs.n s.regs.idx)) s fun t => .next (dmaAfterWrite t) := by
  simp only [dmaTick, h]

theorem sortTick_rd (h : s.regs.phase = .rd) :
    sortTick s = readWord (wordAddr s.params.xlen s.regs.a s.regs.idx) s fun w t => .next (sortAfterRead w t) := by
  simp only [sortTick, h]

theorem sortTick_srt (h : s.regs.phase = .srt) : sortTick s = .next (sortBuffer s) := by
  simp only [sortTick, h]

theorem sortTick_wr (h : s.regs.phase = .wr) :
    sortTick s = writeWord (wordAddr s.params.xlen s.regs.a s.regs.idx) (bufCell s.discards s.regs.buf s.regs.idx) s
      fun t => .next (sortAfterWrite t) := by
  simp only [sortTick, h]

theorem crushTick_r1 (h : s.regs.phase = .r1) :
    crushTick s = readByte (addrAt s.params.xlen s.regs.b (2 * s.regs.idx)) s
      fun v t => .next (crushAfterFirst v t) := by
  simp only [crushTick, h]

theorem crushTick_r2 (h : s.regs.phase = .r2) :
    crushTick s = readByte (addrAt s.params.xlen s.regs.b (2 * s.regs.idx + 1)) s
      fun v t => .next (crushAfterSecond v t) := by
  simp only [crushTick, h]

theorem crushTick_w (h : s.regs.phase = .w) :
    crushTick s = writeByte (addrAt s.params.xlen s.regs.a s.regs.idx) (packNibbles s.regs.v1 s.regs.v2) s
      fun t => .next (crushAfterWrite t) := by
  simp only [crushTick, h]

theorem expandTick_r (h : s.regs.phase = .r) :
    expandTick s = readByte (addrAt s.params.xlen s.regs.b s.regs.idx) s
      fun v t => .next (expandAfterRead v t) := by
  simp only [expandTick, h]

theorem expandTick_wl (h : s.regs.phase = .wl) :
    expandTick s = writeByte (addrAt s.params.xlen s.regs.a (2 * s.regs.idx)) (lowNibble s.regs.v1) s
      fun t => .next (expandAfterLow t) := by
  simp only [expandTick, h]

theorem expandTick_wh (h : s.regs.phase = .wh) :
    expandTick s = writeByte (addrAt s.params.xlen s.regs.a (2 * s.regs.idx + 1)) (highNibble s.regs.v1) s
      fun t => .next (expandAfterHigh t) := by
  simp only [expandTick, h]

end Rows

/-! ## Every row at once -/

/-- What the port does in a granted access `c` of a row: the writes of `c` land, the call is logged with the value
transferred, and nothing else changes. -/
def Performs (x : Xlen) (c : Access) (perform : State → State) : Prop :=
  ∀ t : State, t.params.xlen = x →
    ∃ d, perform t = { t with mem := Memory.replay x t.mem c, calls := t.calls ++ [{ c with data := some d }] }

theorem performReadWord_performs (x : Xlen) (a : Addr) :
    Performs x { kind := .read, size := .word, addr := a, data := none } (performReadWord a) :=
  fun _ _ => ⟨_, rfl⟩

theorem performReadByte_performs (x : Xlen) (a : Addr) :
    Performs x { kind := .read, size := .byte, addr := a, data := none } (performReadByte a) :=
  fun _ _ => ⟨_, rfl⟩

theorem performWriteWord_performs (x : Xlen) (a : Addr) (v : Word) :
    Performs x { kind := .write, size := .word, addr := a, data := some v } (performWriteWord a v) := by
  rintro t rfl
  exact ⟨_, rfl⟩

theorem performWriteByte_performs (x : Xlen) (a : Addr) (v : Byte) :
    Performs x { kind := .write, size := .byte, addr := a, data := some (v.setWidth 32) } (performWriteByte a v) := by
  rintro t rfl
  refine ⟨v.setWidth 32, ?_⟩
  have h : (v.setWidth 32).setWidth 8 = v := by
    apply BitVec.eq_of_toNat_eq
    simp
  simp [performWriteByte, Memory.replay, State.setMem, State.logCall, h]

/-- In RUN the step of a row is the Memory Port call the step table gives for it, and what follows the granted
access is a next state (10_state.md R36). -/
theorem step_row {s : State} {c : Access} (hi : s.Inv) (hst : s.st = .run)
    (hc : s.regs.nextCall s.params.xlen = some c) :
    ∃ (perform after : State → State), Performs s.params.xlen c perform ∧
      step s = portCall c.addr c.size c.kind perform s fun t => .next (after t) := by
  have hr := hi.2.2.1 hst
  rw [step_run hst]
  unfold Regs.Inv at hr
  unfold Regs.nextCall at hc
  obtain ⟨-, -, -, hr⟩ := hr
  split at hc <;> cases hc <;> rename_i hop hph <;> simp only [hop] at hr ⊢
  · exact ⟨_, _, performReadWord_performs _ _, dmaTick_rd hph⟩
  · obtain ⟨-, hidx, hbuf⟩ := hr
    have hlen : s.regs.buf.length = s.regs.n * s.regs.n := by simpa [hph] using hbuf
    rw [dmaTick_wr hph, bufCell_of_lt (by rw [hlen]; exact transposeIndex_lt hidx)]
    exact ⟨_, _, performWriteWord_performs _ _ _, rfl⟩
  · exact ⟨_, _, performReadWord_performs _ _, sortTick_rd hph⟩
  · obtain ⟨-, -, hidx, hbuf⟩ := hr
    have hlen : s.regs.buf.length = s.regs.len := by simpa [hph] using hbuf
    rw [sortTick_wr hph, bufCell_of_lt (by rw [hlen]; exact hidx)]
    exact ⟨_, _, performWriteWord_performs _ _ _, rfl⟩
  · exact ⟨_, _, performReadByte_performs _ _, crushTick_r1 hph⟩
  · exact ⟨_, _, performReadByte_performs _ _, crushTick_r2 hph⟩
  · exact ⟨_, _, performWriteByte_performs _ _ _, crushTick_w hph⟩
  · exact ⟨_, _, performReadByte_performs _ _, expandTick_r hph⟩
  · exact ⟨_, _, performWriteByte_performs _ _ _, expandTick_wl hph⟩
  · exact ⟨_, _, performWriteByte_performs _ _ _, expandTick_wh hph⟩

/-! ## Reset -/

/-- Memory after reset is canonical. -/
theorem reset_mem_wf : State.reset.mem.wf = true := rfl

end Sys2Proof.Machine
end

