-- ==== Sys2Proof/Laws/PerInstr.lean ====
section
/-! SUPPORT. What holds of every command, one lemma per constructor of `Instr`. -/

/-- The opcode table's match: bits 1:0 of a command's word are its operation code, whatever its operands are
(30_encoding.md R86, R93). -/
def Sys2Proof.Laws.EncodeMatch.Statement (i : Sys2Proof.Instr) : Prop :=
  ∀ x : Sys2Proof.Xlen, (Sys2Proof.encode x i).toNat % 4 = Sys2Proof.opCode i.op

/-- Every operand of the command word stands above bit 1, so the two low bits are the operation code. -/
theorem Sys2Proof.Laws.commandWord_low_bits (x : Sys2Proof.Xlen) (op a b c : Nat) (h : op < 4) :
    (BitVec.ofNat 194 (op + a * 2 ^ 2 + b * 2 ^ (x.bits + 2) + c * 2 ^ (2 * x.bits + 2))).toNat % 4 = op := by
  cases x <;> simp only [Sys2Proof.Xlen.bits, BitVec.toNat_ofNat] <;> omega

theorem Sys2Proof.Laws.EncodeMatch.dma (dst src : Sys2Proof.Addr) (grainCode : Sys2Proof.Operand) :
    Sys2Proof.Laws.EncodeMatch.Statement (.dma dst src grainCode) :=
  fun x => Sys2Proof.Laws.commandWord_low_bits x 0 _ _ _ (by decide)

theorem Sys2Proof.Laws.EncodeMatch.sort (addr : Sys2Proof.Addr) (arrayLen sortLen : Sys2Proof.Operand) :
    Sys2Proof.Laws.EncodeMatch.Statement (.sort addr arrayLen sortLen) :=
  fun x => Sys2Proof.Laws.commandWord_low_bits x 1 _ _ _ (by decide)

theorem Sys2Proof.Laws.EncodeMatch.crush (dst src : Sys2Proof.Addr) (count : Sys2Proof.Operand) :
    Sys2Proof.Laws.EncodeMatch.Statement (.crush dst src count) :=
  fun x => Sys2Proof.Laws.commandWord_low_bits x 2 _ _ _ (by decide)

theorem Sys2Proof.Laws.EncodeMatch.expand (dst src : Sys2Proof.Addr) (count : Sys2Proof.Operand) :
    Sys2Proof.Laws.EncodeMatch.Statement (.expand dst src count) :=
  fun x => Sys2Proof.Laws.commandWord_low_bits x 3 _ _ _ (by decide)
end

