-- ==== Sys2Proof/Tests/Slice0.lean ====
section
/-! SUPPORT. The model's own tests: ill-formed terms, words written out from the spec's encoding, the vectors of
95_test_vectors.md, and for each statement with hypotheses a state and operands that meet them. -/

namespace Sys2Proof.Tests

open Sys2Proof.Machine

/-! ## Helpers -/

/-- What holds of the next state, if there is one. -/
def after (o : Result) (p : State → Bool) : Bool :=
  match o with
  | .next t => p t
  | .fault _ => false
  | .refused _ => false

def withBytes (m : Memory) (base : Nat) : List Byte → Memory
  | [] => m
  | v :: vs => withBytes (m.write base v) (base + 1) vs

def withWords (x : Xlen) (m : Memory) (base : Addr) (ws : List Word) : Memory :=
  storeWords x m base (fun k => ws.getD k 0) ws.length

def bytesOf (x : Xlen) (m : Memory) (base : Addr) (n : Nat) : List Byte :=
  (List.range n).map (byteAt x m base)

/-- A machine after reset with memory `m`. -/
def machine (x : Xlen) (m : Memory) : State :=
  { State.reset with mem := m, params := { xlen := x, enforceAlign := false } }

/-- The port fails access `k`, counted from 1. -/
def failing (k : Nat) (s : State) : State :=
  { s with env := List.replicate (k - 1) Turn.quiet ++ [{ moves := [], answer := .refuses }] }

/-- The port refuses accesses of a kind to one byte location. -/
def refusing (kind : Kind) (a : Nat) (s : State) : State :=
  { s with denied := [{ lo := a, hi := a, kind := kind }] }

/-! ## Ill-formed terms: an operand that XLEN = 32 cannot hold -/

def tooBig : Operand := 0x100000000

theorem test_dma_ill_formed :
    (Instr.dma tooBig 0 0).wf .x32 = false ∧ (Instr.dma 0 tooBig 0).wf .x32 = false ∧
      (Instr.dma 0 0 tooBig).wf .x32 = false ∧ (Instr.dma 0xFFFFFFFF 0xFFFFFFFF 0xFFFFFFFF).wf .x32 = true := by
  decide

theorem test_sort_ill_formed :
    (Instr.sort tooBig 0 0).wf .x32 = false ∧ (Instr.sort 0 tooBig 0).wf .x32 = false ∧
      (Instr.sort 0 0 tooBig).wf .x32 = false ∧ (Instr.sort tooBig tooBig tooBig).wf .x64 = true := by
  decide

theorem test_crush_ill_formed :
    (Instr.crush tooBig 0 0).wf .x32 = false ∧ (Instr.crush 0 tooBig 0).wf .x32 = false ∧
      (Instr.crush 0 0 tooBig).wf .x32 = false := by
  decide

theorem test_expand_ill_formed :
    (Instr.expand tooBig 0 0).wf .x32 = false ∧ (Instr.expand 0 tooBig 0).wf .x32 = false ∧
      (Instr.expand 0 0 tooBig).wf .x32 = false := by
  decide

/-! ## Decoding: words written out bit by bit from 30_encoding.md R85, R86 (C, B, A, op from the top down) -/

theorem test_decode_dma_word :
    decode .x32 (0#96 ++ (0x00000002#32 ++ 0x00001000#32 ++ 0x80002000#32 ++ 0b00#2)) =
      .dma 0x80002000 0x1000 2 := by
  decide

theorem test_decode_sort_word :
    decode .x64 (0x8000000000000003#64 ++ 0x0000000000000005#64 ++ 0x0000000000003000#64 ++ 0b01#2) =
      .sort 0x3000 5 0x8000000000000003 := by
  decide

theorem test_decode_crush_word :
    decode .x64 (0x0000000000000005#64 ++ 0x0000000000005000#64 ++ 0xFFFFFFFFFFFFFFFF#64 ++ 0b10#2) =
      .crush 0xFFFFFFFFFFFFFFFF 0x5000 5 := by
  decide

theorem test_decode_expand_word :
    decode .x32 (0#96 ++ (0xFFFFFFFF#32 ++ 0x00005000#32 ++ 0x00006001#32 ++ 0b11#2)) =
      .expand 0x6001 0x5000 0xFFFFFFFF := by
  decide

/-- V-ENC-3: `CMD` = 0 is `DMA 0, 0, 0`. -/
theorem test_decode_zero_word : decodeTableWord 8 0 = some (.dma 0 0 0) := by decide

/-- V-ENC-1, one row per command, encoded. -/
theorem test_encode_words :
    encode .x32 (.dma 0x2000 0x1000 7) = 0x00000001C0000400000008000 ∧
      encode .x64 (.sort 0x6000 2 2) = 0x0000000000000000800000000000000080000000000018001 ∧
      encode .x32 (.crush 0x6000 0x5000 5) = 0x0000000140001400000018002 ∧
      encode .x64 (.expand 0x6000 0x5000 4) = 0x0000000000000001000000000000140000000000000018003 := by
  decide

/-- V-ENC-2. -/
theorem test_response_words :
    Response.ok.word = 0 ∧ (Response.addressFault 0x1024 .read .word).word = 0x8125 ∧
      (Response.addressFault 0x2028 .write .word).word = 0x10147 ∧
      (Response.addressFault 0x5001 .read .byte).word = 0x28009 ∧
      (Response.addressFault 0x6001 .write .byte).word = 0x3000B := by
  decide

/-- 30_encoding.md R92, its example. -/
theorem test_assemble_sort :
    assemble .x64 ['S', 'O', 'R', 'T', ' ', '0', 'x', '3', '0', '0', '0', ',', ' ', '5', ',', ' ', '3'] =
      some (.sort 0x3000 5 3) := by
  decide

/-- A space inside a literal makes the line no command (log 15). -/
theorem test_assemble_split_literal :
    assemble .x64 ['S', 'O', 'R', 'T', ' ', '1', ' ', '2', ',', '3', ',', '4'] = none := by
  decide

/-! ## The reference memory -/

/-- V-MEM-1. -/
theorem test_byte_order :
    bytesOf .x64 (Memory.writeWord .x64 [] 0x100 0x04030201) 0x100 4 = [1, 2, 3, 4] ∧
      Memory.readWord .x64 (withBytes [] 0x100 [5, 6, 7, 8]) 0x100 = 0x08070605 := by
  decide

/-- V-MEM-2. -/
theorem test_word_wraps :
    Memory.readWord .x32 (withBytes (withBytes [] 0 [0x33, 0x44]) 0xFFFFFFFE [0x11, 0x22]) 0xFFFFFFFE =
      0x44332211 := by
  decide

/-- The canonical form: writing the value an unlisted location reads as removes the entry (log 4). -/
theorem test_write_zero_removes : Memory.write (withBytes [] 7 [1, 2]) 7 0 = [(8, 2)] := by decide

/-! ## The commands -/

/-- The matrix of V-DMA-2 at 0x1000. -/
def matrix8 : Memory :=
  withWords .x64 [] 0x1000 ((List.range 64).map fun k => BitVec.ofNat 32 (k / 8 * 256 + k % 8))

/-- V-DMA-9: a fault at access 75, in the write phase. -/
theorem test_dma_write_fault :
    after (invocation (.dma 0x2000 0x1000 0) (failing 75 (machine .x64 matrix8))) (fun t =>
      t.responses == [.addressFault 0x2028 .write .word] && t.calls.length == 75 &&
        wordsAt .x64 t.mem 0x2000 12 == [0, 0x100, 0x200, 0x300, 0x400, 0x500, 0x600, 0x700, 1, 0x101, 0, 0]) =
      true := by
  decide +kernel

/-- V-DMA-10: the reads wrap past the top of a 32-bit space; V-DMA-1: grain 7 is 8 by 8. -/
theorem test_dma_wraps :
    after (invocation (.dma 0x2000 0xFFFFFFF0 7) (machine .x32 [])) (fun t =>
      (t.calls.map Access.addr).take 6 == [0xFFFFFFF0, 0xFFFFFFF4, 0xFFFFFFF8, 0xFFFFFFFC, 0, 4] &&
        t.calls.length == 128) = true := by
  decide +kernel

/-- V-SRC-5 and V-SORT-1. -/
theorem test_sort_prefix :
    after (invocation (.sort 0x3000 5 3) (machine .x64 (withWords .x64 [] 0x3000 [5, 3, 1, 4, 2]))) (fun t =>
      wordsAt .x64 t.mem 0x3000 5 == [1, 3, 5, 4, 2] && t.calls.length == 10) = true := by
  decide +kernel

/-- V-SORT-5 and V-SORT-11: unsigned order, over the wrap of a 32-bit space. -/
theorem test_sort_unsigned_wraps :
    after (invocation (.sort 0xFFFFFFF8 4 4)
        (machine .x32 (withWords .x32 [] 0xFFFFFFF8 [0x80000000, 0x7FFFFFFF, 0xFFFFFFFF, 0]))) (fun t =>
      wordsAt .x32 t.mem 0xFFFFFFF8 2 == [0, 0x7FFFFFFF] && wordsAt .x32 t.mem 0 2 == [0x80000000, 0xFFFFFFFF]) =
      true := by
  decide +kernel

/-- V-CRUSH-8: the destination inside the unread part of the source. -/
theorem test_crush_hazard :
    after (invocation (.crush 0x5002 0x5000 6) (machine .x64 (withBytes [] 0x5000 [1, 2, 3, 4, 5, 6]))) (fun t =>
      bytesOf .x64 t.mem 0x5000 6 == [1, 2, 0x21, 0x41, 0x65, 6]) = true := by
  decide +kernel

/-- V-CRUSH-9: a fault on the second read of the second pair; the odd last byte is not reached. -/
theorem test_crush_fault :
    after (invocation (.crush 0x6000 0x5000 5) (failing 5 (machine .x64 (withBytes [] 0x5000 [1, 2, 3, 4, 9]))))
        (fun t =>
      t.responses == [.addressFault 0x5003 .read .byte] && bytesOf .x64 t.mem 0x6000 2 == [0x21, 0]) = true := by
  decide +kernel

/-- V-EXPAND-5: source and destination across the wrap of a 32-bit space. -/
theorem test_expand_wraps :
    after (invocation (.expand 0xFFFFFFFE 0xFFFFFFFF 2)
        (machine .x32 (withBytes (withBytes [] 0 [0xDC]) 0xFFFFFFFF [0xBA]))) (fun t =>
      bytesOf .x32 t.mem 0xFFFFFFFE 4 == [0x0A, 0x0B, 0x0C, 0x0D] && t.responses == [.ok]) = true := by
  decide +kernel

/-- V-EXPAND-8: a fault on the high nibble leaves the low nibble written. -/
theorem test_expand_fault :
    after (invocation (.expand 0x6000 0x5000 2) (failing 3 (machine .x64 (withBytes [] 0x5000 [0x21, 0x43]))))
        (fun t =>
      t.responses == [.addressFault 0x6001 .write .byte] && t.mem.read 0x6000 == 1 && t.mem.read 0x6001 == 0) =
      true := by
  decide +kernel

/-- The first step after reset takes the word placed on the command channel: EXPAND 0, 0, 0 has nothing to do,
DMA 0, 0, 0 goes to RUN (10_state.md R36). -/
theorem test_step_runs_placed_word :
    after (step (State.reset.withFetchWord 8 3)) (fun t => t.responses == [.ok] && t.offered == []) = true ∧
      after (step (State.reset.withFetchWord 8 0)) (fun t =>
        t.st == .run && t.regs.phase == .rd && t.calls == [] && t.responses == []) = true := by
  decide

/-- 70_reset_and_hazards.md R201: reset while the last write of a CRUSH is in progress. The write has happened, no
response is given. -/
theorem test_reset_in_last_call :
    after (invocation (.crush 0x6000 0x5000 2)
        { machine .x64 (withBytes [] 0x5000 [1, 2]) with
          env := [Turn.quiet, Turn.quiet, { moves := [], answer := .byMapThenReset }] }) (fun t =>
      t.mem.read 0x6000 == 0x21 && t.st == .idle && t.responses == [] && t.calls.length == 3) = true := by
  decide +kernel

/-- 20_memory.md R73: the second write of a CRUSH does not return. The first is in memory, the CORE is in RUN. -/
theorem test_call_that_does_not_return :
    after (invocation (.crush 0x6000 0x5000 4)
        { machine .x64 (withBytes [] 0x5000 [1, 2, 3, 4]) with
          env := List.replicate 5 Turn.quiet ++ [{ moves := [], answer := .pending }] }) (fun t =>
      bytesOf .x64 t.mem 0x6000 2 == [0x21, 0] && t.st == .run && t.outstanding && t.responses == [] &&
        t.calls.length == 5 && after (step t) (fun u => u == t)) = true := by
  decide +kernel

/-! ## States that meet the hypotheses of the statements -/

/-- After reset every access is granted, at any address. -/
theorem reset_words_open (k : Kind) (a : Addr) (n : Nat) : State.reset.wordsOpen k a n :=
  fun _ _ => accessible_of_open rfl rfl _ _ _

theorem reset_bytes_open (k : Kind) (a : Addr) (n : Nat) : State.reset.bytesOpen k a n :=
  fun _ _ => accessible_of_open rfl rfl _ _ _

theorem reset_ready : State.reset.Ready := ⟨rfl, rfl⟩

/-- A CORE in the middle of an invocation. -/
def running (r : Regs) : State := { State.reset with st := .run, regs := r }

def dmaReading : Regs := { Regs.reset with op := .dma, n := 8, phase := .rd }

def dmaWriting : Regs :=
  { Regs.reset with op := .dma, n := 8, phase := .wr, idx := 63, buf := List.replicate 64 5 }

def sortReading : Regs := { Regs.reset with op := .sort, b := 2, c := 1, len := 2, eff := 1, phase := .rd }

def sortSorting : Regs := { sortReading with phase := .srt, buf := [5, 3] }

def sortWriting : Regs := { sortReading with phase := .wr, idx := 1, buf := [5, 3] }

def crushAt (p : Phase) : Regs := { Regs.reset with op := .crush, c := 4, iter := 2, phase := p, idx := 1 }

def expandAt (p : Phase) : Regs := { Regs.reset with op := .expand, c := 2, iter := 2, phase := p, idx := 1 }

theorem dmaReading_inv : (running dmaReading).Inv :=
  ⟨rfl, rfl, fun _ => ⟨by decide, by decide, by decide, rfl, by decide, .inl ⟨rfl, rfl⟩⟩, nofun⟩

theorem dmaWriting_inv : (running dmaWriting).Inv :=
  ⟨rfl, rfl, fun _ => ⟨by decide, by decide, by decide, rfl, by decide, .inr ⟨rfl, rfl⟩⟩, nofun⟩

theorem sortReading_inv : (running sortReading).Inv :=
  ⟨rfl, rfl, fun _ => ⟨by decide, by decide, by decide, rfl, rfl, by decide, .inl ⟨rfl, rfl⟩⟩, nofun⟩

theorem sortSorting_inv : (running sortSorting).Inv :=
  ⟨rfl, rfl, fun _ => ⟨by decide, by decide, by decide, rfl, rfl, by decide, .inr (.inl ⟨rfl, rfl, rfl⟩)⟩, nofun⟩

theorem sortWriting_inv : (running sortWriting).Inv :=
  ⟨rfl, rfl, fun _ => ⟨by decide, by decide, by decide, rfl, rfl, by decide, .inr (.inr ⟨rfl, rfl⟩)⟩, nofun⟩

theorem crushAt_inv {p : Phase} (h : p = .r1 ∨ p = .r2 ∨ p = .w) : (running (crushAt p)).Inv :=
  ⟨rfl, rfl, fun _ => ⟨rfl, rfl, rfl, (by decide : 2 = pairCount 4), Nat.lt_add_one 1, h⟩, nofun⟩

theorem expandAt_inv {p : Phase} (h : p = .r ∨ p = .wl ∨ p = .wh) : (running (expandAt p)).Inv :=
  ⟨rfl, rfl, fun _ => ⟨rfl, rfl, rfl, rfl, Nat.lt_add_one 1, h⟩, nofun⟩

theorem running_undisturbed (r : Regs) : (running r).Undisturbed := ⟨rfl, rfl, rfl⟩

/-! ### Command words -/

theorem witness_DecodeEncodeRoundTrip : (Instr.sort 0xFFFFFFFF 0 0xFFFFFFFF).wf .x32 = true := by decide

theorem witness_EveryWordIsOneCommand : (BitVec.ofNat 194 (2 ^ 98 - 1)).toNat < 2 ^ (3 * Xlen.x32.bits + 2) := by
  decide

theorem witness_CommandWordLayout :
    (Instr.expand 0xFFFFFFFFFFFFFFFF 0xFFFFFFFFFFFFFFFF 0xFFFFFFFFFFFFFFFF).wf .x64 = true := by
  decide

theorem witness_ResponseWordLayout : Xlen.x32.fits 0xFFFFFFFF = true := by decide

/-! ### Steps, the channel, reset -/

theorem witness_StepRunsOfferedCommand :
    ((State.reset.withFetchWord 8 1).st = .idle ∧ (State.reset.withFetchWord 8 1).offered = 1 :: []) ∧
      (running (crushAt .w)).st = .run :=
  ⟨⟨rfl, rfl⟩, rfl⟩

theorem witness_IdleCoreDoesNothing : State.reset.Ready ∧ State.reset.offered = [] := ⟨reset_ready, rfl⟩

theorem witness_OfferedCommandWaitsInRun :
    (running sortSorting).st = .run ∧ Instr.dma 0 0 0 ≠ (running sortSorting).regs.command ∧
      step (running sortSorting) = .next (sortBuffer (running sortSorting)) :=
  ⟨rfl, by decide, rfl⟩

/-- A CORE in RUN at the registers `r`, and one turn of the outside. -/
def facing (r : Regs) (moves : List Move) (ans : Answer) : State :=
  { running r with env := [{ moves := moves, answer := ans }] }

/-- Reset before the next call, and reset in the last call of an invocation. -/
theorem witness_ResetEndsInvocation :
    ((facing dmaReading [.reset] .pending).Inv ∧ (facing dmaReading [.reset] .pending).st = .run ∧
        (facing dmaReading [.reset] .pending).regs.phase ≠ .srt) ∧
      (facing (crushAt .w) [.write 3 4] .byMapThenReset).Inv ∧
      (crushAt .w).nextCall .x64 = some { kind := .write, size := .byte, addr := 1, data := some 0 } ∧
      Move.reset ∉ [Move.write 3 4] ∧
      (facing (crushAt .w) [.write 3 4] .byMapThenReset).atCall.accessible 1 .byte .write = true :=
  ⟨⟨dmaReading_inv, rfl, by decide⟩, crushAt_inv (by simp), by decide, by decide, by decide⟩

/-! ### Whole-machine rules -/

theorem witness_StepKeepsInvariant :
    (running sortSorting).Inv ∧ step (running sortSorting) = .next (sortBuffer (running sortSorting)) :=
  ⟨sortSorting_inv, rfl⟩

theorem witness_NoForeignPhase : (running (crushAt .w)).Inv ∧ (running (expandAt .wh)).Inv :=
  ⟨crushAt_inv (by simp), expandAt_inv (by simp)⟩

/-- Another actor writes, offers a command, and the port refuses an access. -/
def busyOutside : State :=
  { State.reset with
    env := [{ moves := [.write 3 4, .offer 1], answer := .byMap }, { moves := [], answer := .refuses }] }

theorem busyOutside_no_reset : busyOutside.NoReset := by
  intro t ht
  simp only [busyOutside, List.mem_cons, List.not_mem_nil, or_false] at ht
  rcases ht with rfl | rfl <;> simp

theorem witness_EveryCommandGetsOneResponse :
    busyOutside.st = .idle ∧ busyOutside.NoReset ∧ busyOutside.PortReturns :=
  ⟨rfl, busyOutside_no_reset, by unfold State.PortReturns; decide⟩

/-- An invocation that a call stops in RUN, a call that does not return, and one that never does. -/
theorem witness_OnlyAHangingPortStops :
    after (invocation (.expand 0 0 1) { State.reset with env := [{ moves := [], answer := .pending }] })
        (fun t => t.st == .run && t.outstanding) = true ∧
      ((facing (expandAt .wl) [.write 3 4] .pending).Inv ∧ (expandAt .wl).phase ≠ .srt ∧
        Move.reset ∉ [Move.write 3 4]) ∧
      ({ running (expandAt .wl) with outstanding := true } : State).Inv :=
  ⟨by decide +kernel, ⟨expandAt_inv (by simp), by decide, by decide⟩,
    rfl, rfl, (expandAt_inv (p := .wl) (by simp)).2.2.1, fun _ => ⟨rfl, by decide⟩⟩

theorem witness_OldRegistersNeverObserved :
    busyOutside.st = .idle ∧ busyOutside.regs ≠ { Regs.reset with v1 := 7, buf := [1] } := by
  decide

theorem witness_LatchedCommandHolds :
    (running sortSorting).st = .run ∧ step (running sortSorting) = .next (sortBuffer (running sortSorting)) ∧
      (sortBuffer (running sortSorting)).st = .run :=
  ⟨rfl, rfl, rfl⟩

theorem witness_ParametersFixed : step (running sortSorting) = .next (sortBuffer (running sortSorting)) := rfl

/-- A command with accesses answers a next state, with an OK or with an AddressFault. -/
theorem witness_AccessWidths :
    after (invocation (.crush 0 8 2) busyOutside) (fun t => t.calls.length == 2) = true ∧
      after (invocation (.sort 0 1 1) State.reset) (fun t => t.calls.length == 2) = true := by
  decide +kernel

theorem witness_FirstFaultEndsTheCommand :
    busyOutside.st = .idle ∧ busyOutside.NoReset ∧
      after (invocation (.crush 0 8 2) busyOutside) (fun t =>
        t.st == .idle && t.responses == [.addressFault 9 .read .byte]) = true ∧
      after (invocation (.crush 0 8 2) State.reset) (fun t => t.st == .idle && t.responses == [.ok]) = true :=
  ⟨rfl, busyOutside_no_reset, by decide +kernel, by decide +kernel⟩

theorem witness_MemoryIsTheWritesReplayed :
    State.reset.Ready ∧
      after (invocation (.expand 0 0 1) (machine .x64 [(0, 0x21)])) (fun t => t.calls.length == 3) = true :=
  ⟨reset_ready, by decide +kernel⟩

theorem witness_TrafficCounts :
    State.reset.st = .idle ∧ (Instr.expand 0 0 1).wf State.reset.params.xlen = true ∧
      after (invocation (.expand 0 0 1) State.reset) (fun t => t.responses == [.ok]) = true := by
  decide +kernel

theorem witness_StepTablesMeetPseudocode : busyOutside.st = .idle := rfl

/-! ### The Memory Port -/

theorem witness_WordsAreLittleEndian : Memory.wf [(2, 7), (5, 1)] = true := by decide

/-- The port enforces alignment. -/
def aligned : State := { State.reset with params := { xlen := .x64, enforceAlign := true } }

theorem witness_MisalignedBaseFaultsAtOnce :
    aligned.Ready ∧ aligned.params.enforceAlign = true ∧ aligned.params.xlen.fits 0x1001 = true ∧
      (0x1001 : Addr).toNat % 4 ≠ 0 ∧ aligned.params.xlen.fits 1 = true ∧ (1 : Operand) ≠ 0 :=
  ⟨⟨rfl, rfl⟩, rfl, by decide, by decide, by decide, by decide⟩

/-- The port refuses the access of a row after another actor's write. -/
theorem witness_RefusedAccessTransfersNothing :
    (facing (crushAt .w) [.write 3 4] .refuses).Inv ∧ (facing (crushAt .w) [.write 3 4] .refuses).st = .run ∧
      (crushAt .w).nextCall .x64 = some { kind := .write, size := .byte, addr := 1, data := some 0 } ∧
      Move.reset ∉ [Move.write 3 4] :=
  ⟨crushAt_inv (by simp), rfl, by decide, by decide⟩

/-- A read of each engine, and a write, that another actor's write comes before. -/
theorem witness_ReadSeesOtherActorsWrite :
    ((facing dmaReading [.write 1 9] .byMap).Inv ∧ (facing sortReading [.write 1 9] .byMap).Inv ∧
        (facing (crushAt .r1) [.write 1 9] .byMap).Inv ∧ (facing (crushAt .r2) [.write 1 9] .byMap).Inv ∧
        (facing (expandAt .r) [.write 1 9] .byMap).Inv ∧ (facing dmaWriting [.write 1 9] .byMap).Inv) ∧
      ((dmaReading.nextCall .x64).map Access.kind = some .read ∧
        (sortReading.nextCall .x64).map Access.kind = some .read ∧
        ((crushAt .r1).nextCall .x64).map Access.kind = some .read ∧
        ((crushAt .r2).nextCall .x64).map Access.kind = some .read ∧
        ((expandAt .r).nextCall .x64).map Access.kind = some .read ∧
        (dmaWriting.nextCall .x64).map Access.kind = some .write) ∧
      Move.reset ∉ [Move.write 1 9] ∧
      (facing (expandAt .r) [.write 1 9] .byMap).atCall.accessible 1 .byte .read = true :=
  ⟨⟨dmaReading_inv, sortReading_inv, crushAt_inv (by simp), crushAt_inv (by simp), expandAt_inv (by simp),
    dmaWriting_inv⟩, by decide, by decide, by decide⟩

/-! ### DMA -/

theorem witness_GrainTable : (3 : Operand) ≠ 0 ∧ (3 : Operand) ≠ 1 ∧ (3 : Operand) ≠ 2 := by decide

theorem witness_DmaStepTable :
    (State.reset.st = .idle ∧ (Instr.dma 5 6 3).wf State.reset.params.xlen = true) ∧
      ((running dmaReading).Inv ∧ (running dmaReading).Undisturbed ∧ dmaReading.command = .dma 0 0 0) ∧
      (running dmaWriting).Inv ∧ (running dmaWriting).Undisturbed ∧ dmaWriting.command = .dma 0 0 0 :=
  ⟨by decide, ⟨dmaReading_inv, running_undisturbed _, rfl⟩, dmaWriting_inv, running_undisturbed _, rfl⟩

theorem witness_DmaCompletes :
    State.reset.Ready ∧ (Instr.dma 0x2000 0x1000 2).wf State.reset.params.xlen = true ∧
      State.reset.wordsOpen .read 0x1000 (grainDim 2 * grainDim 2) ∧
      State.reset.wordsOpen .write 0x2000 (grainDim 2 * grainDim 2) :=
  ⟨reset_ready, by decide, reset_words_open _ _ _, reset_words_open _ _ _⟩

/-- Regions a page apart are disjoint. -/
theorem disjoint_pages (x : Xlen) {n m : Nat} (hn : n ≤ 0x1000) (hm : m ≤ 0x1000) :
    Disjoint x 0x2000 n 0x1000 m := by
  intro i hi j hj
  cases x <;> simp [Xlen.size, Xlen.bits] <;> omega

theorem witness_DmaTransposes :
    State.reset.Ready ∧ State.reset.mem.wf = true ∧ (Instr.dma 0x2000 0x1000 2).wf State.reset.params.xlen = true ∧
      State.reset.wordsOpen .read 0x1000 (grainDim 2 * grainDim 2) ∧
      State.reset.wordsOpen .write 0x2000 (grainDim 2 * grainDim 2) ∧
      Disjoint .x64 0x2000 (4 * (grainDim 2 * grainDim 2)) 0x1000 (4 * (grainDim 2 * grainDim 2)) :=
  ⟨reset_ready, rfl, by decide, reset_words_open _ _ _, reset_words_open _ _ _,
    disjoint_pages .x64 (by decide) (by decide)⟩

theorem witness_DmaTwiceRestores :
    State.reset.Ready ∧ State.reset.mem.wf = true ∧ (Instr.dma 0x2000 0x1000 2).wf State.reset.params.xlen = true ∧
      State.reset.wordsOpen .read 0x1000 (grainDim 2 * grainDim 2) ∧
      State.reset.wordsOpen .write 0x1000 (grainDim 2 * grainDim 2) ∧
      State.reset.wordsOpen .read 0x2000 (grainDim 2 * grainDim 2) ∧
      State.reset.wordsOpen .write 0x2000 (grainDim 2 * grainDim 2) ∧
      Disjoint .x64 0x2000 (4 * (grainDim 2 * grainDim 2)) 0x1000 (4 * (grainDim 2 * grainDim 2)) :=
  ⟨reset_ready, rfl, by decide, reset_words_open _ _ _, reset_words_open _ _ _, reset_words_open _ _ _,
    reset_words_open _ _ _, disjoint_pages .x64 (by decide) (by decide)⟩

/-- The last access of the read phase refused, then the last access of the write phase. -/
theorem witness_DmaFaultLeavesPrefix :
    (refusing .read 0x10FC State.reset).Ready ∧ (Instr.dma 0x2000 0x1000 0).wf .x64 = true ∧
      63 < grainDim 0 * grainDim 0 ∧ (refusing .read 0x10FC State.reset).wordsOpen .read 0x1000 63 ∧
      (refusing .read 0x10FC State.reset).accessible (wordAddr .x64 0x1000 63) .word .read = false ∧
      (refusing .write 0x20FC State.reset).wordsOpen .read 0x1000 64 ∧
      (refusing .write 0x20FC State.reset).wordsOpen .write 0x2000 63 ∧
      (refusing .write 0x20FC State.reset).accessible (wordAddr .x64 0x2000 63) .word .write = false := by
  unfold State.Ready State.wordsOpen
  decide +kernel

theorem witness_DmaFrame :
    State.reset.Ready ∧
      after (invocation (.dma 0x2000 0x1000 0) State.reset) (fun t => t.calls.length == 128) = true :=
  ⟨reset_ready, by decide +kernel⟩

/-! ### SORT -/

theorem witness_SortAscendingUnsigned :
    ([0, 0x80000000] : List Word).Perm [0x80000000, 0] ∧
      ([0, 0x80000000] : List Word).Pairwise (fun a b => a.toNat ≤ b.toNat) := by
  decide

theorem witness_SortStepTable :
    ((Instr.sort 5 0 7).wf State.reset.params.xlen = true ∧ (Instr.sort 5 1 7).wf State.reset.params.xlen = true) ∧
      ((running sortReading).Inv ∧ (running sortSorting).Inv ∧ (running sortWriting).Inv) ∧
      ((running sortReading).Undisturbed ∧ (running sortSorting).Undisturbed ∧ (running sortWriting).Undisturbed) ∧
      sortReading.command = .sort 0 2 1 ∧ sortSorting.command = .sort 0 2 1 ∧ sortWriting.command = .sort 0 2 1 :=
  ⟨by decide, ⟨sortReading_inv, sortSorting_inv, sortWriting_inv⟩,
    ⟨running_undisturbed _, running_undisturbed _, running_undisturbed _⟩, rfl, rfl, rfl⟩

theorem witness_SortCompletes :
    State.reset.Ready ∧ (Instr.sort 0x3001 5 100).wf State.reset.params.xlen = true ∧
      State.reset.wordsOpen .read 0x3001 (5 : Operand).toNat ∧
      State.reset.wordsOpen .write 0x3001 (5 : Operand).toNat :=
  ⟨reset_ready, by decide, reset_words_open _ _ _, reset_words_open _ _ _⟩

theorem witness_SortLaw :
    State.reset.Ready ∧ State.reset.mem.wf = true ∧ (Instr.sort 0x3001 5 3).wf State.reset.params.xlen = true ∧
      4 * (5 : Operand).toNat < 2 ^ State.reset.params.xlen.bits ∧
      State.reset.wordsOpen .read 0x3001 (5 : Operand).toNat ∧
      State.reset.wordsOpen .write 0x3001 (5 : Operand).toNat :=
  ⟨reset_ready, rfl, by decide, by decide, reset_words_open _ _ _, reset_words_open _ _ _⟩

theorem witness_SortTwiceIsSortOnce :
    State.reset.Ready ∧ State.reset.mem.wf = true ∧ (Instr.sort 0 2 2).wf State.reset.params.xlen = true ∧
      4 * (2 : Operand).toNat < 2 ^ State.reset.params.xlen.bits ∧
      State.reset.wordsOpen .read 0 (2 : Operand).toNat ∧ State.reset.wordsOpen .write 0 (2 : Operand).toNat :=
  ⟨reset_ready, rfl, by decide, by decide, reset_words_open _ _ _, reset_words_open _ _ _⟩

theorem witness_SortLenIsClamped :
    busyOutside.st = .idle ∧ busyOutside.params.xlen.fits 5 = true ∧ busyOutside.params.xlen.fits 100 = true ∧
      (5 : Operand).toNat ≤ (100 : Operand).toNat := by
  decide

/-- `arrayLen` = 0 in a machine whose port refuses the address (V-SORT-7), and `arrayLen` = 1. -/
theorem witness_SortEmptyArray :
    (refusing .read 0x3000 State.reset).st = .idle ∧ State.reset.Ready ∧
      (Instr.sort 0x3000 1 0).wf State.reset.params.xlen = true ∧
      State.reset.wordsOpen .read 0x3000 (1 : Operand).toNat ∧
      State.reset.wordsOpen .write 0x3000 (1 : Operand).toNat :=
  ⟨rfl, reset_ready, by decide, reset_words_open _ _ _, reset_words_open _ _ _⟩

/-- The last read refused, then the last write (V-SORT-9 has earlier ones). -/
theorem witness_SortFaultLeavesPrefix :
    (refusing .read 0x3010 State.reset).Ready ∧ (Instr.sort 0x3000 5 5).wf .x64 = true ∧
      4 < (5 : Operand).toNat ∧ (refusing .read 0x3010 State.reset).wordsOpen .read 0x3000 4 ∧
      (refusing .read 0x3010 State.reset).accessible (wordAddr .x64 0x3000 4) .word .read = false ∧
      (refusing .write 0x3010 State.reset).wordsOpen .read 0x3000 5 ∧
      (refusing .write 0x3010 State.reset).wordsOpen .write 0x3000 4 ∧
      (refusing .write 0x3010 State.reset).accessible (wordAddr .x64 0x3000 4) .word .write = false := by
  unfold State.Ready State.wordsOpen
  decide +kernel

theorem witness_SortFrame :
    State.reset.Ready ∧ after (invocation (.sort 0 1 1) State.reset) (fun t => t.calls.length == 2) = true :=
  ⟨reset_ready, by decide +kernel⟩

/-! ### CRUSH -/

theorem witness_CrushStepTable :
    ((Instr.crush 5 6 1).wf State.reset.params.xlen = true ∧
        (Instr.crush 5 6 2).wf State.reset.params.xlen = true) ∧
      ∀ p, p = .r1 ∨ p = .r2 ∨ p = .w →
        (running (crushAt p)).Inv ∧ (running (crushAt p)).Undisturbed ∧ (crushAt p).command = .crush 0 0 4 :=
  ⟨by decide, fun _ h => ⟨crushAt_inv h, running_undisturbed _, rfl⟩⟩

theorem witness_CrushCompletes :
    State.reset.Ready ∧ (Instr.crush 0x6000 0x5000 5).wf State.reset.params.xlen = true ∧
      State.reset.bytesOpen .read 0x5000 (2 * ((5 : Operand).toNat / 2)) ∧
      State.reset.bytesOpen .write 0x6000 ((5 : Operand).toNat / 2) :=
  ⟨reset_ready, by decide, reset_bytes_open _ _ _, reset_bytes_open _ _ _⟩

theorem witness_CrushLaw :
    State.reset.Ready ∧ State.reset.mem.wf = true ∧
      (Instr.crush 0x2000 0x1000 5).wf State.reset.params.xlen = true ∧
      State.reset.bytesOpen .read 0x1000 (2 * ((5 : Operand).toNat / 2)) ∧
      State.reset.bytesOpen .write 0x2000 ((5 : Operand).toNat / 2) ∧
      Disjoint .x64 0x2000 ((5 : Operand).toNat / 2) 0x1000 (2 * ((5 : Operand).toNat / 2)) :=
  ⟨reset_ready, rfl, by decide, reset_bytes_open _ _ _, reset_bytes_open _ _ _,
    disjoint_pages .x64 (by decide) (by decide)⟩

/-- The largest odd count of a 32-bit machine, and a count that makes no access. -/
theorem witness_CrushOddCount :
    (machine .x32 []).st = .idle ∧ 2 * 0x7FFFFFFF + 1 < 2 ^ (machine .x32 []).params.xlen.bits ∧
      busyOutside.st = .idle ∧ (1 : Operand).toNat < 2 := by
  decide

theorem witness_CrushInPlace :
    State.reset.Ready ∧ State.reset.mem.wf = true ∧
      (Instr.crush 0x5000 0x5000 6).wf State.reset.params.xlen = true ∧
      State.reset.bytesOpen .read 0x5000 (2 * ((6 : Operand).toNat / 2)) ∧
      State.reset.bytesOpen .write 0x5000 ((6 : Operand).toNat / 2) :=
  ⟨reset_ready, rfl, by decide, reset_bytes_open _ _ _, reset_bytes_open _ _ _⟩

/-- The three accesses of the last pair of V-CRUSH-9, each refused in a machine of its own. -/
theorem witness_CrushFaultLeavesPrefix :
    (refusing .read 0x5002 State.reset).Ready ∧ (Instr.crush 0x6000 0x5000 5).wf .x64 = true ∧
      1 < (5 : Operand).toNat / 2 ∧ (refusing .read 0x5002 State.reset).bytesOpen .read 0x5000 2 ∧
      (refusing .read 0x5002 State.reset).bytesOpen .write 0x6000 1 ∧
      (refusing .read 0x5002 State.reset).accessible (addrAt .x64 0x5000 2) .byte .read = false ∧
      (refusing .read 0x5003 State.reset).accessible (addrAt .x64 0x5000 2) .byte .read = true ∧
      (refusing .read 0x5003 State.reset).accessible (addrAt .x64 0x5000 3) .byte .read = false ∧
      (refusing .write 0x6001 State.reset).accessible (addrAt .x64 0x5000 3) .byte .read = true ∧
      (refusing .write 0x6001 State.reset).accessible (addrAt .x64 0x6000 1) .byte .write = false := by
  unfold State.Ready State.bytesOpen
  decide +kernel

theorem witness_CrushFrame :
    State.reset.Ready ∧ after (invocation (.crush 0 8 2) State.reset) (fun t => t.calls.length == 3) = true :=
  ⟨reset_ready, by decide +kernel⟩

/-! ### EXPAND -/

theorem witness_ExpandStepTable :
    ((Instr.expand 5 6 0).wf State.reset.params.xlen = true ∧
        (Instr.expand 5 6 1).wf State.reset.params.xlen = true) ∧
      ∀ p, p = .r ∨ p = .wl ∨ p = .wh →
        (running (expandAt p)).Inv ∧ (running (expandAt p)).Undisturbed ∧ (expandAt p).command = .expand 0 0 2 :=
  ⟨by decide, fun _ h => ⟨expandAt_inv h, running_undisturbed _, rfl⟩⟩

theorem witness_ExpandCompletes :
    State.reset.Ready ∧ (Instr.expand 0x5000 0x5000 2).wf State.reset.params.xlen = true ∧
      State.reset.bytesOpen .read 0x5000 (2 : Operand).toNat ∧
      State.reset.bytesOpen .write 0x5000 (2 * (2 : Operand).toNat) :=
  ⟨reset_ready, by decide, reset_bytes_open _ _ _, reset_bytes_open _ _ _⟩

theorem witness_ExpandLaw :
    State.reset.Ready ∧ State.reset.mem.wf = true ∧
      (Instr.expand 0x2000 0x1000 3).wf State.reset.params.xlen = true ∧
      2 * (3 : Operand).toNat ≤ 2 ^ Xlen.x64.bits ∧ State.reset.bytesOpen .read 0x1000 (3 : Operand).toNat ∧
      State.reset.bytesOpen .write 0x2000 (2 * (3 : Operand).toNat) ∧
      Disjoint .x64 0x2000 (2 * (3 : Operand).toNat) 0x1000 (3 : Operand).toNat :=
  ⟨reset_ready, rfl, by decide, by decide, reset_bytes_open _ _ _, reset_bytes_open _ _ _,
    disjoint_pages .x64 (by decide) (by decide)⟩

/-- The three accesses of the last byte of V-EXPAND-8, each refused in a machine of its own. -/
theorem witness_ExpandFaultLeavesPrefix :
    (refusing .read 0x5001 State.reset).Ready ∧ (Instr.expand 0x6000 0x5000 2).wf .x64 = true ∧
      1 < (2 : Operand).toNat ∧ (refusing .read 0x5001 State.reset).bytesOpen .read 0x5000 1 ∧
      (refusing .read 0x5001 State.reset).bytesOpen .write 0x6000 2 ∧
      (refusing .read 0x5001 State.reset).accessible (addrAt .x64 0x5000 1) .byte .read = false ∧
      (refusing .write 0x6002 State.reset).accessible (addrAt .x64 0x5000 1) .byte .read = true ∧
      (refusing .write 0x6002 State.reset).accessible (addrAt .x64 0x6000 2) .byte .write = false ∧
      (refusing .write 0x6003 State.reset).accessible (addrAt .x64 0x6000 2) .byte .write = true ∧
      (refusing .write 0x6003 State.reset).accessible (addrAt .x64 0x6000 3) .byte .write = false := by
  unfold State.Ready State.bytesOpen
  decide +kernel

theorem witness_ExpandFrame :
    State.reset.Ready ∧ after (invocation (.expand 0 0 1) State.reset) (fun t => t.calls.length == 3) = true :=
  ⟨reset_ready, by decide +kernel⟩

/-! ### CRUSH and EXPAND together -/

theorem disjoint_small {a b : Nat} (x : Xlen) {n m : Nat} (hab : a + n ≤ b) (hb : b + m ≤ 0x10000) :
    Disjoint x (BitVec.ofNat 64 b) m (BitVec.ofNat 64 a) n := by
  intro i hi j hj
  cases x <;> simp [Xlen.size, Xlen.bits] <;> omega

theorem witness_CrushThenExpandKeepsLowNibbles :
    State.reset.Ready ∧ State.reset.mem.wf = true ∧
      (Instr.crush 0x6000 0x5000 6).wf State.reset.params.xlen = true ∧
      State.reset.params.xlen.fits 0x7000 = true ∧ State.reset.bytesOpen .read 0x5000 6 ∧
      State.reset.bytesOpen .write 0x6000 3 ∧ State.reset.bytesOpen .read 0x6000 3 ∧
      State.reset.bytesOpen .write 0x7000 6 ∧ Disjoint .x64 0x6000 3 0x5000 6 ∧ Disjoint .x64 0x7000 6 0x6000 3 ∧
      Disjoint .x64 0x7000 6 0x5000 6 ∧ (6 : Operand).toNat % 2 = 0 ∧
      ∀ k < (6 : Operand).toNat, (byteAt .x64 State.reset.mem 0x5000 k).toNat ≤ 0x0F :=
  ⟨reset_ready, rfl, by decide, by decide, reset_bytes_open _ _ _, reset_bytes_open _ _ _, reset_bytes_open _ _ _,
    reset_bytes_open _ _ _, disjoint_small .x64 (by decide) (by decide), disjoint_small .x64 (by decide) (by decide),
    disjoint_small .x64 (by decide) (by decide), by decide, fun _ _ => Nat.zero_le _⟩

theorem witness_ExpandThenCrushLosesNothing :
    State.reset.Ready ∧ State.reset.mem.wf = true ∧
      (Instr.expand 0x6000 0x5000 3).wf State.reset.params.xlen = true ∧
      State.reset.params.xlen.fits 0x7000 = true ∧ 2 * (3 : Operand).toNat < 2 ^ Xlen.x64.bits ∧
      State.reset.bytesOpen .read 0x5000 3 ∧ State.reset.bytesOpen .write 0x6000 6 ∧
      State.reset.bytesOpen .read 0x6000 6 ∧ State.reset.bytesOpen .write 0x7000 3 ∧
      Disjoint .x64 0x6000 6 0x5000 3 ∧ Disjoint .x64 0x7000 3 0x6000 6 ∧ Disjoint .x64 0x7000 3 0x5000 3 :=
  ⟨reset_ready, rfl, by decide, by decide, by decide, reset_bytes_open _ _ _, reset_bytes_open _ _ _,
    reset_bytes_open _ _ _, reset_bytes_open _ _ _, disjoint_small .x64 (by decide) (by decide),
    disjoint_small .x64 (by decide) (by decide), disjoint_small .x64 (by decide) (by decide)⟩

end Sys2Proof.Tests
end

section
/-! What one step can do in every state, with no invariant assumed: the acceptance of a command, and the rows of the
four step tables as one Memory Port call each (10_state.md R36). -/

namespace Sys2Proof.Machine

/-! ## A step in IDLE -/

/-- What the acceptance of a command leaves: the CORE in RUN with the registers of the new invocation, or, with
nothing to do, the response OK at once (10_state.md R36; log 14). -/
def AcceptedFrom (s t : State) : Prop :=
  ∃ r, t = s.start r ∨ t = (s.start r).respond .ok

theorem AcceptedFrom.params {s t : State} (h : AcceptedFrom s t) : t.params = s.params := by
  obtain ⟨r, rfl | rfl⟩ := h
  · simp
  · simp

theorem AcceptedFrom.of_ite (s : State) (r : Regs) (p : Prop) [Decidable p] :
    AcceptedFrom s (if p then (s.start r).respond .ok else s.start r) := by
  by_cases hp : p
  · exact ⟨r, .inr (if_pos hp)⟩
  · exact ⟨r, .inl (if_neg hp)⟩

theorem dmaAccept_accepted (dst src : Addr) (grainCode : Operand) (s : State) :
    AcceptedFrom s (dmaAccept dst src grainCode s) := ⟨_, .inl rfl⟩

theorem sortAccept_accepted (addr : Addr) (arrayLen sortLen : Operand) (s : State) :
    AcceptedFrom s (sortAccept addr arrayLen sortLen s) := .of_ite ..

theorem crushAccept_accepted (dst src : Addr) (count : Operand) (s : State) :
    AcceptedFrom s (crushAccept dst src count s) := .of_ite ..

theorem expandAccept_accepted (dst src : Addr) (count : Operand) (s : State) :
    AcceptedFrom s (expandAccept dst src count s) := .of_ite ..

theorem exec_idle_accepted (i : Instr) {s : State} (hst : s.st = .idle) :
    ∃ t, exec i s = .next t ∧ AcceptedFrom s t := by
  cases i with
  | dma dst src grainCode => exact ⟨_, invoke_idle hst, dmaAccept_accepted ..⟩
  | sort addr arrayLen sortLen => exact ⟨_, invoke_idle hst, sortAccept_accepted ..⟩
  | crush dst src count => exact ⟨_, invoke_idle hst, crushAccept_accepted ..⟩
  | expand dst src count => exact ⟨_, invoke_idle hst, expandAccept_accepted ..⟩

theorem step_idle_none {s : State} (hst : s.st = .idle) (ho : s.offered = []) : step s = .next s.afterMoves := by
  simp [step, hst, takeCommand, ho, idleTurn]

theorem step_idle_offered {s : State} {w : Cmd} {rest : List Cmd} (hst : s.st = .idle) (ho : s.offered = w :: rest) :
    step s = exec (decode s.params.xlen w) (s.setOffered rest) := by
  simp [step, hst, takeCommand, ho]

/-! ## A step in RUN -/

/-- What a row does after its granted access: it responds OK, or it moves `PHASE` and `IDX` and fills `buf`, `V1`
and `V2`; the latches and the resolved lengths stay (10_state.md R24 to R31). -/
def ContinuesFrom (t u : State) : Prop :=
  u = t.respond .ok ∨
    ∃ phase idx v1 v2 buf,
      u = t.setRegs { t.regs with phase := phase, idx := idx, v1 := v1, v2 := v2, buf := buf }

theorem ContinuesFrom.params {t u : State} (h : ContinuesFrom t u) : u.params = t.params := by
  obtain rfl | ⟨_, _, _, _, _, rfl⟩ := h
  · simp
  · simp

theorem ContinuesFrom.of_ite {t u v : State} {p : Prop} [Decidable p] (hu : ContinuesFrom t u)
    (hv : ContinuesFrom t v) : ContinuesFrom t (if p then u else v) := by
  split
  · exact hu
  · exact hv

theorem ContinuesFrom.respond (t : State) : ContinuesFrom t (t.respond .ok) := .inl rfl

theorem ContinuesFrom.setRegs (t : State) (phase : Phase) (idx : Nat) (v1 v2 : Byte) (buf : List Word) :
    ContinuesFrom t (t.setRegs { t.regs with phase := phase, idx := idx, v1 := v1, v2 := v2, buf := buf }) :=
  .inr ⟨phase, idx, v1, v2, buf, rfl⟩

theorem dmaAfterRead_continues (w : Word) (t : State) : ContinuesFrom t (dmaAfterRead w t) :=
  .of_ite (.setRegs ..) (.setRegs ..)

theorem dmaAfterWrite_continues (t : State) : ContinuesFrom t (dmaAfterWrite t) :=
  .of_ite (.respond t) (.setRegs ..)

theorem sortAfterRead_continues (w : Word) (t : State) : ContinuesFrom t (sortAfterRead w t) :=
  .of_ite (.setRegs ..) (.setRegs ..)

theorem sortAfterWrite_continues (t : State) : ContinuesFrom t (sortAfterWrite t) :=
  .of_ite (.respond t) (.setRegs ..)

theorem crushAfterFirst_continues (v : Byte) (t : State) : ContinuesFrom t (crushAfterFirst v t) := .setRegs ..

theorem crushAfterSecond_continues (v : Byte) (t : State) : ContinuesFrom t (crushAfterSecond v t) := .setRegs ..

theorem crushAfterWrite_continues (t : State) : ContinuesFrom t (crushAfterWrite t) :=
  .of_ite (.respond t) (.setRegs ..)

theorem expandAfterRead_continues (v : Byte) (t : State) : ContinuesFrom t (expandAfterRead v t) := .setRegs ..

theorem expandAfterLow_continues (t : State) : ContinuesFrom t (expandAfterLow t) := .setRegs ..

theorem expandAfterHigh_continues (t : State) : ContinuesFrom t (expandAfterHigh t) :=
  .of_ite (.respond t) (.setRegs ..)

/-- `o` is one Memory Port call made from `s`, and what follows it where it is granted. -/
def IsRow (s : State) (o : Result) : Prop :=
  ∃ (c : Access) (perform after : State → State), Performs s.params.xlen c perform ∧
    (∀ t, ContinuesFrom t (after t)) ∧ o = portCall c.addr c.size c.kind perform s fun t => .next (after t)

theorem readWord_isRow (a : Addr) (s : State) {after : Word → State → State}
    (h : ∀ w t, ContinuesFrom t (after w t)) : IsRow s (readWord a s fun w t => .next (after w t)) :=
  ⟨_, _, fun t => after (t.mem.readWord t.params.xlen a) t, performReadWord_performs _ a, fun t => h _ t, rfl⟩

theorem readByte_isRow (a : Addr) (s : State) {after : Byte → State → State}
    (h : ∀ v t, ContinuesFrom t (after v t)) : IsRow s (readByte a s fun v t => .next (after v t)) :=
  ⟨_, _, fun t => after (t.mem.read (byteAddr t.params.xlen a 0)) t, performReadByte_performs _ a, fun t => h _ t, rfl⟩

theorem writeWord_isRow (a : Addr) (v : Word) (s : State) {after : State → State}
    (h : ∀ t, ContinuesFrom t (after t)) : IsRow s (writeWord a v s fun t => .next (after t)) :=
  ⟨_, _, after, performWriteWord_performs _ a v, h, rfl⟩

theorem writeByte_isRow (a : Addr) (v : Byte) (s : State) {after : State → State}
    (h : ∀ t, ContinuesFrom t (after t)) : IsRow s (writeByte a v s fun t => .next (after t)) :=
  ⟨_, _, after, performWriteByte_performs _ a v, h, rfl⟩

theorem dmaTick_cases (s : State) : dmaTick s = .fault .foreignPhase ∨ IsRow s (dmaTick s) := by
  cases hph : s.regs.phase with
  | rd => exact .inr (dmaTick_rd hph ▸ readWord_isRow _ s dmaAfterRead_continues)
  | wr => exact .inr (dmaTick_wr hph ▸ writeWord_isRow _ _ s dmaAfterWrite_continues)
  | srt | r1 | r2 | w | r | wl | wh => exact .inl (by simp only [dmaTick, hph])

theorem sortTick_cases (s : State) :
    sortTick s = .fault .foreignPhase ∨ sortTick s = .next (sortBuffer s) ∨ IsRow s (sortTick s) := by
  cases hph : s.regs.phase with
  | rd => exact .inr (.inr (sortTick_rd hph ▸ readWord_isRow _ s sortAfterRead_continues))
  | srt => exact .inr (.inl (sortTick_srt hph))
  | wr => exact .inr (.inr (sortTick_wr hph ▸ writeWord_isRow _ _ s sortAfterWrite_continues))
  | r1 | r2 | w | r | wl | wh => exact .inl (by simp only [sortTick, hph])

theorem crushTick_cases (s : State) : crushTick s = .fault .foreignPhase ∨ IsRow s (crushTick s) := by
  cases hph : s.regs.phase with
  | r1 => exact .inr (crushTick_r1 hph ▸ readByte_isRow _ s crushAfterFirst_continues)
  | r2 => exact .inr (crushTick_r2 hph ▸ readByte_isRow _ s crushAfterSecond_continues)
  | w => exact .inr (crushTick_w hph ▸ writeByte_isRow _ _ s crushAfterWrite_continues)
  | rd | wr | srt | r | wl | wh => exact .inl (by simp only [crushTick, hph])

theorem expandTick_cases (s : State) : expandTick s = .fault .foreignPhase ∨ IsRow s (expandTick s) := by
  cases hph : s.regs.phase with
  | r => exact .inr (expandTick_r hph ▸ readByte_isRow _ s expandAfterRead_continues)
  | wl => exact .inr (expandTick_wl hph ▸ writeByte_isRow _ _ s expandAfterLow_continues)
  | wh => exact .inr (expandTick_wh hph ▸ writeByte_isRow _ _ s expandAfterHigh_continues)
  | rd | wr | srt | r1 | r2 | w => exact .inl (by simp only [expandTick, hph])

/-- All a step in RUN can be: the fault of a foreign phase, SORT's sort, or a row of a step table. -/
theorem step_run_cases {s : State} (hst : s.st = .run) :
    step s = .fault .foreignPhase ∨ step s = .next (sortBuffer s) ∨ IsRow s (step s) := by
  rw [step_run hst]
  cases s.regs.op with
  | dma => exact (dmaTick_cases s).imp_right .inr
  | sort => exact sortTick_cases s
  | crush => exact (crushTick_cases s).imp_right .inr
  | expand => exact (expandTick_cases s).imp_right .inr

/-! ## The parameters -/

theorem Performs.params {x : Xlen} {c : Access} {perform : State → State} (h : Performs x c perform) {t : State}
    (ht : t.params.xlen = x) : (perform t).params = t.params := by
  obtain ⟨d, hd⟩ := h t ht
  rw [hd]

theorem IsRow.params {s t : State} (h : IsRow s (.next t)) : t.params = s.params := by
  obtain ⟨c, perform, after, hperf, hafter, hcall⟩ := h
  have hgranted : (perform s.atCall).params = s.params := by
    rw [hperf.params (congrArg Params.xlen (atCall_params s)), atCall_params]
  obtain ⟨-, rfl⟩ | ⟨-, -, rfl⟩ | ⟨-, rfl⟩ | ⟨-, -, hnext⟩ | ⟨-, -, ⟨-, rfl⟩ | rfl⟩ := portCall_next hcall.symm
  · exact atCall_params s
  · simp
  · simp
  · cases hnext
    exact (hafter _).params.trans hgranted
  · simpa using hgranted
  · simp

/-- Settles O18: each kind of step, in IDLE or in RUN, leaves the parameters alone. -/
theorem parametersFixed : Obligations.ParametersFixed := by
  intro s t h
  cases hst : s.st with
  | idle =>
    cases ho : s.offered with
    | nil =>
      rw [step_idle_none hst ho] at h
      cases h
      exact afterMoves_params s
    | cons w rest =>
      obtain ⟨u, hu, hacc⟩ := exec_idle_accepted (decode s.params.xlen w) (s := s.setOffered rest) hst
      rw [step_idle_offered hst ho, hu] at h
      cases h
      exact hacc.params
  | run =>
    obtain hf | hsort | hrow := step_run_cases hst
    · cases hf.symm.trans h
    · cases hsort.symm.trans h
      rfl
    · exact (h ▸ hrow).params

/-- Settles O9: each field of the state after reset, by its definition. -/
theorem resetLeavesIdle : Obligations.ResetLeavesIdle :=
  ⟨rfl, rfl, rfl, rfl, rfl, rfl, rfl⟩

end Sys2Proof.Machine
end

section
/-! The equations of the meanings, one for each acceptance, each row on normal return and each part of the invariant,
that the proofs about steps and about whole commands share. -/

namespace Sys2Proof.Machine

/-! ## Acceptance -/

section Accept

variable {s : State} (hst : s.st = .idle)
include hst

theorem exec_dma_idle (dst src : Addr) (g : Operand) :
    exec (.dma dst src g) s = .next (dmaAccept dst src g s) :=
  invoke_idle hst

theorem exec_sort_idle (addr : Addr) (len sortLen : Operand) :
    exec (.sort addr len sortLen) s = .next (sortAccept addr len sortLen s) :=
  invoke_idle hst

theorem exec_crush_idle (dst src : Addr) (count : Operand) :
    exec (.crush dst src count) s = .next (crushAccept dst src count s) :=
  invoke_idle hst

theorem exec_expand_idle (dst src : Addr) (count : Operand) :
    exec (.expand dst src count) s = .next (expandAccept dst src count s) :=
  invoke_idle hst

end Accept

theorem toNat_eq_zero_iff {v : Operand} : v.toNat = 0 ↔ v = 0 := BitVec.toNat_inj (y := 0)

/-- A command with nothing to do leaves no trace but its response (41_sort.md R128). -/
theorem start_respond (s : State) (r : Regs) : (s.start r).respond .ok = s.finished s.mem [] .ok := by
  simp [State.finished, State.respond, State.start]

theorem sortAccept_eq (s : State) (addr : Addr) (len sortLen : Operand) :
    sortAccept addr len sortLen s =
      if (latch s.params.xlen len).toNat = 0 then s.finished s.mem [] .ok
      else s.start { s.regs.latched s.params.xlen (.sort addr len sortLen) with
        len := (latch s.params.xlen len).toNat
        eff := effectiveSortLen (latch s.params.xlen len) (latch s.params.xlen sortLen)
        phase := .rd } := by
  simp only [sortAccept, start_respond]
  rfl

theorem crushAccept_eq (s : State) (dst src : Addr) (count : Operand) :
    crushAccept dst src count s =
      if pairCount (latch s.params.xlen count) = 0 then s.finished s.mem [] .ok
      else s.start { s.regs.latched s.params.xlen (.crush dst src count) with
        iter := pairCount (latch s.params.xlen count)
        phase := .r1 } := by
  simp only [crushAccept, start_respond]
  rfl

theorem expandAccept_eq (s : State) (dst src : Addr) (count : Operand) :
    expandAccept dst src count s =
      if (latch s.params.xlen count).toNat = 0 then s.finished s.mem [] .ok
      else s.start { s.regs.latched s.params.xlen (.expand dst src count) with
        iter := (latch s.params.xlen count).toNat
        phase := .r } := by
  simp only [expandAccept, start_respond]
  rfl

/-! ## The working buffer -/

@[simp] theorem sortPrefix_length (eff : Nat) (ws : List Word) : (sortPrefix eff ws).length = ws.length := by
  simp [sortPrefix, sortAscU32]
  omega

/-- The next word read is appended to the buffer (40_dma_transpose.md R103). -/
theorem dmaAfterRead_eq {t : State} (hbuf : t.regs.buf.length = t.regs.idx) (w : Word) :
    dmaAfterRead w t = t.setRegs (
      if t.regs.idx + 1 = t.regs.n * t.regs.n then { t.regs with buf := t.regs.buf ++ [w], phase := .wr, idx := 0 }
      else { t.regs with buf := t.regs.buf ++ [w], idx := t.regs.idx + 1 }) := by
  simp only [dmaAfterRead, apply_ite t.setRegs]
  rw [← hbuf, bufWrite_append]

/-- The next word read is appended to the buffer (41_sort.md R124). -/
theorem sortAfterRead_eq {t : State} (hbuf : t.regs.buf.length = t.regs.idx) (w : Word) :
    sortAfterRead w t = t.setRegs (
      if t.regs.idx + 1 = t.regs.len then { t.regs with buf := t.regs.buf ++ [w], phase := .srt, idx := 0 }
      else { t.regs with buf := t.regs.buf ++ [w], idx := t.regs.idx + 1 }) := by
  simp only [sortAfterRead, apply_ite t.setRegs]
  rw [← hbuf, bufWrite_append]

/-! ## The registers' invariant, engine by engine (10_state.md R24 to R31) -/

section RegsInv

variable {x : Xlen} {r : Regs}

theorem Regs.inv_dma (h : r.op = .dma) :
    r.Inv x ↔ x.fits r.a ∧ x.fits r.b ∧ x.fits r.c ∧ r.n = grainDim r.c ∧ r.idx < r.n * r.n ∧
      ((r.phase = .rd ∧ r.buf.length = r.idx) ∨ (r.phase = .wr ∧ r.buf.length = r.n * r.n)) := by
  simp [Regs.Inv, h]

theorem Regs.inv_sort (h : r.op = .sort) :
    r.Inv x ↔ x.fits r.a ∧ x.fits r.b ∧ x.fits r.c ∧ r.len = r.b.toNat ∧ r.eff = effectiveSortLen r.b r.c ∧
      r.idx < r.len ∧
      ((r.phase = .rd ∧ r.buf.length = r.idx) ∨ (r.phase = .srt ∧ r.idx = 0 ∧ r.buf.length = r.len) ∨
        (r.phase = .wr ∧ r.buf.length = r.len)) := by
  simp [Regs.Inv, h]

theorem Regs.inv_crush (h : r.op = .crush) :
    r.Inv x ↔ x.fits r.a ∧ x.fits r.b ∧ x.fits r.c ∧ r.iter = pairCount r.c ∧ r.idx < r.iter ∧
      (r.phase = .r1 ∨ r.phase = .r2 ∨ r.phase = .w) := by
  simp [Regs.Inv, h]

theorem Regs.inv_expand (h : r.op = .expand) :
    r.Inv x ↔ x.fits r.a ∧ x.fits r.b ∧ x.fits r.c ∧ r.iter = r.c.toNat ∧ r.idx < r.iter ∧
      (r.phase = .r ∨ r.phase = .wl ∨ r.phase = .wh) := by
  simp [Regs.Inv, h]

end RegsInv

/-! ## A granted access -/

theorem Performs.regs {x : Xlen} {c : Access} {perform : State → State} (h : Performs x c perform) {t : State}
    (ht : t.params.xlen = x) : (perform t).regs = t.regs := by
  obtain ⟨d, hd⟩ := h t ht
  rw [hd]

end Sys2Proof.Machine
end

section
/-! What every step keeps (10_state.md R22 to R31): the latches, the invariant, and that there is a next state. -/

namespace Sys2Proof.Machine

/-! ## A step is `exec` of the command at hand -/

theorem step_run_exec {s : State} (hst : s.st = .run) : step s = exec s.regs.command s := by
  simp only [step, hst, tick]

/-- Settles O6: in IDLE the word taken off the channel, in RUN the latches, by the definition of a step. -/
theorem stepRunsOfferedCommand : Obligations.StepRunsOfferedCommand :=
  ⟨fun _ _ _ hst ho => step_idle_offered hst ho, fun _ hst => step_run_exec hst⟩

/-- Settles O11: memory after reset lists nothing, and the CORE is IDLE. -/
theorem resetMeetsInvariant : Obligations.ResetMeetsInvariant :=
  ⟨reset_mem_wf, rfl, nofun, nofun⟩

theorem IsRow.total {s : State} {o : Result} (h : IsRow s o) : ∃ t, o = .next t := by
  obtain ⟨c, perform, after, -, -, rfl⟩ := h
  exact portCall_total ..

/-! ## The latches -/

/-- Two register records with the same latches and resolved lengths (10_state.md R24, R25). -/
def Regs.SameCommand (r q : Regs) : Prop :=
  r.op = q.op ∧ r.a = q.a ∧ r.b = q.b ∧ r.c = q.c ∧ r.n = q.n ∧ r.len = q.len ∧ r.eff = q.eff ∧ r.iter = q.iter

theorem Regs.SameCommand.refl (r : Regs) : r.SameCommand r := ⟨rfl, rfl, rfl, rfl, rfl, rfl, rfl, rfl⟩

theorem ContinuesFrom.sameCommand {t u : State} (h : ContinuesFrom t u) (hu : u.st = .run) :
    u.regs.SameCommand t.regs := by
  obtain rfl | ⟨_, _, _, _, _, rfl⟩ := h
  · cases hu
  · exact .refl _

theorem IsRow.sameCommand {s t : State} (h : IsRow s (.next t)) (ht : t.st = .run) : t.regs.SameCommand s.regs := by
  obtain ⟨c, perform, after, hperf, hafter, hcall⟩ := h
  obtain ⟨hst, rfl⟩ | ⟨hst, -, rfl⟩ | ⟨-, rfl⟩ | ⟨hst, -, hnext⟩ | ⟨-, -, ⟨-, rfl⟩ | rfl⟩ := portCall_next hcall.symm
  · cases ht.symm.trans hst
  · exact afterMoves_regs_of_run s hst ▸ .refl _
  · cases ht
  · cases hnext
    have hregs : (perform s.atCall).regs = s.regs :=
      (hperf.regs (congrArg Params.xlen (atCall_params s))).trans (afterMoves_regs_of_run s hst)
    exact hregs ▸ (hafter _).sameCommand ht
  · cases ht
  · cases ht

/-- Settles O17: SORT's sort and every row of a step table leave the latches and the lengths alone. -/
theorem latchedCommandHolds : Obligations.LatchedCommandHolds := by
  intro s t hst h ht
  obtain hf | hsort | hrow := step_run_cases hst
  · cases hf.symm.trans h
  · cases hsort.symm.trans h
    exact Regs.SameCommand.refl _
  · exact (h ▸ hrow).sameCommand ht

/-! ## No refusal -/

theorem step_run_not_refused {s : State} (hst : s.st = .run) (r : Refusal) : step s ≠ .refused r := by
  intro h
  obtain hf | hsort | hrow := step_run_cases hst
  · cases hf.symm.trans h
  · cases hsort.symm.trans h
  · obtain ⟨t, ht⟩ := hrow.total
    cases ht.symm.trans h

/-- In RUN any command but the one in the latches waits (30_encoding.md R81). -/
theorem exec_other {i : Instr} {s : State} (hst : s.st = .run) (hi : s.regs.command ≠ i) :
    exec i s = .next (s.enqueue i) := by
  cases i <;> exact invoke_other hst hi

theorem exec_not_refused (i : Instr) (s : State) (r : Refusal) : exec i s ≠ .refused r := by
  cases hst : s.st with
  | idle =>
    obtain ⟨t, ht⟩ := exec_idle i hst
    simp [ht]
  | run =>
    by_cases hi : s.regs.command = i
    · rw [← hi, ← step_run_exec hst]
      exact step_run_not_refused hst r
    · simp [exec_other hst hi]

/-! ## Progress under the invariant -/

/-- In RUN a phase of the engine's own makes a Memory Port call, or is SORT's `SRT` (10_state.md R26). -/
theorem Regs.Inv.nextCall {x : Xlen} {r : Regs} (h : r.Inv x) :
    (r.op = .sort ∧ r.phase = .srt) ∨ ∃ c, r.nextCall x = some c := by
  cases hop : r.op with
  | dma =>
    obtain ⟨-, -, -, -, -, ⟨hph, -⟩ | ⟨hph, -⟩⟩ := (Regs.inv_dma hop).1 h <;> simp [Regs.nextCall, hop, hph]
  | sort =>
    obtain ⟨-, -, -, -, -, -, ⟨hph, -⟩ | ⟨hph, -⟩ | ⟨hph, -⟩⟩ := (Regs.inv_sort hop).1 h <;>
      simp [Regs.nextCall, hop, hph]
  | crush =>
    obtain ⟨-, -, -, -, -, hph | hph | hph⟩ := (Regs.inv_crush hop).1 h <;> simp [Regs.nextCall, hop, hph]
  | expand =>
    obtain ⟨-, -, -, -, -, hph | hph | hph⟩ := (Regs.inv_expand hop).1 h <;> simp [Regs.nextCall, hop, hph]

/-- Under the invariant a step in RUN is SORT's sort, or the one Memory Port call the step table gives for it. -/
theorem State.Inv.step_run_cases {s : State} (hi : s.Inv) (hst : s.st = .run) :
    (s.regs.op = .sort ∧ s.regs.phase = .srt ∧ step s = .next (sortBuffer s)) ∨
      ∃ (c : Access) (perform after : State → State),
        step s = portCall c.addr c.size c.kind perform s fun t => .next (after t) := by
  obtain ⟨-, -, hregs, -⟩ := id hi
  obtain ⟨hop, hph⟩ | ⟨c, hc⟩ := (hregs hst).nextCall
  · refine .inl ⟨hop, hph, ?_⟩
    rw [step_run hst, hop]
    exact sortTick_srt hph
  · obtain ⟨perform, after, -, hstep⟩ := step_row hi hst hc
    exact .inr ⟨c, perform, after, hstep⟩

theorem State.Inv.step_total {s : State} (hi : s.Inv) : ∃ t, step s = .next t := by
  cases hst : s.st with
  | idle =>
    cases ho : s.offered with
    | nil => exact ⟨_, step_idle_none hst ho⟩
    | cons w rest =>
      rw [step_idle_offered hst ho]
      exact exec_idle _ hst
  | run =>
    obtain ⟨-, -, hstep⟩ | ⟨c, perform, after, hstep⟩ := hi.step_run_cases hst
    · exact ⟨_, hstep⟩
    · rw [hstep]
      exact portCall_total ..

/-- Settles O13: under the invariant the engine is at a row of its own, and `exec` has no arm that refuses. -/
theorem noForeignPhase : Obligations.NoForeignPhase :=
  ⟨fun _ hi => hi.step_total, exec_not_refused⟩

/-! ## The invariant -/

/-- The part of the invariant that speaks of memory: canonical, and inside the address space (20_memory.md R50). -/
def State.MemInv (s : State) : Prop := s.mem.wf = true ∧ s.mem.inSpace s.params.xlen = true

theorem State.Inv.memInv {s : State} (h : s.Inv) : s.MemInv := ⟨h.1, h.2.1⟩

theorem State.MemInv.inv_of_idle {s : State} (hm : s.MemInv) (hst : s.st = .idle) (ho : s.outstanding = false) :
    s.Inv :=
  ⟨hm.1, hm.2, by simp [hst], by simp [ho]⟩

/-- In RUN with no call outstanding, as a granted access finds the CORE and as acceptance leaves it. -/
structure State.Running (s : State) : Prop where
  memInv : s.MemInv
  st : s.st = .run
  outstanding : s.outstanding = false
  regsInv : s.regs.Inv s.params.xlen

theorem State.Running.inv {s : State} (h : s.Running) : s.Inv :=
  ⟨h.memInv.1, h.memInv.2, fun _ => h.regsInv, by simp [h.outstanding]⟩

theorem State.MemInv.respond_inv {s : State} (hm : s.MemInv) (r : Response) : (s.respond r).Inv :=
  State.MemInv.inv_of_idle hm rfl rfl

theorem State.MemInv.applyReset_inv {s : State} (hm : s.MemInv) : s.applyReset.Inv :=
  State.MemInv.inv_of_idle hm rfl rfl

theorem State.Running.setRegs_inv {s : State} (h : s.Running) {r : Regs} (hr : r.Inv s.params.xlen) :
    (s.setRegs r).Inv :=
  State.Running.inv ⟨h.memInv, h.st, h.outstanding, hr⟩

/-! ### The outside -/

theorem State.Inv.move {s : State} (h : s.Inv) (m : Move) : (s.move m).Inv := by
  obtain ⟨hwf, hin, hregs, ho⟩ := id h
  cases m with
  | write a v => exact ⟨Memory.write_wf hwf _ _, Memory.write_inSpace hin (addrAt_lt ..) _, hregs, ho⟩
  | setDenied d => exact h
  | offer w => exact h
  | reset => exact h.memInv.applyReset_inv

theorem State.Inv.moves {s : State} (h : s.Inv) (ms : List Move) : (ms.foldl State.move s).Inv := by
  induction ms generalizing s with
  | nil => exact h
  | cons m ms ih => exact ih (h.move m)

theorem State.Inv.afterMoves {s : State} (h : s.Inv) : s.afterMoves.Inv :=
  State.Inv.moves (s := s.setEnv s.env.tail) h _

/-- Still in RUN when the port answers: the invariant holds, no call is outstanding, the registers are as they were. -/
theorem State.Inv.atCall_running {s : State} (h : s.Inv) (hst : s.atCall.st = .run) : s.atCall.Running := by
  obtain ⟨-, -, hregs, -⟩ := id h.afterMoves
  exact ⟨h.afterMoves.memInv, hst, rfl, hregs hst⟩

/-! ### A Memory Port call -/

theorem State.MemInv.replay {s : State} (hm : s.MemInv) (c : Access) :
    (s.mem.replay s.params.xlen c).wf = true ∧ (s.mem.replay s.params.xlen c).inSpace s.params.xlen = true := by
  unfold Memory.replay
  split
  · exact ⟨Memory.writeWord_wf hm.1 .., Memory.writeWord_inSpace hm.2 ..⟩
  · exact ⟨Memory.write_wf hm.1 .., Memory.write_inSpace hm.2 (addrAt_lt ..) _⟩
  · exact hm

theorem Performs.running {x : Xlen} {c : Access} {perform : State → State} (h : Performs x c perform) {t : State}
    (hx : t.params.xlen = x) (ht : t.Running) : (perform t).Running := by
  obtain ⟨d, hd⟩ := h t hx
  subst hx
  rw [hd]
  exact ⟨ht.memInv.replay c, ht.st, ht.outstanding, ht.regsInv⟩

/-- A Memory Port call keeps the invariant where what follows the granted access does; a call left outstanding is
one of a phase that makes a call (10_state.md R22). -/
theorem portCall_keeps_inv {s u : State} (hi : s.Inv) (hph : s.regs.phase ≠ .srt) {a : Addr} {n : Size} {k : Kind}
    {d : Option Word} {perform after : State → State}
    (hperf : Performs s.params.xlen { kind := k, size := n, addr := a, data := d } perform)
    (hafter : ∀ t : State, t.Running → t.regs = s.regs → (after t).Inv)
    (h : portCall a n k perform s (fun t => .next (after t)) = .next u) : u.Inv := by
  have hx : s.atCall.params.xlen = s.params.xlen := congrArg Params.xlen (atCall_params s)
  obtain ⟨hst, rfl⟩ | ⟨hst, -, rfl⟩ | ⟨hst, rfl⟩ | ⟨hst, -, hnext⟩ | ⟨hst, -, ⟨-, rfl⟩ | rfl⟩ := portCall_next h
  · exact State.MemInv.inv_of_idle hi.afterMoves.memInv hst rfl
  · have hrun := hi.atCall_running hst
    have hregs : s.atCall.regs = s.regs := afterMoves_regs_of_run s hst
    exact ⟨hrun.memInv.1, hrun.memInv.2, fun _ => hrun.regsInv, fun _ => ⟨hst, hregs ▸ hph⟩⟩
  · exact State.MemInv.respond_inv (hi.atCall_running hst).memInv (.addressFault a k n)
  · cases hnext
    exact hafter _ (hperf.running hx (hi.atCall_running hst))
      ((hperf.regs hx).trans (afterMoves_regs_of_run s hst))
  · exact (hperf.running hx (hi.atCall_running hst)).memInv.applyReset_inv
  · exact State.MemInv.applyReset_inv (hi.atCall_running hst).memInv

/-! ### Acceptance -/

theorem State.MemInv.start_inv {s : State} (hm : s.MemInv) {r : Regs} (hr : r.Inv s.params.xlen) : (s.start r).Inv :=
  State.Running.inv ⟨hm, rfl, rfl, hr⟩

theorem dmaAccept_inv {s : State} (hm : s.MemInv) (dst src : Addr) (g : Operand) : (dmaAccept dst src g s).Inv :=
  hm.start_inv ⟨latch_fits .., latch_fits .., latch_fits .., rfl, grainDim_sq_pos _, .inl ⟨rfl, rfl⟩⟩

theorem sortAccept_inv {s : State} (hm : s.MemInv) (addr : Addr) (len sortLen : Operand) :
    (sortAccept addr len sortLen s).Inv := by
  rw [sortAccept_eq]
  split
  · exact State.MemInv.inv_of_idle hm rfl rfl
  · next hlen =>
    exact hm.start_inv
      ⟨latch_fits .., latch_fits .., latch_fits .., rfl, rfl, Nat.pos_of_ne_zero hlen, .inl ⟨rfl, rfl⟩⟩

theorem crushAccept_inv {s : State} (hm : s.MemInv) (dst src : Addr) (count : Operand) :
    (crushAccept dst src count s).Inv := by
  rw [crushAccept_eq]
  split
  · exact State.MemInv.inv_of_idle hm rfl rfl
  · next hiter =>
    exact hm.start_inv ⟨latch_fits .., latch_fits .., latch_fits .., rfl, Nat.pos_of_ne_zero hiter, .inl rfl⟩

theorem expandAccept_inv {s : State} (hm : s.MemInv) (dst src : Addr) (count : Operand) :
    (expandAccept dst src count s).Inv := by
  rw [expandAccept_eq]
  split
  · exact State.MemInv.inv_of_idle hm rfl rfl
  · next hiter =>
    exact hm.start_inv ⟨latch_fits .., latch_fits .., latch_fits .., rfl, Nat.pos_of_ne_zero hiter, .inl rfl⟩

theorem exec_idle_inv {i : Instr} {s t : State} (hm : s.MemInv) (hst : s.st = .idle) (h : exec i s = .next t) :
    t.Inv := by
  cases i with
  | dma dst src g =>
    cases (exec_dma_idle hst dst src g).symm.trans h
    exact dmaAccept_inv hm ..
  | sort addr len sortLen =>
    cases (exec_sort_idle hst addr len sortLen).symm.trans h
    exact sortAccept_inv hm ..
  | crush dst src count =>
    cases (exec_crush_idle hst dst src count).symm.trans h
    exact crushAccept_inv hm ..
  | expand dst src count =>
    cases (exec_expand_idle hst dst src count).symm.trans h
    exact expandAccept_inv hm ..

/-! ### The rows -/

section Rows

variable {t : State} (ht : t.Running)
include ht

theorem dmaAfterRead_inv (hop : t.regs.op = .dma) (hph : t.regs.phase = .rd) (w : Word) : (dmaAfterRead w t).Inv := by
  obtain ⟨ha, hb, hc, hn, hidx, hbuf⟩ := (Regs.inv_dma hop).1 ht.regsInv
  replace hbuf : t.regs.buf.length = t.regs.idx := by simpa [hph] using hbuf
  rw [dmaAfterRead_eq hbuf]
  split
  · next hlast =>
    exact ht.setRegs_inv
      (Iff.mpr (Regs.inv_dma hop) ⟨ha, hb, hc, hn, Nat.zero_lt_of_lt hidx, .inr ⟨rfl, by simpa [hbuf] using hlast⟩⟩)
  · next hmore =>
    exact ht.setRegs_inv (Iff.mpr (Regs.inv_dma hop) ⟨ha, hb, hc, hn, by simp; omega, .inl ⟨hph, by simp [hbuf]⟩⟩)

theorem dmaAfterWrite_inv (hop : t.regs.op = .dma) (hph : t.regs.phase = .wr) : (dmaAfterWrite t).Inv := by
  obtain ⟨ha, hb, hc, hn, hidx, hbuf⟩ := (Regs.inv_dma hop).1 ht.regsInv
  replace hbuf : t.regs.buf.length = t.regs.n * t.regs.n := by simpa [hph] using hbuf
  unfold dmaAfterWrite
  dsimp only
  split
  · exact ht.memInv.respond_inv _
  · exact ht.setRegs_inv (Iff.mpr (Regs.inv_dma hop) ⟨ha, hb, hc, hn, by simp; omega, .inr ⟨hph, hbuf⟩⟩)

theorem sortAfterRead_inv (hop : t.regs.op = .sort) (hph : t.regs.phase = .rd) (w : Word) :
    (sortAfterRead w t).Inv := by
  obtain ⟨ha, hb, hc, hlen, heff, hidx, hbuf⟩ := (Regs.inv_sort hop).1 ht.regsInv
  replace hbuf : t.regs.buf.length = t.regs.idx := by simpa [hph] using hbuf
  rw [sortAfterRead_eq hbuf]
  split
  · next hlast =>
    exact ht.setRegs_inv (Iff.mpr (Regs.inv_sort hop)
      ⟨ha, hb, hc, hlen, heff, Nat.zero_lt_of_lt hidx, .inr (.inl ⟨rfl, rfl, by simpa [hbuf] using hlast⟩)⟩)
  · next hmore =>
    exact ht.setRegs_inv (Iff.mpr (Regs.inv_sort hop)
      ⟨ha, hb, hc, hlen, heff, by simp; omega, .inl ⟨hph, by simp [hbuf]⟩⟩)

theorem sortBuffer_inv (hop : t.regs.op = .sort) (hph : t.regs.phase = .srt) : (sortBuffer t).Inv := by
  obtain ⟨ha, hb, hc, hlen, heff, hidx, hbuf⟩ := (Regs.inv_sort hop).1 ht.regsInv
  obtain ⟨-, hbuf⟩ : t.regs.idx = 0 ∧ t.regs.buf.length = t.regs.len := by simpa [hph] using hbuf
  exact ht.setRegs_inv (Iff.mpr (Regs.inv_sort hop)
    ⟨ha, hb, hc, hlen, heff, hidx, .inr (.inr ⟨rfl, (sortPrefix_length ..).trans hbuf⟩)⟩)

theorem sortAfterWrite_inv (hop : t.regs.op = .sort) (hph : t.regs.phase = .wr) : (sortAfterWrite t).Inv := by
  obtain ⟨ha, hb, hc, hlen, heff, hidx, hbuf⟩ := (Regs.inv_sort hop).1 ht.regsInv
  replace hbuf : t.regs.buf.length = t.regs.len := by simpa [hph] using hbuf
  unfold sortAfterWrite
  dsimp only
  split
  · exact ht.memInv.respond_inv _
  · exact ht.setRegs_inv (Iff.mpr (Regs.inv_sort hop)
      ⟨ha, hb, hc, hlen, heff, by simp; omega, .inr (.inr ⟨hph, hbuf⟩)⟩)

theorem crushAfterFirst_inv (hop : t.regs.op = .crush) (v : Byte) : (crushAfterFirst v t).Inv := by
  obtain ⟨ha, hb, hc, hiter, hidx, -⟩ := (Regs.inv_crush hop).1 ht.regsInv
  exact ht.setRegs_inv (Iff.mpr (Regs.inv_crush hop) ⟨ha, hb, hc, hiter, hidx, .inr (.inl rfl)⟩)

theorem crushAfterSecond_inv (hop : t.regs.op = .crush) (v : Byte) : (crushAfterSecond v t).Inv := by
  obtain ⟨ha, hb, hc, hiter, hidx, -⟩ := (Regs.inv_crush hop).1 ht.regsInv
  exact ht.setRegs_inv (Iff.mpr (Regs.inv_crush hop) ⟨ha, hb, hc, hiter, hidx, .inr (.inr rfl)⟩)

theorem crushAfterWrite_inv (hop : t.regs.op = .crush) : (crushAfterWrite t).Inv := by
  obtain ⟨ha, hb, hc, hiter, hidx, -⟩ := (Regs.inv_crush hop).1 ht.regsInv
  unfold crushAfterWrite
  dsimp only
  split
  · exact ht.memInv.respond_inv _
  · exact ht.setRegs_inv (Iff.mpr (Regs.inv_crush hop) ⟨ha, hb, hc, hiter, by simp; omega, .inl rfl⟩)

theorem expandAfterRead_inv (hop : t.regs.op = .expand) (v : Byte) : (expandAfterRead v t).Inv := by
  obtain ⟨ha, hb, hc, hiter, hidx, -⟩ := (Regs.inv_expand hop).1 ht.regsInv
  exact ht.setRegs_inv (Iff.mpr (Regs.inv_expand hop) ⟨ha, hb, hc, hiter, hidx, .inr (.inl rfl)⟩)

theorem expandAfterLow_inv (hop : t.regs.op = .expand) : (expandAfterLow t).Inv := by
  obtain ⟨ha, hb, hc, hiter, hidx, -⟩ := (Regs.inv_expand hop).1 ht.regsInv
  exact ht.setRegs_inv (Iff.mpr (Regs.inv_expand hop) ⟨ha, hb, hc, hiter, hidx, .inr (.inr rfl)⟩)

theorem expandAfterHigh_inv (hop : t.regs.op = .expand) : (expandAfterHigh t).Inv := by
  obtain ⟨ha, hb, hc, hiter, hidx, -⟩ := (Regs.inv_expand hop).1 ht.regsInv
  unfold expandAfterHigh
  dsimp only
  split
  · exact ht.memInv.respond_inv _
  · exact ht.setRegs_inv (Iff.mpr (Regs.inv_expand hop) ⟨ha, hb, hc, hiter, by simp; omega, .inl rfl⟩)

end Rows

/-! ### One step of each engine -/

section Ticks

variable {s u : State} (hi : s.Inv)
include hi

theorem dmaTick_keeps_inv (hop : s.regs.op = .dma) (h : dmaTick s = .next u) : u.Inv := by
  cases hph : s.regs.phase with
  | rd =>
    rw [dmaTick_rd hph] at h
    exact portCall_keeps_inv hi (by simp [hph]) (performReadWord_performs _ _)
      (fun t ht ht' => dmaAfterRead_inv ht (ht' ▸ hop) (ht' ▸ hph) _) h
  | wr =>
    rw [dmaTick_wr hph] at h
    exact portCall_keeps_inv hi (by simp [hph]) (performWriteWord_performs _ _ _)
      (fun t ht ht' => dmaAfterWrite_inv ht (ht' ▸ hop) (ht' ▸ hph)) h
  | srt | r1 | r2 | w | r | wl | wh => simp [dmaTick, hph] at h

theorem sortTick_keeps_inv (hst : s.st = .run) (hop : s.regs.op = .sort) (h : sortTick s = .next u) : u.Inv := by
  obtain ⟨-, -, hregs, ho⟩ := id hi
  cases hph : s.regs.phase with
  | rd =>
    rw [sortTick_rd hph] at h
    exact portCall_keeps_inv hi (by simp [hph]) (performReadWord_performs _ _)
      (fun t ht ht' => sortAfterRead_inv ht (ht' ▸ hop) (ht' ▸ hph) _) h
  | srt =>
    rw [sortTick_srt hph] at h
    cases h
    have hout : s.outstanding = false := by
      by_contra hne
      exact (ho (by simpa using hne)).2 hph
    exact sortBuffer_inv ⟨hi.memInv, hst, hout, hregs hst⟩ hop hph
  | wr =>
    rw [sortTick_wr hph] at h
    exact portCall_keeps_inv hi (by simp [hph]) (performWriteWord_performs _ _ _)
      (fun t ht ht' => sortAfterWrite_inv ht (ht' ▸ hop) (ht' ▸ hph)) h
  | r1 | r2 | w | r | wl | wh => simp [sortTick, hph] at h

theorem crushTick_keeps_inv (hop : s.regs.op = .crush) (h : crushTick s = .next u) : u.Inv := by
  cases hph : s.regs.phase with
  | r1 =>
    rw [crushTick_r1 hph] at h
    exact portCall_keeps_inv hi (by simp [hph]) (performReadByte_performs _ _)
      (fun t ht ht' => crushAfterFirst_inv ht (ht' ▸ hop) _) h
  | r2 =>
    rw [crushTick_r2 hph] at h
    exact portCall_keeps_inv hi (by simp [hph]) (performReadByte_performs _ _)
      (fun t ht ht' => crushAfterSecond_inv ht (ht' ▸ hop) _) h
  | w =>
    rw [crushTick_w hph] at h
    exact portCall_keeps_inv hi (by simp [hph]) (performWriteByte_performs _ _ _)
      (fun t ht ht' => crushAfterWrite_inv ht (ht' ▸ hop)) h
  | rd | wr | srt | r | wl | wh => simp [crushTick, hph] at h

theorem expandTick_keeps_inv (hop : s.regs.op = .expand) (h : expandTick s = .next u) : u.Inv := by
  cases hph : s.regs.phase with
  | r =>
    rw [expandTick_r hph] at h
    exact portCall_keeps_inv hi (by simp [hph]) (performReadByte_performs _ _)
      (fun t ht ht' => expandAfterRead_inv ht (ht' ▸ hop) _) h
  | wl =>
    rw [expandTick_wl hph] at h
    exact portCall_keeps_inv hi (by simp [hph]) (performWriteByte_performs _ _ _)
      (fun t ht ht' => expandAfterLow_inv ht (ht' ▸ hop)) h
  | wh =>
    rw [expandTick_wh hph] at h
    exact portCall_keeps_inv hi (by simp [hph]) (performWriteByte_performs _ _ _)
      (fun t ht ht' => expandAfterHigh_inv ht (ht' ▸ hop)) h
  | rd | wr | srt | r1 | r2 | w => simp [expandTick, hph] at h

end Ticks

/-- Settles O12: the outside's turn, every acceptance, every row of the step tables and SORT's sort keep it. -/
theorem stepKeepsInvariant : Obligations.StepKeepsInvariant := by
  intro s t hi h
  cases hst : s.st with
  | idle =>
    cases ho : s.offered with
    | nil =>
      cases (step_idle_none hst ho).symm.trans h
      exact hi.afterMoves
    | cons w rest =>
      rw [step_idle_offered hst ho] at h
      exact exec_idle_inv (s := s.setOffered rest) hi.memInv hst h
  | run =>
    rw [step_run hst] at h
    cases hop : s.regs.op with
    | dma => exact dmaTick_keeps_inv hi hop (by simpa only [hop] using h)
    | sort => exact sortTick_keeps_inv hi hst hop (by simpa only [hop] using h)
    | crush => exact crushTick_keeps_inv hi hop (by simpa only [hop] using h)
    | expand => exact expandTick_keeps_inv hi hop (by simpa only [hop] using h)

end Sys2Proof.Machine
end

section
/-! The step tables in full, with the invariant and with no other actor: the acceptance of each command and each row
(40_dma_transpose.md R108, 41_sort.md R129, 42_crush.md R147, 43_expand.md R162). -/

namespace Sys2Proof.Machine

/-! ## The command in the latches -/

theorem Regs.of_command_eq {r : Regs} {i : Instr} (h : r.command = i) :
    r.op = i.op ∧ r.a = i.opA ∧ r.b = i.opB ∧ r.c = i.opC := by
  subst h
  unfold Regs.command
  cases r.op <;> exact ⟨rfl, rfl, rfl, rfl⟩

theorem wf_eq_operands_fit (x : Xlen) (i : Instr) :
    i.wf x = (x.fits i.opA && x.fits i.opB && x.fits i.opC) := by
  cases i <;> rfl

/-- The operands of a well-formed command are latched whole (30_encoding.md R89). -/
theorem latch_of_wf {x : Xlen} {i : Instr} (h : i.wf x = true) :
    latch x i.opA = i.opA ∧ latch x i.opB = i.opB ∧ latch x i.opC = i.opC := by
  simp only [wf_eq_operands_fit, Bool.and_eq_true] at h
  obtain ⟨⟨ha, hb⟩, hc⟩ := h
  exact ⟨latch_of_fits ha, latch_of_fits hb, latch_of_fits hc⟩

theorem commandOf_operands (i : Instr) : commandOf i.op i.opA i.opB i.opC = i := by
  cases i <;> rfl

theorem latched_command {x : Xlen} {i : Instr} (h : i.wf x = true) (r : Regs) : (r.latched x i).command = i := by
  obtain ⟨ha, hb, hc⟩ := latch_of_wf h
  simp only [Regs.command, Regs.latched, ha, hb, hc, commandOf_operands]

/-! ## An undisturbed Memory Port call -/

section Undisturbed

variable {s : State} (h : s.Undisturbed)
include h

theorem readWord_undisturbed (a : Addr) (after : Word → State → State) :
    readWord a s (fun w t => .next (after w t)) =
      if s.accessible a .word .read = true then .next (after (s.mem.readWord s.params.xlen a) (performReadWord a s))
      else .next (s.finished s.mem [failedCall a .read .word] (.addressFault a .read .word)) :=
  portCall_quiet h.2.1 h.2.2 h.1 ..

theorem readByte_undisturbed (a : Addr) (after : Byte → State → State) :
    readByte a s (fun v t => .next (after v t)) =
      if s.accessible a .byte .read = true then
        .next (after (s.mem.read (byteAddr s.params.xlen a 0)) (performReadByte a s))
      else .next (s.finished s.mem [failedCall a .read .byte] (.addressFault a .read .byte)) :=
  portCall_quiet h.2.1 h.2.2 h.1 ..

theorem writeWord_undisturbed (a : Addr) (v : Word) (after : State → State) :
    writeWord a v s (fun t => .next (after t)) =
      if s.accessible a .word .write = true then .next (after (performWriteWord a v s))
      else .next (s.finished s.mem [failedCall a .write .word] (.addressFault a .write .word)) :=
  portCall_quiet h.2.1 h.2.2 h.1 ..

theorem writeByte_undisturbed (a : Addr) (v : Byte) (after : State → State) :
    writeByte a v s (fun t => .next (after t)) =
      if s.accessible a .byte .write = true then .next (after (performWriteByte a v s))
      else .next (s.finished s.mem [failedCall a .write .byte] (.addressFault a .write .byte)) :=
  portCall_quiet h.2.1 h.2.2 h.1 ..

end Undisturbed

/-- A byte read at an address the CORE issues, as the access sequences write it (00_scope.md R13). -/
theorem performReadByte_addrAt (base : Addr) (off : Nat) (s : State) :
    performReadByte (addrAt s.params.xlen base off) s =
      s.logCall (byteCall s.params.xlen .read base off (byteAt s.params.xlen s.mem base off)) := by
  simp only [performReadByte, byteAddr_addrAt, byteCall, byteAt]

/-- A byte write at an address the CORE issues, as the access sequences write it (00_scope.md R13). -/
theorem performWriteByte_addrAt (base : Addr) (off : Nat) (v : Byte) (s : State) :
    performWriteByte (addrAt s.params.xlen base off) v s =
      (s.setMem (s.mem.write (addrAt s.params.xlen base off).toNat v)).logCall
        (byteCall s.params.xlen .write base off v) := by
  simp only [performWriteByte, byteAddr_addrAt, byteCall]

/-! ## The rows on normal return -/

section Rows

variable {t : State}

/-- `IDX = bound - 1` of the step tables is `IDX + 1 = bound` of the meanings, `IDX` being below its bound. -/
theorem succ_eq_iff_eq_pred {k n : Nat} (h : k < n) : k + 1 = n ↔ k = n - 1 := by omega

theorem dmaAfterWrite_eq (hidx : t.regs.idx < t.regs.n * t.regs.n) :
    dmaAfterWrite t = if t.regs.idx = t.regs.n * t.regs.n - 1 then t.respond .ok
      else t.setRegs { t.regs with idx := t.regs.idx + 1 } := by
  simp only [dmaAfterWrite, succ_eq_iff_eq_pred hidx]

theorem sortAfterWrite_eq (hidx : t.regs.idx < t.regs.len) :
    sortAfterWrite t = if t.regs.idx = t.regs.len - 1 then t.respond .ok
      else t.setRegs { t.regs with idx := t.regs.idx + 1 } := by
  simp only [sortAfterWrite, succ_eq_iff_eq_pred hidx]

theorem crushAfterWrite_eq (hidx : t.regs.idx < t.regs.iter) :
    crushAfterWrite t = if t.regs.idx = t.regs.iter - 1 then t.respond .ok
      else t.setRegs { t.regs with idx := t.regs.idx + 1, phase := .r1 } := by
  simp only [crushAfterWrite, succ_eq_iff_eq_pred hidx]

theorem expandAfterHigh_eq (hidx : t.regs.idx < t.regs.iter) :
    expandAfterHigh t = if t.regs.idx = t.regs.iter - 1 then t.respond .ok
      else t.setRegs { t.regs with idx := t.regs.idx + 1, phase := .r } := by
  simp only [expandAfterHigh, succ_eq_iff_eq_pred hidx]

end Rows

/-! ## DMA -/

theorem exec_dma_accepts {s : State} {dst src : Addr} {g : Operand} (hst : s.st = .idle)
    (hwf : (Instr.dma dst src g).wf s.params.xlen = true) :
    ∃ r, exec (.dma dst src g) s = .next (s.start r) ∧ r.command = .dma dst src g ∧ r.n = grainDim g ∧
      r.phase = .rd ∧ r.idx = 0 ∧ r.buf = [] :=
  ⟨_, exec_dma_idle hst .., latched_command hwf s.regs, congrArg grainDim (latch_of_wf hwf).2.2, rfl, rfl, rfl⟩

theorem exec_dma_run {s : State} {dst src : Addr} {g : Operand} (hst : s.st = .run)
    (hcmd : s.regs.command = .dma dst src g) : exec (.dma dst src g) s = dmaTick s :=
  invoke_run hst hcmd

/-- Settles O31: acceptance, then each row as an undisturbed Memory Port call. -/
theorem dmaStepTable : Obligations.DmaStepTable := by
  refine ⟨fun s dst src g hst hwf => exec_dma_accepts hst hwf, fun s dst src g hi hu hcmd => ?_⟩
  obtain ⟨hop, rfl, rfl, rfl⟩ := Regs.of_command_eq hcmd
  obtain ⟨-, -, hregs, -⟩ := id hi
  obtain ⟨-, -, -, -, hidx, hbuf⟩ := (Regs.inv_dma hop).1 (hregs hu.1)
  refine ⟨fun hph => ?_, fun hph => ?_⟩
  · replace hbuf : s.regs.buf.length = s.regs.idx := by simpa [hph] using hbuf
    rw [exec_dma_run hu.1 hcmd, dmaTick_rd hph, readWord_undisturbed hu, dmaAfterRead_eq]
    · simp only [performReadWord_regs, succ_eq_iff_eq_pred hidx]
      rfl
    · exact hbuf
  · replace hbuf : s.regs.buf.length = s.regs.n * s.regs.n := by simpa [hph] using hbuf
    rw [exec_dma_run hu.1 hcmd, dmaTick_wr hph, writeWord_undisturbed hu, dmaAfterWrite_eq,
      bufCell_of_lt (hbuf ▸ transposeIndex_lt hidx)]
    exacts [rfl, hidx]

/-! ## SORT -/

theorem exec_sort_accepts {s : State} {addr : Addr} {len sortLen : Operand} (hst : s.st = .idle)
    (hwf : (Instr.sort addr len sortLen).wf s.params.xlen = true) :
    if len = 0 then exec (.sort addr len sortLen) s = .next (s.finished s.mem [] .ok)
    else
      ∃ r, exec (.sort addr len sortLen) s = .next (s.start r) ∧ r.command = .sort addr len sortLen ∧
        r.len = len.toNat ∧ r.eff = min sortLen.toNat len.toNat ∧ r.phase = .rd ∧ r.idx = 0 ∧ r.buf = [] := by
  obtain ⟨-, hb, hc⟩ := latch_of_wf hwf
  simp only [Instr.opB, Instr.opC] at hb hc
  rw [exec_sort_idle hst, sortAccept_eq, hb, hc]
  split
  · next h => rw [if_pos (toNat_eq_zero_iff.2 h)]
  · next h =>
    rw [if_neg (mt toNat_eq_zero_iff.1 h)]
    exact ⟨_, rfl, latched_command hwf s.regs, rfl, rfl, rfl, rfl, rfl⟩

theorem exec_sort_run {s : State} {addr : Addr} {len sortLen : Operand} (hst : s.st = .run)
    (hcmd : s.regs.command = .sort addr len sortLen) : exec (.sort addr len sortLen) s = sortTick s :=
  invoke_run hst hcmd

/-- Settles O38: acceptance, then `RD` and `WR` as an undisturbed Memory Port call each, and `SRT` as no call. -/
theorem sortStepTable : Obligations.SortStepTable := by
  refine ⟨fun s addr len sortLen hst hwf => exec_sort_accepts hst hwf, fun s addr len sortLen hi hu hcmd => ?_⟩
  obtain ⟨hop, rfl, rfl, rfl⟩ := Regs.of_command_eq hcmd
  obtain ⟨-, -, hregs, -⟩ := id hi
  obtain ⟨-, -, -, -, -, hidx, hbuf⟩ := (Regs.inv_sort hop).1 (hregs hu.1)
  refine ⟨fun hph => ?_, fun hph => ?_, fun hph => ?_⟩
  · replace hbuf : s.regs.buf.length = s.regs.idx := by simpa [hph] using hbuf
    rw [exec_sort_run hu.1 hcmd, sortTick_rd hph, readWord_undisturbed hu, sortAfterRead_eq]
    · simp only [performReadWord_regs, succ_eq_iff_eq_pred hidx]
      rfl
    · exact hbuf
  · rw [exec_sort_run hu.1 hcmd, sortTick_srt hph]
    rfl
  · replace hbuf : s.regs.buf.length = s.regs.len := by simpa [hph] using hbuf
    rw [exec_sort_run hu.1 hcmd, sortTick_wr hph, writeWord_undisturbed hu, sortAfterWrite_eq,
      bufCell_of_lt (hbuf ▸ hidx)]
    exacts [rfl, hidx]

/-! ## CRUSH -/

theorem exec_crush_accepts {s : State} {dst src : Addr} {count : Operand} (hst : s.st = .idle)
    (hwf : (Instr.crush dst src count).wf s.params.xlen = true) :
    if count >>> 1 = 0 then exec (.crush dst src count) s = .next (s.finished s.mem [] .ok)
    else
      ∃ r, exec (.crush dst src count) s = .next (s.start r) ∧ r.command = .crush dst src count ∧
        r.iter = (count >>> 1).toNat ∧ r.phase = .r1 ∧ r.idx = 0 := by
  obtain ⟨-, -, hc⟩ := latch_of_wf hwf
  simp only [Instr.opC] at hc
  rw [exec_crush_idle hst, crushAccept_eq, hc, pairCount]
  split
  · next h => rw [if_pos (toNat_eq_zero_iff.2 h)]
  · next h =>
    rw [if_neg (mt toNat_eq_zero_iff.1 h)]
    exact ⟨_, rfl, latched_command hwf s.regs, rfl, rfl, rfl⟩

theorem exec_crush_run {s : State} {dst src : Addr} {count : Operand} (hst : s.st = .run)
    (hcmd : s.regs.command = .crush dst src count) : exec (.crush dst src count) s = crushTick s :=
  invoke_run hst hcmd

/-- Settles O47: acceptance, then each row as an undisturbed Memory Port call. -/
theorem crushStepTable : Obligations.CrushStepTable := by
  refine ⟨fun s dst src count hst hwf => exec_crush_accepts hst hwf, fun s dst src count hi hu hcmd => ?_⟩
  obtain ⟨hop, rfl, rfl, rfl⟩ := Regs.of_command_eq hcmd
  obtain ⟨-, -, hregs, -⟩ := id hi
  obtain ⟨-, -, -, -, hidx, -⟩ := (Regs.inv_crush hop).1 (hregs hu.1)
  refine ⟨fun hph => ?_, fun hph => ?_, fun hph => ?_⟩
  · rw [exec_crush_run hu.1 hcmd, crushTick_r1 hph, readByte_undisturbed hu, byteAddr_addrAt, performReadByte_addrAt]
    rfl
  · rw [exec_crush_run hu.1 hcmd, crushTick_r2 hph, readByte_undisturbed hu, byteAddr_addrAt, performReadByte_addrAt]
    rfl
  · rw [exec_crush_run hu.1 hcmd, crushTick_w hph, writeByte_undisturbed hu, performWriteByte_addrAt,
      crushAfterWrite_eq]
    exacts [rfl, hidx]

/-! ## EXPAND -/

theorem exec_expand_accepts {s : State} {dst src : Addr} {count : Operand} (hst : s.st = .idle)
    (hwf : (Instr.expand dst src count).wf s.params.xlen = true) :
    if count = 0 then exec (.expand dst src count) s = .next (s.finished s.mem [] .ok)
    else
      ∃ r, exec (.expand dst src count) s = .next (s.start r) ∧ r.command = .expand dst src count ∧
        r.iter = count.toNat ∧ r.phase = .r ∧ r.idx = 0 := by
  obtain ⟨-, -, hc⟩ := latch_of_wf hwf
  simp only [Instr.opC] at hc
  rw [exec_expand_idle hst, expandAccept_eq, hc]
  split
  · next h => rw [if_pos (toNat_eq_zero_iff.2 h)]
  · next h =>
    rw [if_neg (mt toNat_eq_zero_iff.1 h)]
    exact ⟨_, rfl, latched_command hwf s.regs, rfl, rfl, rfl⟩

theorem exec_expand_run {s : State} {dst src : Addr} {count : Operand} (hst : s.st = .run)
    (hcmd : s.regs.command = .expand dst src count) : exec (.expand dst src count) s = expandTick s :=
  invoke_run hst hcmd

/-- Settles O54: acceptance, then each row as an undisturbed Memory Port call. -/
theorem expandStepTable : Obligations.ExpandStepTable := by
  refine ⟨fun s dst src count hst hwf => exec_expand_accepts hst hwf, fun s dst src count hi hu hcmd => ?_⟩
  obtain ⟨hop, rfl, rfl, rfl⟩ := Regs.of_command_eq hcmd
  obtain ⟨-, -, hregs, -⟩ := id hi
  obtain ⟨-, -, -, -, hidx, -⟩ := (Regs.inv_expand hop).1 (hregs hu.1)
  refine ⟨fun hph => ?_, fun hph => ?_, fun hph => ?_⟩
  · rw [exec_expand_run hu.1 hcmd, expandTick_r hph, readByte_undisturbed hu, byteAddr_addrAt, performReadByte_addrAt]
    rfl
  · rw [exec_expand_run hu.1 hcmd, expandTick_wl hph, writeByte_undisturbed hu, performWriteByte_addrAt]
    rfl
  · rw [exec_expand_run hu.1 hcmd, expandTick_wh hph, writeByte_undisturbed hu, performWriteByte_addrAt,
      expandAfterHigh_eq]
    exacts [rfl, hidx]

end Sys2Proof.Machine
end

section
/-! The invocation of a command against the pseudocode of files 40 to 43, by one simulation: each row of a step table
is one Memory Port call of the pseudocode, whatever registers the pseudocode carries along (10_state.md R36). -/

namespace Sys2Proof.Machine

/-! ## Outcomes that agree but for the registers -/

/-- The outcomes agree but for the registers, and on them too in IDLE; in RUN they wait for a call that a turn of
`env` keeps from returning (20_memory.md R73). -/
def Matches (env : List Turn) (o o' : Result) : Prop :=
  ∃ t r, o = .next t ∧ o' = .next (t.setRegs r) ∧ (t.st = .idle → r = t.regs) ∧
    (t.st = .run → t.outstanding = true ∧ ∃ w ∈ env, w.answer = .pending)

theorem matches_of_idle (env : List Turn) {t : State} (h : t.st = .idle) : Matches env (.next t) (.next t) :=
  ⟨t, t.regs, rfl, rfl, fun _ => rfl, by simp [h]⟩

theorem Matches.mono {env env' : List Turn} {o o' : Result} (h : Matches env o o') (hsub : env ⊆ env') :
    Matches env' o o' := by
  obtain ⟨t, r, ho, ho', hidle, hrun⟩ := h
  refine ⟨t, r, ho, ho', hidle, fun hst => ?_⟩
  obtain ⟨hout, w, hw, hans⟩ := hrun hst
  exact ⟨hout, w, hsub hw, hans⟩

/-! ## A Memory Port call in both -/

section Call

variable {s : State} (r : Regs)

/-- A reset before the call leaves the same state whatever the registers held. -/
theorem atCall_setRegs_of_idle (hst : s.st = .run) (hcall : s.atCall.st = .idle) :
    (s.setRegs r).atCall = s.atCall := by
  obtain ⟨heq, -⟩ | heq := atCall_setRegs s r
  · exact heq
  · have hregs : ∀ q, (s.setRegs q).atCall.st = .idle → (s.setRegs q).atCall.regs = Regs.reset := by
      intro q hq
      obtain ⟨-, h⟩ | ⟨h, -⟩ := afterMoves_core (s.setRegs q)
      · exact h
      · cases hq.symm.trans (h.trans hst)
    have hs : s.atCall.regs = Regs.reset := hregs s.regs hcall
    have hr : r = Regs.reset := (congrArg State.regs heq).symm.trans (hregs r (heq ▸ hcall))
    rw [heq, hr, ← hs]
    rfl

theorem atCall_setRegs_of_run (hcall : s.atCall.st = .run) : (s.setRegs r).atCall = s.atCall.setRegs r := by
  obtain ⟨-, hidle⟩ | heq := atCall_setRegs s r
  · cases hidle.symm.trans hcall
  · exact heq

/-- A new call that does not return is one a turn of the script keeps from returning. -/
theorem pending_mem_env (ho : s.outstanding = false) (h : s.nextTurn.answer = .pending) :
    ∃ w ∈ s.env, w.answer = .pending := by
  cases henv : s.env with
  | nil => simp [nextTurn_of_quiet s henv ho, Turn.quiet] at h
  | cons w rest => exact ⟨w, by simp, by simpa [State.nextTurn, henv] using h⟩

/-- The same call from two states that differ in the registers alone: what follows the granted access decides. -/
theorem portCall_matches (hst : s.st = .run) (ho : s.outstanding = false) (a : Addr) (n : Size) (k : Kind)
    {perform : State → State} (hcomm : ∀ t, perform (t.setRegs r) = (perform t).setRegs r) {go go' : State → Result}
    (h : s.atCall.st = .run → Matches s.env (go (perform s.atCall)) (go' ((perform s.atCall).setRegs r))) :
    Matches s.env (portCall a n k perform s go) (portCall a n k perform (s.setRegs r) go') := by
  unfold portCall
  cases hcall : s.atCall.st with
  | idle =>
    simp only [atCall_setRegs_of_idle r hst hcall, hcall]
    exact matches_of_idle _ hcall
  | run =>
    simp only [atCall_setRegs_of_run r hcall, nextTurn_setRegs, State.setRegs_st, hcall, hcomm,
      accessible_congr (State.setRegs_params s.atCall r) (State.setRegs_denied s.atCall r)]
    cases hans : s.nextTurn.answer with
    | pending =>
      refine ⟨_, r, rfl, rfl, fun hidle => ?_, fun _ => ⟨rfl, pending_mem_env ho hans⟩⟩
      cases hcall.symm.trans hidle
    | refuses => exact matches_of_idle _ rfl
    | byMap =>
      dsimp only
      split
      · exact h hcall
      · exact matches_of_idle _ rfl
    | byMapThenReset =>
      dsimp only
      split
      · exact matches_of_idle _ rfl
      · exact matches_of_idle _ rfl

end Call

/-! ## A row of a step table and the same access of the pseudocode -/

/-- In RUN with no call outstanding, at width `x` and with the registers `q`. -/
structure State.RunsAt (s : State) (x : Xlen) (q : Regs) : Prop where
  st : s.st = .run
  outstanding : s.outstanding = false
  xlen : s.params.xlen = x
  regs : s.regs = q

theorem State.RunsAt.start (s : State) (q : Regs) : (s.start q).RunsAt s.params.xlen q := ⟨rfl, rfl, rfl, rfl⟩

section Row

variable {s : State} {x : Xlen} {q : Regs} (hs : s.RunsAt x q)
include hs

theorem State.RunsAt.setRegs (q' : Regs) : (s.setRegs q').RunsAt x q' := ⟨hs.st, hs.outstanding, hs.xlen, rfl⟩

theorem State.RunsAt.performed {c : Access} {perform : State → State} (hperf : Performs x c perform)
    (hcall : s.atCall.st = .run) : (perform s.atCall).RunsAt x q ∧ (perform s.atCall).env = s.env.tail := by
  have hx : s.atCall.params.xlen = x := (congrArg Params.xlen (atCall_params s)).trans hs.xlen
  have hregs : s.atCall.regs = q := (afterMoves_regs_of_run s hcall).trans hs.regs
  obtain ⟨d, hd⟩ := hperf _ hx
  rw [hd]
  exact ⟨⟨hcall, rfl, hx, hregs⟩, atCall_env s⟩

variable {r : Regs} {fuel : Nat}

/-- A row and the pseudocode's access match if what the steps and the pseudocode do after it does. -/
theorem untilIdle_row_matches {a : Addr} {n : Size} {k : Kind} {d : Option Word} {perform after : State → State}
    {go : State → Result} (hperf : Performs x { kind := k, size := n, addr := a, data := d } perform)
    (hcomm : ∀ t, perform (t.setRegs r) = (perform t).setRegs r)
    (hstep : step s = portCall a n k perform s fun t => .next (after t))
    (h : ∀ t : State, t.RunsAt x q → Matches t.env (untilIdle fuel (after t)) (go (t.setRegs r))) :
    Matches s.env (untilIdle (fuel + 1) s) (portCall a n k perform (s.setRegs r) go) := by
  rw [untilIdle_portCall hs.st hs.outstanding hstep]
  refine portCall_matches r hs.st hs.outstanding a n k hcomm fun hcall => ?_
  obtain ⟨hrun, henv⟩ := hs.performed hperf hcall
  exact (h _ hrun).mono (henv ▸ List.tail_subset _)

theorem readWord_matches {a : Addr} {after : Word → State → State} {use : Word → State → Result}
    (hstep : step s = readWord a s fun w t => .next (after w t))
    (h : ∀ w (t : State), t.RunsAt x q → Matches t.env (untilIdle fuel (after w t)) (use w (t.setRegs r))) :
    Matches s.env (untilIdle (fuel + 1) s) (readWord a (s.setRegs r) use) :=
  untilIdle_row_matches hs (performReadWord_performs x a) (fun _ => rfl) hstep fun t ht => h _ t ht

theorem readByte_matches {a : Addr} {after : Byte → State → State} {use : Byte → State → Result}
    (hstep : step s = readByte a s fun v t => .next (after v t))
    (h : ∀ v (t : State), t.RunsAt x q → Matches t.env (untilIdle fuel (after v t)) (use v (t.setRegs r))) :
    Matches s.env (untilIdle (fuel + 1) s) (readByte a (s.setRegs r) use) :=
  untilIdle_row_matches hs (performReadByte_performs x a) (fun _ => rfl) hstep fun t ht => h _ t ht

theorem writeWord_matches {a : Addr} {v : Word} {after : State → State} {go : State → Result}
    (hstep : step s = writeWord a v s fun t => .next (after t))
    (h : ∀ t : State, t.RunsAt x q → Matches t.env (untilIdle fuel (after t)) (go (t.setRegs r))) :
    Matches s.env (untilIdle (fuel + 1) s) (writeWord a v (s.setRegs r) go) :=
  untilIdle_row_matches hs (performWriteWord_performs x a v) (fun _ => rfl) hstep h

theorem writeByte_matches {a : Addr} {v : Byte} {after : State → State} {go : State → Result}
    (hstep : step s = writeByte a v s fun t => .next (after t))
    (h : ∀ t : State, t.RunsAt x q → Matches t.env (untilIdle fuel (after t)) (go (t.setRegs r))) :
    Matches s.env (untilIdle (fuel + 1) s) (writeByte a v (s.setRegs r) go) :=
  untilIdle_row_matches hs (performWriteByte_performs x a v) (fun _ => rfl) hstep h

end Row

/-! ## Loops -/

/-- What the steps leave after iteration `k` of `last`: the response OK after the last one, otherwise the next
iteration, whose registers meet `At`. -/
def Advances (At : Nat → Regs → Prop) (last k : Nat) (t u : State) : Prop :=
  (k + 1 = last ∧ u = t.respond .ok) ∨ (k + 1 < last ∧ ∃ q, At (k + 1) q ∧ u = t.setRegs q)

/-- What the steps do after iteration `k` matches `go`, what the pseudocode does after it. -/
def RestMatches (x : Xlen) (r : Regs) (At : Nat → Regs → Prop) (last k fuel : Nat) (go : State → Result) : Prop :=
  ∀ t u q, t.RunsAt x q → Advances At last k t u → Matches t.env (untilIdle fuel u) (go (t.setRegs r))

/-- A `for` loop matches the steps if its body matches the `cost` steps of an iteration. -/
theorem forLoop_matches {x : Xlen} {r : Regs} {At : Nat → Regs → Prop} {last cost : Nat}
    {body : Nat → State → (State → Result) → Result}
    (hbody : ∀ k fuel go (s : State) q, k < last → At k q → s.RunsAt x q → RestMatches x r At last k fuel go →
      Matches s.env (untilIdle (fuel + cost) s) (body k (s.setRegs r) go))
    {count k : Nat} {s : State} {q : Regs} (hcount : 0 < count) (hlast : k + count = last) (hat : At k q)
    (hs : s.RunsAt x q) :
    Matches s.env (untilIdle (cost * count) s) (forLoop body count k (s.setRegs r) respondOk) := by
  induction count generalizing k s q with
  | zero => omega
  | succ count ih =>
    refine hbody k (cost * count) _ s q (by omega) hat hs fun t u q' ht hadv => ?_
    obtain ⟨hk, rfl⟩ | ⟨hk, q'', hat', rfl⟩ := hadv
    · obtain rfl : count = 0 := by omega
      exact matches_of_idle _ rfl
    · exact ih (by omega) (by omega) hat' (ht.setRegs q'')

/-- The read loop matches the steps if each read fills the next buffer cell, `row k acc` being the registers before
read `k` with `acc` read, and `done buf` those after the last read. -/
theorem readLoop_matches {x : Xlen} {r : Regs} {base : Addr} {row : Nat → List Word → Regs} {done : List Word → Regs}
    {last fuel : Nat} {go : List Word → State → Result}
    (hrow : ∀ k acc (s : State), k < last → acc.length = k → s.RunsAt x (row k acc) →
      ∃ after : Word → State → State, step s = readWord (wordAddr x base k) s (fun w t => .next (after w t)) ∧
        ∀ w (t : State), t.RunsAt x (row k acc) →
          after w t = t.setRegs (if k + 1 = last then done (acc ++ [w]) else row (k + 1) (acc ++ [w])))
    (hdone : ∀ buf (t : State), buf.length = last → t.RunsAt x (done buf) →
      Matches t.env (untilIdle fuel t) (go buf (t.setRegs r)))
    {count k : Nat} {acc : List Word} {s : State} (hcount : 0 < count) (hlast : k + count = last)
    (hacc : acc.length = k) (hs : s.RunsAt x (row k acc)) :
    Matches s.env (untilIdle (fuel + count) s) (readLoop x base count k acc (s.setRegs r) go) := by
  induction count generalizing k acc s with
  | zero => omega
  | succ count ih =>
    obtain ⟨after, hstep, hafter⟩ := hrow k acc s (by omega) hacc hs
    refine readWord_matches hs hstep fun w t ht => ?_
    rw [hafter w t ht]
    split
    · obtain rfl : count = 0 := by omega
      exact hdone (acc ++ [w]) (t.setRegs (done (acc ++ [w]))) (by simp; omega) (ht.setRegs _)
    · exact ih (s := t.setRegs (row (k + 1) (acc ++ [w]))) (by omega) (by omega) (by simp [hacc]) (ht.setRegs _)

/-! ## The rows of the four engines -/

section Engines

variable {s : State} {x : Xlen} {q : Regs}

theorem State.RunsAt.step_dma (hs : s.RunsAt x q) (hop : q.op = .dma) : step s = dmaTick s := by
  rw [step_run hs.st, hs.regs, hop]

theorem State.RunsAt.step_sort (hs : s.RunsAt x q) (hop : q.op = .sort) : step s = sortTick s := by
  rw [step_run hs.st, hs.regs, hop]

theorem State.RunsAt.step_crush (hs : s.RunsAt x q) (hop : q.op = .crush) : step s = crushTick s := by
  rw [step_run hs.st, hs.regs, hop]

theorem State.RunsAt.step_expand (hs : s.RunsAt x q) (hop : q.op = .expand) : step s = expandTick s := by
  rw [step_run hs.st, hs.regs, hop]

/-- The registers of a CRUSH before iteration `k`; what `V1` and `V2` hold does not matter. -/
def CrushAt (q : Regs) (k : Nat) (q' : Regs) : Prop :=
  ∃ v1 v2, q' = { q with phase := .r1, idx := k, v1 := v1, v2 := v2 }

theorem crushAfterFirst_runsAt {t : State} (ht : t.RunsAt x q) (v : Byte) :
    (crushAfterFirst v t).RunsAt x { q with v1 := v, phase := .r2 } := by
  simpa [crushAfterFirst, ht.regs] using ht.setRegs { q with v1 := v, phase := .r2 }

theorem crushAfterSecond_runsAt {t : State} (ht : t.RunsAt x q) (v : Byte) :
    (crushAfterSecond v t).RunsAt x { q with v2 := v, phase := .w } := by
  simpa [crushAfterSecond, ht.regs] using ht.setRegs { q with v2 := v, phase := .w }

theorem crushAfterWrite_advances {t : State} {k : Nat} {v1 v2 : Byte}
    (ht : t.RunsAt x { q with phase := .w, idx := k, v1 := v1, v2 := v2 }) (hk : k < q.iter) :
    Advances (CrushAt q) q.iter k t (crushAfterWrite t) := by
  simp only [crushAfterWrite, ht.regs]
  split
  · next hlast => exact .inl ⟨hlast, rfl⟩
  · next hmore => exact .inr ⟨by omega, _, ⟨v1, v2, rfl⟩, rfl⟩

/-- The three rows of a CRUSH iteration match the body of its loop (42_crush.md R142, R147). -/
theorem crush_iteration_matches {r q' : Regs} {k fuel : Nat} {go : State → Result} (hop : q.op = .crush)
    (hk : k < q.iter) (hat : CrushAt q k q') (hs : s.RunsAt x q')
    (hgo : RestMatches x r (CrushAt q) q.iter k fuel go) :
    Matches s.env (untilIdle (fuel + 3) s)
      (readByte (addrAt x q.b (2 * k)) (s.setRegs r) fun v1 t =>
        readByte (addrAt x q.b (2 * k + 1)) t fun v2 t =>
          writeByte (addrAt x q.a k) (packNibbles v1 v2) t go) := by
  obtain ⟨v1, v2, rfl⟩ := hat
  refine readByte_matches hs (after := crushAfterFirst) ?_ fun w1 t1 ht1 => ?_
  · rw [hs.step_crush hop, crushTick_r1 (by rw [hs.regs]), hs.regs, hs.xlen]
  have hs1 := crushAfterFirst_runsAt ht1 w1
  refine readByte_matches hs1 (after := crushAfterSecond) ?_ fun w2 t2 ht2 => ?_
  · rw [hs1.step_crush hop, crushTick_r2 (by rw [hs1.regs]), hs1.regs, hs1.xlen]
  have hs2 := crushAfterSecond_runsAt ht2 w2
  refine writeByte_matches hs2 (after := crushAfterWrite) ?_ fun t3 ht3 => ?_
  · rw [hs2.step_crush hop, crushTick_w (by rw [hs2.regs]), hs2.regs, hs2.xlen]
  exact hgo t3 _ _ ht3 (crushAfterWrite_advances ht3 hk)

/-- The registers of an EXPAND before iteration `k`; what `V1` holds does not matter. -/
def ExpandAt (q : Regs) (k : Nat) (q' : Regs) : Prop :=
  ∃ v1, q' = { q with phase := .r, idx := k, v1 := v1 }

theorem expandAfterRead_runsAt {t : State} (ht : t.RunsAt x q) (v : Byte) :
    (expandAfterRead v t).RunsAt x { q with v1 := v, phase := .wl } := by
  simpa [expandAfterRead, ht.regs] using ht.setRegs { q with v1 := v, phase := .wl }

theorem expandAfterLow_runsAt {t : State} (ht : t.RunsAt x q) :
    (expandAfterLow t).RunsAt x { q with phase := .wh } := by
  simpa [expandAfterLow, ht.regs] using ht.setRegs { q with phase := .wh }

theorem expandAfterHigh_advances {t : State} {k : Nat} {v1 : Byte}
    (ht : t.RunsAt x { q with phase := .wh, idx := k, v1 := v1 }) (hk : k < q.iter) :
    Advances (ExpandAt q) q.iter k t (expandAfterHigh t) := by
  simp only [expandAfterHigh, ht.regs]
  split
  · next hlast => exact .inl ⟨hlast, rfl⟩
  · next hmore => exact .inr ⟨by omega, _, ⟨v1, rfl⟩, rfl⟩

/-- The three rows of an EXPAND iteration match the body of its loop (43_expand.md R157, R162). -/
theorem expand_iteration_matches {r q' : Regs} {k fuel : Nat} {go : State → Result} (hop : q.op = .expand)
    (hk : k < q.iter) (hat : ExpandAt q k q') (hs : s.RunsAt x q')
    (hgo : RestMatches x r (ExpandAt q) q.iter k fuel go) :
    Matches s.env (untilIdle (fuel + 3) s)
      (readByte (addrAt x q.b k) (s.setRegs r) fun v1 t =>
        writeByte (addrAt x q.a (2 * k)) (lowNibble v1) t fun t =>
          writeByte (addrAt x q.a (2 * k + 1)) (highNibble v1) t go) := by
  obtain ⟨v1, rfl⟩ := hat
  refine readByte_matches hs (after := expandAfterRead) ?_ fun w1 t1 ht1 => ?_
  · rw [hs.step_expand hop, expandTick_r (by rw [hs.regs]), hs.regs, hs.xlen]
  have hs1 := expandAfterRead_runsAt ht1 w1
  refine writeByte_matches hs1 (after := expandAfterLow) ?_ fun t2 ht2 => ?_
  · rw [hs1.step_expand hop, expandTick_wl (by rw [hs1.regs]), hs1.regs, hs1.xlen]
  have hs2 := expandAfterLow_runsAt ht2
  refine writeByte_matches hs2 (after := expandAfterHigh) ?_ fun t3 ht3 => ?_
  · rw [hs2.step_expand hop, expandTick_wh (by rw [hs2.regs]), hs2.regs, hs2.xlen]
  exact hgo t3 _ _ ht3 (expandAfterHigh_advances ht3 hk)

/-- The registers of a DMA or a SORT before write `k`, `buf` being what it writes. -/
def WritingAt (q : Regs) (buf : List Word) (k : Nat) (q' : Regs) : Prop :=
  q' = { q with phase := .wr, idx := k, buf := buf }

theorem dma_read_row {k : Nat} {acc : List Word} (hop : q.op = .dma) (hacc : acc.length = k)
    (hs : s.RunsAt x { q with phase := .rd, idx := k, buf := acc }) :
    ∃ after : Word → State → State, step s = readWord (wordAddr x q.b k) s (fun w t => .next (after w t)) ∧
      ∀ w (t : State), t.RunsAt x { q with phase := .rd, idx := k, buf := acc } →
        after w t = t.setRegs (
          if k + 1 = q.n * q.n then { q with phase := .wr, idx := 0, buf := acc ++ [w] }
          else { q with phase := .rd, idx := k + 1, buf := acc ++ [w] }) := by
  refine ⟨dmaAfterRead, ?_, fun w t ht => ?_⟩
  · rw [hs.step_dma hop, dmaTick_rd (by rw [hs.regs]), hs.regs, hs.xlen]
  · rw [dmaAfterRead_eq (by rw [ht.regs]; exact hacc), ht.regs]

/-- A write row of a DMA matches the body of the write loop (40_dma_transpose.md R100, R108). -/
theorem dma_write_matches {r q' : Regs} {buf : List Word} {k fuel : Nat} {go : State → Result} (hop : q.op = .dma)
    (hbuf : buf.length = q.n * q.n) (hk : k < q.n * q.n) (hat : WritingAt q buf k q') (hs : s.RunsAt x q')
    (hgo : RestMatches x r (WritingAt q buf) (q.n * q.n) k fuel go) :
    Matches s.env (untilIdle (fuel + 1) s)
      (writeWord (wordAddr x q.a k) (buf.getD (transposeIndex q.n k) 0) (s.setRegs r) go) := by
  cases hat
  refine writeWord_matches hs (after := dmaAfterWrite) ?_ fun t ht => hgo t _ _ ht ?_
  · rw [hs.step_dma hop, dmaTick_wr (by rw [hs.regs]), hs.regs, hs.xlen,
      bufCell_of_lt (hbuf.symm ▸ transposeIndex_lt hk)]
  · simp only [dmaAfterWrite, ht.regs]
    split
    · next hlast => exact .inl ⟨hlast, rfl⟩
    · next hmore => exact .inr ⟨by omega, _, rfl, rfl⟩

theorem sort_read_row {k : Nat} {acc : List Word} (hop : q.op = .sort) (hacc : acc.length = k)
    (hs : s.RunsAt x { q with phase := .rd, idx := k, buf := acc }) :
    ∃ after : Word → State → State, step s = readWord (wordAddr x q.a k) s (fun w t => .next (after w t)) ∧
      ∀ w (t : State), t.RunsAt x { q with phase := .rd, idx := k, buf := acc } →
        after w t = t.setRegs (
          if k + 1 = q.len then { q with phase := .srt, idx := 0, buf := acc ++ [w] }
          else { q with phase := .rd, idx := k + 1, buf := acc ++ [w] }) := by
  refine ⟨sortAfterRead, ?_, fun w t ht => ?_⟩
  · rw [hs.step_sort hop, sortTick_rd (by rw [hs.regs]), hs.regs, hs.xlen]
  · rw [sortAfterRead_eq (by rw [ht.regs]; exact hacc), ht.regs]

/-- A write row of a SORT matches the body of the write loop (41_sort.md R120, R129). -/
theorem sort_write_matches {r q' : Regs} {buf : List Word} {k fuel : Nat} {go : State → Result} (hop : q.op = .sort)
    (hbuf : buf.length = q.len) (hk : k < q.len) (hat : WritingAt q buf k q') (hs : s.RunsAt x q')
    (hgo : RestMatches x r (WritingAt q buf) q.len k fuel go) :
    Matches s.env (untilIdle (fuel + 1) s)
      (writeWord (wordAddr x q.a k) (buf.getD k 0) (s.setRegs r) go) := by
  cases hat
  refine writeWord_matches hs (after := sortAfterWrite) ?_ fun t ht => hgo t _ _ ht ?_
  · rw [hs.step_sort hop, sortTick_wr (by rw [hs.regs]), hs.regs, hs.xlen, bufCell_of_lt (hbuf.symm ▸ hk)]
  · simp only [sortAfterWrite, ht.regs]
    split
    · next hlast => exact .inl ⟨hlast, rfl⟩
    · next hmore => exact .inr ⟨by omega, _, rfl, rfl⟩

end Engines

/-! ## A command from its first row on -/

section Whole

variable {s : State} {x : Xlen} {q : Regs} (r : Regs)

theorem dma_steps_match (hop : q.op = .dma) (hpos : 0 < q.n * q.n)
    (hs : s.RunsAt x { q with phase := .rd, idx := 0, buf := [] }) :
    Matches s.env (untilIdle (2 * (q.n * q.n)) s)
      (readLoop x q.b (q.n * q.n) 0 [] (s.setRegs r) fun buf t =>
        forLoop (fun m t go => writeWord (wordAddr x q.a m) (buf.getD (transposeIndex q.n m) 0) t go)
          (q.n * q.n) 0 t respondOk) := by
  have hfuel : 2 * (q.n * q.n) = 1 * (q.n * q.n) + q.n * q.n := by omega
  rw [hfuel]
  refine readLoop_matches (row := fun k acc => { q with phase := .rd, idx := k, buf := acc })
    (done := fun buf => { q with phase := .wr, idx := 0, buf := buf })
    (fun _ _ _ _ hacc hs => dma_read_row hop hacc hs) (fun buf t hbuf ht => ?_) hpos (Nat.zero_add _) rfl hs
  exact forLoop_matches (At := WritingAt q buf)
    (fun _ _ _ _ _ hk hat hs hgo => dma_write_matches hop hbuf hk hat hs hgo) hpos (Nat.zero_add _) rfl ht

theorem sort_steps_match (hop : q.op = .sort) (hpos : 0 < q.len)
    (hs : s.RunsAt x { q with phase := .rd, idx := 0, buf := [] }) :
    Matches s.env (untilIdle (2 * q.len + 1) s)
      (readLoop x q.a q.len 0 [] (s.setRegs r) fun buf t =>
        forLoop (fun k t go => writeWord (wordAddr x q.a k) ((sortPrefix q.eff buf).getD k 0) t go)
          q.len 0 t respondOk) := by
  have hfuel : 2 * q.len + 1 = (1 * q.len + 1) + q.len := by omega
  rw [hfuel]
  refine readLoop_matches (row := fun k acc => { q with phase := .rd, idx := k, buf := acc })
    (done := fun buf => { q with phase := .srt, idx := 0, buf := buf })
    (fun _ _ _ _ hacc hs => sort_read_row hop hacc hs) (fun buf t hbuf ht => ?_) hpos (Nat.zero_add _) rfl hs
  have hsort : step t = .next (t.setRegs { q with phase := .wr, idx := 0, buf := sortPrefix q.eff buf }) := by
    rw [ht.step_sort hop, sortTick_srt (by rw [ht.regs]), sortBuffer, ht.regs]
  rw [untilIdle_next ht.st ht.outstanding hsort]
  exact forLoop_matches (At := WritingAt q (sortPrefix q.eff buf))
    (fun _ _ _ _ _ hk hat hs hgo => sort_write_matches hop ((sortPrefix_length ..).trans hbuf) hk hat hs hgo)
    hpos (Nat.zero_add _) rfl (ht.setRegs _)

theorem crush_steps_match (hop : q.op = .crush) (hpos : 0 < q.iter)
    (hs : s.RunsAt x { q with phase := .r1, idx := 0 }) :
    Matches s.env (untilIdle (3 * q.iter) s)
      (forLoop
        (fun i t go =>
          readByte (addrAt x q.b (2 * i)) t fun v1 t =>
            readByte (addrAt x q.b (2 * i + 1)) t fun v2 t =>
              writeByte (addrAt x q.a i) (packNibbles v1 v2) t go)
        q.iter 0 (s.setRegs r) respondOk) :=
  forLoop_matches (At := CrushAt q) (fun _ _ _ _ _ hk hat hs hgo => crush_iteration_matches hop hk hat hs hgo)
    hpos (Nat.zero_add _) ⟨q.v1, q.v2, rfl⟩ hs

theorem expand_steps_match (hop : q.op = .expand) (hpos : 0 < q.iter)
    (hs : s.RunsAt x { q with phase := .r, idx := 0 }) :
    Matches s.env (untilIdle (3 * q.iter) s)
      (forLoop
        (fun i t go =>
          readByte (addrAt x q.b i) t fun v1 t =>
            writeByte (addrAt x q.a (2 * i)) (lowNibble v1) t fun t =>
              writeByte (addrAt x q.a (2 * i + 1)) (highNibble v1) t go)
        q.iter 0 (s.setRegs r) respondOk) :=
  forLoop_matches (At := ExpandAt q) (fun _ _ _ _ _ hk hat hs hgo => expand_iteration_matches hop hk hat hs hgo)
    hpos (Nat.zero_add _) ⟨q.v1, rfl⟩ hs

end Whole

/-! ## The four commands -/

section Commands

variable (s : State) (r : Regs)

theorem dma_matches (dst src : Addr) (g : Operand) :
    Matches s.env (finish (dmaAccept dst src g s)) (dmaPseudocode dst src g (s.setRegs r)) :=
  dma_steps_match (s := dmaAccept dst src g s) (q := (dmaAccept dst src g s).regs) r rfl (grainDim_sq_pos _)
    (.start s _)

/-- With nothing to do, the acceptance and the pseudocode respond at once. -/
theorem finished_matches : Matches s.env (finish (s.finished s.mem [] .ok)) (respondOk (s.setRegs r).started) := by
  have hend : (s.setRegs r).started.respond .ok = s.finished s.mem [] .ok := start_respond s r
  rw [finish, untilIdle_idle _ rfl, respondOk, hend]
  exact matches_of_idle _ rfl

theorem sort_matches (addr : Addr) (len sortLen : Operand) :
    Matches s.env (finish (sortAccept addr len sortLen s)) (sortPseudocode addr len sortLen (s.setRegs r)) := by
  rw [sortAccept_eq]
  split
  · next hlen =>
    simp only [sortPseudocode, State.setRegs_params, hlen]
    exact finished_matches s r
  · next hlen =>
    exact sort_steps_match (s := s.start _) r rfl (Nat.pos_of_ne_zero hlen) (.start s _)

theorem crush_matches (dst src : Addr) (count : Operand) :
    Matches s.env (finish (crushAccept dst src count s)) (crushPseudocode dst src count (s.setRegs r)) := by
  rw [crushAccept_eq]
  simp only [crushPseudocode, State.setRegs_params, ← pairCount_eq]
  split
  · next hiter =>
    rw [hiter]
    exact finished_matches s r
  · next hiter =>
    exact crush_steps_match (s := s.start _) r rfl (Nat.pos_of_ne_zero hiter) (.start s _)

theorem expand_matches (dst src : Addr) (count : Operand) :
    Matches s.env (finish (expandAccept dst src count s)) (expandPseudocode dst src count (s.setRegs r)) := by
  rw [expandAccept_eq]
  split
  · next hiter =>
    simp only [expandPseudocode, State.setRegs_params, hiter]
    exact finished_matches s r
  · next hiter =>
    exact expand_steps_match (s := s.start _) r rfl (Nat.pos_of_ne_zero hiter) (.start s _)

/-- The invocation of a command from an IDLE CORE matches its pseudocode, whatever registers the latter starts with. -/
theorem invocation_matches (i : Instr) {s : State} (hst : s.st = .idle) (r : Regs) :
    Matches s.env (invocation i s) (pseudocode i (s.setRegs r)) := by
  cases i with
  | dma dst src g =>
    rw [invocation_eq (exec_dma_idle hst ..)]
    exact dma_matches s r dst src g
  | sort addr len sortLen =>
    rw [invocation_eq (exec_sort_idle hst ..)]
    exact sort_matches s r addr len sortLen
  | crush dst src count =>
    rw [invocation_eq (exec_crush_idle hst ..)]
    exact crush_matches s r dst src count
  | expand dst src count =>
    rw [invocation_eq (exec_expand_idle hst ..)]
    exact expand_matches s r dst src count

end Commands

/-- Settles O23: the simulation, with the registers the state already has. -/
theorem stepTablesMeetPseudocode : Obligations.StepTablesMeetPseudocode := by
  intro i s hst
  obtain ⟨t, r, hinv, hpseudo, hidle, -⟩ := invocation_matches i hst s.regs
  exact ⟨t, r, hinv, hpseudo, hidle⟩

/-- Settles O16: both invocations match the one pseudocode, which has no registers. -/
theorem oldRegistersNeverObserved : Obligations.OldRegistersNeverObserved := by
  intro i s r hst
  obtain ⟨t, r₁, hinv, hpseudo, hidle, -⟩ := invocation_matches i hst s.regs
  obtain ⟨t', r₂, hinv', hpseudo', hidle', -⟩ := invocation_matches i (s := s.setRegs r) hst s.regs
  have heq : t.setRegs r₁ = t'.setRegs r₂ := Host.Outcome.next.inj (hpseudo.symm.trans hpseudo')
  have ht' : t' = t.setRegs t'.regs := by
    change (t'.setRegs r₂).setRegs t'.regs = (t.setRegs r₁).setRegs t'.regs
    rw [heq]
  refine ⟨t, t'.regs, hinv, ht' ▸ hinv', fun ht => ?_⟩
  have hst' : t'.st = .idle := (congrArg State.st heq).symm.trans ht
  have hregs : r₁ = r₂ := congrArg State.regs heq
  rw [← hidle ht, hregs, hidle' hst']

/-! ## A call that does not return -/

section Waiting

variable {s : State} (hi : s.Inv) (hst : s.st = .run)
include hi hst

/-- In RUN, but for SORT's sort, a step is one Memory Port call (10_state.md R26). -/
theorem State.Inv.step_row_of_phase (hph : s.regs.phase ≠ .srt) :
    ∃ (c : Access) (perform after : State → State),
      step s = portCall c.addr c.size c.kind perform s fun t => .next (after t) := by
  obtain ⟨-, hsrt, -⟩ | hrow := hi.step_run_cases hst
  · exact absurd hsrt hph
  · exact hrow

/-- A call that does not return in its turn leaves the CORE at the same row (20_memory.md R73). -/
theorem State.Inv.step_pending (hph : s.regs.phase ≠ .srt) {moves : List Move} {later : List Turn}
    (henv : s.env = { moves := moves, answer := .pending } :: later) (hreset : Move.reset ∉ moves) :
    step s = .next (s.atCall.setOutstanding true) ∧ s.atCall.st = .run ∧ s.atCall.regs = s.regs := by
  have hturn : s.nextTurn = { moves := moves, answer := .pending } := by simp [State.nextTurn, henv]
  obtain ⟨hcall, hregs⟩ : s.atCall.st = s.st ∧ s.atCall.regs = s.regs :=
    moves_core_of_no_reset (s.setEnv s.env.tail) s.nextTurn.moves (by rwa [hturn])
  obtain ⟨c, perform, after, hstep⟩ := hi.step_row_of_phase hst hph
  refine ⟨?_, hcall.trans hst, hregs⟩
  simp only [hstep, portCall, hcall, hst, hturn]

end Waiting

/-- A call still outstanding at the end of the script leaves every step where it is (20_memory.md R73). -/
theorem State.Inv.step_stuck {s : State} (hi : s.Inv) (ho : s.outstanding = true) (henv : s.env = []) :
    step s = .next s := by
  obtain ⟨-, -, -, hout⟩ := id hi
  obtain ⟨hst, hph⟩ := hout ho
  obtain ⟨c, perform, after, hstep⟩ := hi.step_row_of_phase hst hph
  rw [hstep]
  exact portCall_waiting henv ho hst ..

/-- Settles O15: the simulation for the whole invocation, then the one step at a call that does not return. -/
theorem onlyAHangingPortStops : Obligations.OnlyAHangingPortStops := by
  refine ⟨fun i s hst => ?_, fun s moves later hi hst hph henv hreset => ?_,
    fun s hi ho henv => hi.step_stuck ho henv⟩
  · obtain ⟨t, ht⟩ := exec_idle i hst
    obtain ⟨u, -, hinv, -, -, hrun⟩ := invocation_matches i hst s.regs
    exact ⟨t, u, ht, (invocation_eq ht).symm.trans hinv, hrun⟩
  · obtain ⟨hstep, hcall, hregs⟩ := hi.step_pending hst hph henv hreset
    exact ⟨_, hstep, hcall, rfl, hregs, rfl, atCall_calls s, atCall_responses s⟩

end Sys2Proof.Machine
end

section
/-! The reference memory as the statements about it put it: addresses modulo 2^XLEN, which accesses are granted, and
little-endian words (20_memory.md R52, R56, R57, R59). -/

namespace Sys2Proof.Machine

/-- Settles O24: the address forms' own law, `x.size` being 2^XLEN. -/
theorem addressesWrap : Obligations.AddressesWrap := addrAt_toNat

/-! ## Accessible -/

theorem okAt_iff {denied : List Region} {a : Nat} {k : Kind} :
    okAt denied a k = true ↔ ∀ r ∈ denied, ¬(r.kind = k ∧ r.lo ≤ a ∧ a ≤ r.hi) := by
  simp [okAt, Region.refuses, or_assoc, imp_iff_not_or]

theorem misaligned_iff {a : Addr} {n : Size} : misaligned a n = true ↔ n = .word ∧ a.toNat % 4 ≠ 0 := by
  simp [misaligned]

theorem accessible_iff {s : State} {a : Addr} {n : Size} {k : Kind} :
    s.accessible a n k = true ↔
      (∀ t < n.bytes, okAt s.denied (byteAddr s.params.xlen a t) k = true) ∧
        (s.params.enforceAlign = true → ¬misaligned a n = true) := by
  simp [State.accessible, imp_iff_not_or]

/-- Settles O26: byte by byte and region by region, then the alignment. -/
theorem accessibleRule : Obligations.AccessibleRule := by
  intro s a n k
  simp only [accessible_iff, okAt_iff, misaligned_iff, not_and, not_not]

/-! ## Words -/

/-- The four byte locations of a word access are apart, at either width. -/
theorem word_bytes_apart (x : Xlen) (a : Addr) {i j : Nat} (hi : i < 4) (hj : j < 4) :
    (addrAt x a i).toNat = (addrAt x a j).toNat ↔ i = j :=
  have h4 := four_le_size x
  ⟨addrAt_inj (by omega) (by omega), fun h => h ▸ rfl⟩

/-- Byte `t` of a word written, read back (20_memory.md R57). -/
theorem Memory.read_writeWord_same {m : Memory} (hm : m.wf = true) (x : Xlen) (a : Addr) (v : Word) {t : Nat}
    (ht : t < 4) : (m.writeWord x a v).read (addrAt x a t).toNat = v.extractLsb' (8 * t) 8 := by
  have h0 := Memory.write_wf hm (addrAt x a 0).toNat (v.extractLsb' 0 8)
  have h1 := Memory.write_wf h0 (addrAt x a 1).toNat (v.extractLsb' 8 8)
  have h2 := Memory.write_wf h1 (addrAt x a 2).toNat (v.extractLsb' 16 8)
  simp (disch := omega) only [Memory.writeWord, Memory.read_write h2, Memory.read_write h1, Memory.read_write h0,
    Memory.read_write hm, word_bytes_apart]
  interval_cases t <;> rfl

/-- Words with the same four bytes are the same. -/
theorem word_eq_of_bytes {v w : Word} (h : ∀ t < 4, v.extractLsb' (8 * t) 8 = w.extractLsb' (8 * t) 8) : v = w := by
  apply BitVec.eq_of_getLsbD_eq
  intro i hi
  have hbit := congrArg (·.getLsbD (i % 8)) (h (i / 8) (by omega))
  simpa [BitVec.getLsbD_extractLsb', Nat.mod_lt, Nat.div_add_mod] using hbit

/-- Byte `t` of four bytes put together, the highest first, is byte `t` of them. -/
theorem extractLsb'_bytes (b : Nat → Byte) {t : Nat} (ht : t < 4) :
    (b 3 ++ b 2 ++ b 1 ++ b 0 : Word).extractLsb' (8 * t) 8 = b t := by
  apply BitVec.eq_of_getLsbD_eq
  intro i hi
  simp only [BitVec.getLsbD_extractLsb', BitVec.getLsbD_append, hi]
  interval_cases t <;> grind

/-- Byte `t` of a word read (20_memory.md R57). -/
theorem Memory.extractLsb'_readWord (m : Memory) (x : Xlen) (a : Addr) {t : Nat} (ht : t < 4) :
    (m.readWord x a).extractLsb' (8 * t) 8 = m.read (addrAt x a t).toNat :=
  extractLsb'_bytes (fun t => m.read (addrAt x a t).toNat) ht

/-- A word read back is the word written. -/
theorem Memory.readWord_writeWord {m : Memory} (hm : m.wf = true) (x : Xlen) (a : Addr) (v : Word) :
    (m.writeWord x a v).readWord x a = v :=
  word_eq_of_bytes fun _ ht => (Memory.extractLsb'_readWord _ x a ht).trans (Memory.read_writeWord_same hm x a v ht)

/-- Settles O25: each byte of a word written and of a word read, and the bytes put together. -/
theorem wordsAreLittleEndian : Obligations.WordsAreLittleEndian :=
  fun x m a v hm =>
    ⟨fun _ ht => Memory.read_writeWord_same hm x a v ht, fun _ hloc => Memory.read_writeWord_other m x a v hloc,
      Memory.readWord_writeWord hm x a v, fun _ ht => m.extractLsb'_readWord x a ht⟩

end Sys2Proof.Machine
end

section
/-! What a whole command leaves in the log of calls and in memory: each Memory Port call logs what it did, through the
pseudocode, which has no rows and no registers (20_memory.md R51, R60, R63). -/

namespace Sys2Proof.Machine

/-! ## The trace of a stretch of an invocation -/

/-- From `s` to `t` the CORE made only accesses of size `n`, and with no other actor (20_memory.md R66) memory is what
those accesses stored. -/
def Traces (n : Size) (s t : State) : Prop :=
  ∃ new, t.calls = s.calls ++ new ∧ (∀ c ∈ new, c.size = n) ∧ t.params = s.params ∧
    (s.env = [] → t.env = [] ∧ t.mem = new.foldl (Memory.replay s.params.xlen) s.mem)

section Traces

variable {n : Size} {s t u : State}

/-- No call was made, and nothing but another actor changed memory. -/
theorem Traces.of_no_call (hcalls : t.calls = s.calls) (hparams : t.params = s.params)
    (hquiet : s.env = [] → t.env = [] ∧ t.mem = s.mem) : Traces n s t :=
  ⟨[], by simpa using hcalls, by simp, hparams, hquiet⟩

/-- One call was made. -/
theorem Traces.of_call {c : Access} (hn : c.size = n) (hcalls : t.calls = s.calls ++ [c]) (hparams : t.params = s.params)
    (henv : t.env = s.env) (hmem : t.mem = Memory.replay s.params.xlen s.mem c) : Traces n s t :=
  ⟨[c], hcalls, by simpa using hn, hparams, fun h => ⟨henv.trans h, hmem⟩⟩

theorem Traces.trans (h₁ : Traces n s t) (h₂ : Traces n t u) : Traces n s u := by
  obtain ⟨new₁, hcalls₁, hn₁, hparams₁, hquiet₁⟩ := h₁
  obtain ⟨new₂, hcalls₂, hn₂, hparams₂, hquiet₂⟩ := h₂
  refine ⟨new₁ ++ new₂, by rw [hcalls₂, hcalls₁, List.append_assoc], ?_, hparams₂.trans hparams₁, fun henv => ?_⟩
  · intro c hc
    exact (List.mem_append.1 hc).elim (hn₁ c) (hn₂ c)
  · obtain ⟨henv₁, hmem₁⟩ := hquiet₁ henv
    obtain ⟨henv₂, hmem₂⟩ := hquiet₂ henv₁
    exact ⟨henv₂, by rw [hmem₂, hmem₁, hparams₁, List.foldl_append]⟩

variable (n) (s)

theorem traces_atCall : Traces n s s.atCall :=
  .of_no_call (atCall_calls s) (atCall_params s) fun h => ⟨by simp [h], by simp [afterMoves_of_quiet s h]⟩

theorem traces_started : Traces n s s.started := .of_no_call rfl rfl fun h => ⟨h, rfl⟩

theorem traces_respond (r : Response) : Traces n s (s.respond r) := .of_no_call rfl rfl fun h => ⟨h, rfl⟩

theorem traces_applyReset : Traces n s s.applyReset := .of_no_call rfl rfl fun h => ⟨h, rfl⟩

theorem traces_setOutstanding (b : Bool) : Traces n s (s.setOutstanding b) := .of_no_call rfl rfl fun h => ⟨h, rfl⟩

/-- A call that raises AddressFault is logged and stores nothing (20_memory.md R54). -/
theorem traces_failedCall (a : Addr) (k : Kind) : Traces n s (s.logCall (failedCall a k n)) :=
  .of_call rfl rfl rfl rfl (by cases k <;> cases n <;> rfl)

theorem traces_performReadWord (a : Addr) : Traces .word s (performReadWord a s) := .of_call rfl rfl rfl rfl rfl

theorem traces_performReadByte (a : Addr) : Traces .byte s (performReadByte a s) := .of_call rfl rfl rfl rfl rfl

theorem traces_performWriteWord (a : Addr) (v : Word) : Traces .word s (performWriteWord a v s) :=
  .of_call rfl rfl rfl rfl rfl

theorem traces_performWriteByte (a : Addr) (v : Byte) : Traces .byte s (performWriteByte a v s) :=
  .of_call rfl rfl rfl rfl (by simp [Memory.replay])

end Traces

/-! ## The Memory Port operations and the loops of the pseudocode -/

/-- Every next state `o` answers is traced from `s`. -/
def TracesTo (n : Size) (s : State) (o : Result) : Prop := ∀ t, o = .next t → Traces n s t

section TracesTo

variable {n : Size}

theorem TracesTo.trans {s t : State} {o : Result} (h₁ : Traces n s t) (h₂ : TracesTo n t o) : TracesTo n s o :=
  fun u hu => h₁.trans (h₂ u hu)

/-- Whatever the port or the outside does to a call, it is traced. -/
theorem portCall_traces {k : Kind} {perform : State → State} {granted : State → Result}
    (hperform : ∀ t, Traces n t (perform t)) (hgranted : ∀ t, TracesTo n t (granted t)) (a : Addr) (s : State) :
    TracesTo n s (portCall a n k perform s granted) := by
  intro u hu
  refine (traces_atCall n s).trans ?_
  obtain ⟨-, rfl⟩ | ⟨-, -, rfl⟩ | ⟨-, rfl⟩ | ⟨-, -, hnext⟩ | ⟨-, -, ⟨-, rfl⟩ | rfl⟩ := portCall_next hu
  · exact .of_no_call rfl rfl fun h => ⟨h, rfl⟩
  · exact traces_setOutstanding ..
  · exact (traces_failedCall n _ a k).trans (traces_respond ..)
  · exact (hperform _).trans (hgranted _ u hnext)
  · exact (hperform _).trans (traces_applyReset ..)
  · exact (traces_failedCall n _ a k).trans (traces_applyReset ..)

theorem readWord_traces {use : Word → State → Result} (h : ∀ w t, TracesTo .word t (use w t)) (a : Addr) (s : State) :
    TracesTo .word s (readWord a s use) :=
  portCall_traces (fun t => traces_performReadWord t a) (fun t => h _ t) a s

theorem readByte_traces {use : Byte → State → Result} (h : ∀ v t, TracesTo .byte t (use v t)) (a : Addr) (s : State) :
    TracesTo .byte s (readByte a s use) :=
  portCall_traces (fun t => traces_performReadByte t a) (fun t => h _ t) a s

theorem writeWord_traces {go : State → Result} (h : ∀ t, TracesTo .word t (go t)) (a : Addr) (v : Word) (s : State) :
    TracesTo .word s (writeWord a v s go) :=
  portCall_traces (fun t => traces_performWriteWord t a v) h a s

theorem writeByte_traces {go : State → Result} (h : ∀ t, TracesTo .byte t (go t)) (a : Addr) (v : Byte) (s : State) :
    TracesTo .byte s (writeByte a v s go) :=
  portCall_traces (fun t => traces_performWriteByte t a v) h a s

theorem respondOk_traces (s : State) : TracesTo n s (respondOk s) := by
  rintro t ⟨⟩
  exact traces_respond ..

theorem forLoop_traces {body : Nat → State → (State → Result) → Result}
    (hbody : ∀ k go s, (∀ t, TracesTo n t (go t)) → TracesTo n s (body k s go)) (count lo : Nat) (s : State) :
    TracesTo n s (forLoop body count lo s respondOk) := by
  induction count generalizing lo s with
  | zero => exact respondOk_traces s
  | succ count ih => exact hbody lo _ s fun t => ih (lo + 1) t

theorem readLoop_traces {x : Xlen} {base : Addr} {go : List Word → State → Result}
    (hgo : ∀ buf t, TracesTo .word t (go buf t)) (count lo : Nat) (acc : List Word) (s : State) :
    TracesTo .word s (readLoop x base count lo acc s go) := by
  induction count generalizing lo acc s with
  | zero => exact hgo acc s
  | succ count ih => exact readWord_traces (fun w t => ih (lo + 1) (acc ++ [w]) t) _ s

end TracesTo

/-! ## The four commands -/

/-- The one size of a command's accesses (20_memory.md R60). -/
def accessSize : Instr → Size
  | .dma _ _ _ | .sort _ _ _ => .word
  | .crush _ _ _ | .expand _ _ _ => .byte

theorem pseudocode_traces (i : Instr) (s : State) : TracesTo (accessSize i) s (pseudocode i s) := by
  refine .trans (traces_started _ s) ?_
  cases i with
  | dma dst src g =>
    exact readLoop_traces (fun _ t => forLoop_traces (fun _ _ s hgo => writeWord_traces hgo _ _ s) _ _ t) _ _ _ _
  | sort addr len sortLen =>
    exact readLoop_traces (fun _ t => forLoop_traces (fun _ _ s hgo => writeWord_traces hgo _ _ s) _ _ t) _ _ _ _
  | crush dst src count =>
    exact forLoop_traces (fun _ _ s hgo => readByte_traces (fun _ t => readByte_traces
      (fun _ t => writeByte_traces hgo _ _ t) _ t) _ s) _ _ _
  | expand dst src count =>
    exact forLoop_traces (fun _ _ s hgo => readByte_traces (fun _ t => writeByte_traces
      (fun t => writeByte_traces hgo _ _ t) _ _ t) _ s) _ _ _

/-- An invocation leaves the log and the memory its pseudocode leaves. -/
theorem invocation_traces {i : Instr} {s t : State} (hst : s.st = .idle) (h : invocation i s = .next t) :
    Traces (accessSize i) s t := by
  obtain ⟨u, r, hu, hpseudo, -⟩ := stepTablesMeetPseudocode i s hst
  cases hu.symm.trans h
  have htrace := pseudocode_traces i s _ hpseudo
  exact htrace

/-- Settles O19: the sizes of the trace. -/
theorem accessWidths : Obligations.AccessWidths := by
  intro i s t hst h
  obtain ⟨new, hcalls, hsize, -⟩ := invocation_traces hst h
  refine ⟨new, hcalls, ?_⟩
  cases i <;> exact hsize

/-- Settles O21: the memory of the trace, with no other actor. -/
theorem memoryIsTheWritesReplayed : Obligations.MemoryIsTheWritesReplayed := by
  intro i s t hready h
  obtain ⟨new, hcalls, -, -, hquiet⟩ := invocation_traces hready.1 h
  exact ⟨new, hcalls, (hquiet hready.2).2⟩

end Sys2Proof.Machine
end

section
/-! One Memory Port call by the port's answer: where it is refused, by the script or by the map, and where it is granted
after whatever the other actors did (20_memory.md R54, R55, R59, R61, R66, R67). -/

namespace Sys2Proof.Machine

/-! ## A misaligned base -/

/-- With alignment enforced no misaligned word access is granted (20_memory.md R59). -/
theorem misaligned_word_refused {s : State} {a : Addr} (halign : s.params.enforceAlign = true)
    (hmis : a.toNat % 4 ≠ 0) (k : Kind) : ¬s.accessible a .word k = true := fun h =>
  (accessible_iff.1 h).2 halign (misaligned_iff.2 ⟨rfl, hmis⟩)

/-- The first word of an array at an address of the CORE stands at that address. -/
theorem wordAddr_zero {x : Xlen} {base : Addr} (h : x.fits base = true) : wordAddr x base 0 = base := by
  apply BitVec.eq_of_toNat_eq
  simp only [Xlen.fits, decide_eq_true_eq] at h
  simpa [wordAddr] using Nat.mod_eq_of_lt h

/-- A read loop at a base the port refuses ends at its first call. -/
theorem readLoop_refused {s : State} {base : Addr} {count : Nat} {go : List Word → State → Result} (henv : s.env = [])
    (hfits : s.params.xlen.fits base = true) (hacc : ¬s.accessible base .word .read = true) (hcount : 0 < count) :
    readLoop s.params.xlen base count 0 [] s.started go =
      .next (s.finished s.mem [failedCall base .read .word] (.addressFault base .read .word)) := by
  obtain ⟨rest, rfl⟩ := Nat.exists_eq_succ_of_ne_zero hcount.ne'
  rw [readLoop, wordAddr_zero hfits, readWord, portCall_quiet (s := s.started) henv rfl rfl,
    if_neg (show ¬s.started.accessible base .word .read = true from hacc)]
  rfl

/-- An invocation whose pseudocode responds ends in that same state (10_state.md R36). -/
theorem invocation_of_pseudocode {i : Instr} {s u : State} (hst : s.st = .idle) (h : pseudocode i s = .next u)
    (hu : u.st = .idle) : invocation i s = .next u := by
  obtain ⟨t, r, ht, hpseudo, hidle⟩ := stepTablesMeetPseudocode i s hst
  cases hpseudo.symm.trans h
  cases hidle hu
  exact ht

/-- Settles O27: the read loop of either pseudocode ends at its first call, which is at the base. -/
theorem misalignedBaseFaultsAtOnce : Obligations.MisalignedBaseFaultsAtOnce := by
  intro s base hready halign hfits hmis
  obtain ⟨hst, henv⟩ := hready
  have hacc := misaligned_word_refused halign hmis .read
  refine ⟨fun dst g => ?_, fun len sortLen hlen hne => ?_⟩
  · refine invocation_of_pseudocode hst ?_ rfl
    simp only [pseudocode, dmaPseudocode, latch_of_fits hfits]
    exact readLoop_refused henv hfits hacc (grainDim_sq_pos _)
  · refine invocation_of_pseudocode hst ?_ rfl
    simp only [pseudocode, sortPseudocode, latch_of_fits hfits, latch_of_fits hlen]
    exact readLoop_refused henv hfits hacc (Nat.pos_of_ne_zero (mt toNat_eq_zero_iff.1 hne))

/-! ## A call and the turn of the outside before it -/

/-- The turn of the script holds no reset: the port answers as the turn says, the CORE and its registers being as they
were. -/
theorem turn_of_no_reset {s : State} {turn : Turn} {later : List Turn} (henv : s.env = turn :: later)
    (hreset : Move.reset ∉ turn.moves) : s.nextTurn = turn ∧ s.atCall.st = s.st ∧ s.atCall.regs = s.regs := by
  have hturn : s.nextTurn = turn := by simp [State.nextTurn, henv]
  exact ⟨hturn, moves_core_of_no_reset (s.setEnv s.env.tail) s.nextTurn.moves (hturn ▸ hreset)⟩

/-- Settles O28: the row's call takes the AddressFault where the outside's moves have left the CORE. -/
theorem refusedAccessTransfersNothing : Obligations.RefusedAccessTransfersNothing := by
  intro s moves later c hi hst hc henv hreset
  obtain ⟨hturn, hcall, -⟩ := turn_of_no_reset henv hreset
  obtain ⟨perform, after, -, hstep⟩ := step_row hi hst hc
  have hfault : step s = .next (s.atCall.takeAddressFault c.addr c.kind c.size) := by
    simp only [hstep, portCall, hcall, hst, hturn]
  refine ⟨_, hfault, rfl, rfl, ?_, ?_⟩
  · simp [failedCall]
  · simp

/-! ## A granted row -/

/-- The next call of kind `k` and size `n` at `a` is granted, the CORE being still in RUN with its registers. -/
structure State.Grants (s : State) (a : Addr) (n : Size) (k : Kind) : Prop where
  st : s.atCall.st = .run
  regs : s.atCall.regs = s.regs
  answer : s.nextTurn.answer = .byMap
  accessible : s.atCall.accessible a n k = true

theorem portCall_granted {s : State} {a : Addr} {n : Size} {k : Kind} (h : s.Grants a n k) (perform : State → State)
    (granted : State → Result) : portCall a n k perform s granted = granted (perform s.atCall) := by
  simp only [portCall, h.st, h.answer, h.accessible, if_true]

theorem ContinuesFrom.mem {t u : State} (h : ContinuesFrom t u) : u.mem = t.mem := by
  obtain rfl | ⟨_, _, _, _, _, rfl⟩ := h
  · rfl
  · rfl

/-- After a granted row memory is what the other actors left with the row's write applied (20_memory.md R67). -/
theorem granted_mem {s u : State} {c : Access} {perform : State → State} (hperf : Performs s.params.xlen c perform)
    (h : ContinuesFrom (perform s.atCall) u) : u.mem = Memory.replay s.params.xlen s.atCall.mem c := by
  obtain ⟨d, hd⟩ := hperf s.atCall (congrArg Params.xlen (atCall_params s))
  rw [h.mem, hd]

/-- A granted row ends in the state its step table gives, with the row's write in memory. -/
theorem portCall_lands {s : State} {c : Access} {perform after : State → State} {P : State → Prop}
    (hg : s.Grants c.addr c.size c.kind) (hperf : Performs s.params.xlen c perform)
    (hcont : ∀ t, ContinuesFrom t (after t)) (hP : P (after (perform s.atCall))) :
    ∃ t, portCall c.addr c.size c.kind perform s (fun t => .next (after t)) = .next t ∧
      t.mem = Memory.replay s.params.xlen s.atCall.mem c ∧ P t :=
  ⟨_, portCall_granted hg .., granted_mem hperf (hcont _), hP⟩

section WordReads

variable {s : State} {a : Addr} (hg : s.Grants a .word .read) (hbuf : s.regs.buf.length = s.regs.idx)
include hg hbuf

/-- A word a DMA reads goes to the end of the buffer (40_dma_transpose.md R103). -/
theorem dmaAfterRead_lands (w : Word) :
    (dmaAfterRead w (performReadWord a s.atCall)).st = .run ∧
      (dmaAfterRead w (performReadWord a s.atCall)).regs.buf = s.regs.buf ++ [w] := by
  have hregs : (performReadWord a s.atCall).regs = s.regs := hg.regs
  rw [dmaAfterRead_eq (by rwa [hregs]), hregs]
  exact ⟨hg.st, by simp [apply_ite Regs.buf]⟩

/-- A word a SORT reads goes to the end of the buffer (41_sort.md R124). -/
theorem sortAfterRead_lands (w : Word) :
    (sortAfterRead w (performReadWord a s.atCall)).st = .run ∧
      (sortAfterRead w (performReadWord a s.atCall)).regs.buf = s.regs.buf ++ [w] := by
  have hregs : (performReadWord a s.atCall).regs = s.regs := hg.regs
  rw [sortAfterRead_eq (by rwa [hregs]), hregs]
  exact ⟨hg.st, by simp [apply_ite Regs.buf]⟩

end WordReads

/-- `t` is in RUN and holds what memory held at `a` at the call, where the row of a read puts it
(40_dma_transpose.md R108, 41_sort.md R129, 42_crush.md R147, 43_expand.md R162). -/
def ReadLands (s : State) (a : Addr) (t : State) : Prop :=
  t.st = .run ∧
    match s.regs.phase with
    | .rd => t.regs.buf = s.regs.buf ++ [s.atCall.mem.readWord s.params.xlen a]
    | .r1 => t.regs.v1 = s.atCall.mem.read a.toNat
    | .r2 => t.regs.v2 = s.atCall.mem.read a.toNat
    | .r => t.regs.v1 = s.atCall.mem.read a.toNat
    | _ => False

/-- Each row of the step tables, its call granted: the access is made on the memory the other actors left. -/
theorem step_lands {s : State} {c : Access} (hi : s.Inv) (hst : s.st = .run)
    (hc : s.regs.nextCall s.params.xlen = some c) (hg : s.Grants c.addr c.size c.kind) :
    ∃ t, step s = .next t ∧ t.mem = Memory.replay s.params.xlen s.atCall.mem c ∧
      (c.kind = .read → ReadLands s c.addr t) := by
  obtain ⟨-, -, hinv, -⟩ := id hi
  replace hinv := hinv hst
  rw [step_run hst]
  unfold Regs.nextCall at hc
  split at hc <;> cases hc <;> rename_i hop hph <;> simp only [ReadLands, hop, hph]
  · -- DMA, `RD`
    obtain ⟨-, -, -, -, -, hbuf⟩ := (Regs.inv_dma hop).1 hinv
    rw [dmaTick_rd hph]
    refine portCall_lands hg (performReadWord_performs _ _) (fun t => dmaAfterRead_continues _ t) fun _ => ?_
    simpa using dmaAfterRead_lands hg (by simpa [hph] using hbuf) _
  · -- DMA, `WR`
    obtain ⟨-, -, -, -, hidx, hbuf⟩ := (Regs.inv_dma hop).1 hinv
    replace hbuf : s.regs.buf.length = s.regs.n * s.regs.n := by simpa [hph] using hbuf
    rw [dmaTick_wr hph, bufCell_of_lt (hbuf ▸ transposeIndex_lt hidx)]
    exact portCall_lands hg (performWriteWord_performs _ _ _) dmaAfterWrite_continues nofun
  · -- SORT, `RD`
    obtain ⟨-, -, -, -, -, -, hbuf⟩ := (Regs.inv_sort hop).1 hinv
    rw [sortTick_rd hph]
    refine portCall_lands hg (performReadWord_performs _ _) (fun t => sortAfterRead_continues _ t) fun _ => ?_
    simpa using sortAfterRead_lands hg (by simpa [hph] using hbuf) _
  · -- SORT, `WR`
    obtain ⟨-, -, -, -, -, hidx, hbuf⟩ := (Regs.inv_sort hop).1 hinv
    replace hbuf : s.regs.buf.length = s.regs.len := by simpa [hph] using hbuf
    rw [sortTick_wr hph, bufCell_of_lt (hbuf ▸ hidx)]
    exact portCall_lands hg (performWriteWord_performs _ _ _) sortAfterWrite_continues nofun
  · -- CRUSH, `R1`
    rw [crushTick_r1 hph]
    exact portCall_lands hg (performReadByte_performs _ _) (fun t => crushAfterFirst_continues _ t)
      fun _ => ⟨hg.st, by simp [crushAfterFirst]⟩
  · -- CRUSH, `R2`
    rw [crushTick_r2 hph]
    exact portCall_lands hg (performReadByte_performs _ _) (fun t => crushAfterSecond_continues _ t)
      fun _ => ⟨hg.st, by simp [crushAfterSecond]⟩
  · -- CRUSH, `W`
    rw [crushTick_w hph]
    exact portCall_lands hg (performWriteByte_performs _ _ _) crushAfterWrite_continues nofun
  · -- EXPAND, `R`
    rw [expandTick_r hph]
    exact portCall_lands hg (performReadByte_performs _ _) (fun t => expandAfterRead_continues _ t)
      fun _ => ⟨hg.st, by simp [expandAfterRead]⟩
  · -- EXPAND, `WL`
    rw [expandTick_wl hph]
    exact portCall_lands hg (performWriteByte_performs _ _ _) expandAfterLow_continues nofun
  · -- EXPAND, `WH`
    rw [expandTick_wh hph]
    exact portCall_lands hg (performWriteByte_performs _ _ _) expandAfterHigh_continues nofun

/-- Settles O29: the moves before the call make the state at the call, and each row performs its access there. -/
theorem readSeesOtherActorsWrite : Obligations.ReadSeesOtherActorsWrite := by
  refine ⟨fun s a v later ans henv => ?_, fun s moves later c hi hst hc henv hreset hacc => ?_⟩
  · simp [State.afterMoves, State.nextTurn, henv, State.move, byteAddr]
  · obtain ⟨hturn, hcall, hregs⟩ := turn_of_no_reset henv hreset
    exact step_lands hi hst hc ⟨hcall.trans hst, hregs, by rw [hturn], hacc⟩

end Sys2Proof.Machine
end

section
/-! The command word and the response word: the fields of a word as numbers, and that encoding and decoding are inverse
(30_encoding.md R85 to R93). -/

namespace Sys2Proof

open Sys2Proof.Machine

/-! ## The fields of a command word -/

/-- The operation code and the operands as nested fields, below 2^(3*XLEN+2). -/
def Instr.wordNat (x : Xlen) (i : Instr) : Nat :=
  opCode i.op + 4 * (i.opA.toNat + x.size * (i.opB.toNat + x.size * i.opC.toNat))

theorem opCode_lt (op : Op) : opCode op < 4 := by cases op <;> decide

theorem operands_lt {x : Xlen} {i : Instr} (h : i.wf x = true) :
    i.opA.toNat < x.size ∧ i.opB.toNat < x.size ∧ i.opC.toNat < x.size := by
  simpa [wf_eq_operands_fit, Xlen.fits, and_assoc] using h

theorem two_pow_wordBits (x : Xlen) : 2 ^ (3 * x.bits + 2) = 4 * (x.size * (x.size * x.size)) := by
  simp only [Xlen.size]
  ring

theorem wordNat_lt {x : Xlen} {i : Instr} (h : i.wf x = true) : i.wordNat x < 4 * (x.size * (x.size * x.size)) := by
  obtain ⟨ha, hb, hc⟩ := operands_lt h
  exact fields_bound (opCode_lt _) ha hb hc

/-- A well-formed command's word is the sum of 30_encoding.md R85: no bit is lost. -/
theorem encode_toNat {x : Xlen} {i : Instr} (h : i.wf x = true) : (encode x i).toNat = i.wordNat x := by
  rw [encode, fields_nested, BitVec.toNat_ofNat]
  exact Nat.mod_eq_of_lt ((wordNat_lt h).trans_le (four_mul_size_cubed_le x))

/-- Settles O3: the sum in its nested form has no overflow. -/
theorem commandWordLayout : Obligations.CommandWordLayout := by
  intro x i h
  rw [encode_toNat h, fields_nested, two_pow_wordBits]
  exact ⟨rfl, wordNat_lt h⟩

/-! ## Decoding -/

theorem opCode_opOfBits (b : BitVec 2) : opCode (opOfBits b) = b.toNat := by
  revert b
  decide

/-- The two bits of an operation code tell it apart. -/
theorem opCode_injective : Function.Injective opCode :=
  Function.LeftInverse.injective (g := fun n => opOfBits (BitVec.ofNat 2 n)) fun op => by cases op <;> rfl

/-- A command is its operation code and its operand triple (30_encoding.md R86, R87). -/
theorem Instr.eq_of_fields {i j : Instr} (hop : opCode i.op = opCode j.op) (hA : i.opA.toNat = j.opA.toNat)
    (hB : i.opB.toNat = j.opB.toNat) (hC : i.opC.toNat = j.opC.toNat) : i = j := by
  rw [← commandOf_operands i, ← commandOf_operands j, opCode_injective hop, BitVec.eq_of_toNat_eq hA,
    BitVec.eq_of_toNat_eq hB, BitVec.eq_of_toNat_eq hC]

theorem commandOf_fields (op : Op) (a b c : Operand) :
    (commandOf op a b c).op = op ∧ (commandOf op a b c).opA = a ∧ (commandOf op a b c).opB = b ∧
      (commandOf op a b c).opC = c := by
  cases op <;> exact ⟨rfl, rfl, rfl, rfl⟩

/-- What a word decodes to, as numbers: its two low bits and its three operand fields (30_encoding.md R85, R93). -/
theorem decode_fields (x : Xlen) (w : Cmd) :
    opCode (decode x w).op = w.toNat % 4 ∧ (decode x w).opA.toNat = w.toNat / 4 % x.size ∧
      (decode x w).opB.toNat = w.toNat / (4 * x.size) % x.size ∧
      (decode x w).opC.toNat = w.toNat / (4 * x.size * x.size) % x.size := by
  have hB : 2 ^ (1 * x.bits + 2) = 4 * x.size := by simp only [Xlen.size]; ring
  have hC : 2 ^ (2 * x.bits + 2) = 4 * x.size * x.size := by simp only [Xlen.size]; ring
  obtain ⟨eop, eA, eB, eC⟩ := commandOf_fields (opOfBits (w.extractLsb' 0 2)) (operandField x w 0)
    (operandField x w 1) (operandField x w 2)
  rw [decode, eop, eA, eB, eC, opCode_opOfBits, operandField_toNat, operandField_toNat, operandField_toNat, hB, hC]
  exact ⟨by simp, by simp, rfl, rfl⟩

/-- Settles O1: the fields of the nested sum are read back one by one. -/
theorem decodeEncodeRoundTrip : Obligations.DecodeEncodeRoundTrip := by
  intro x i h
  obtain ⟨ha, hb, hc⟩ := operands_lt h
  obtain ⟨eop, eA, eB, eC⟩ := decode_fields x (encode x i)
  obtain ⟨hop, hA, hB, hC⟩ := fields_split (opCode_lt i.op) ha hb hc
  rw [encode_toNat h] at eop eA eB eC
  exact Instr.eq_of_fields (eop.trans hop) (eA.trans hA) (eB.trans hB) (eC.trans hC)

/-- A number below the product of the bounds is the nested sum of its fields. -/
theorem fields_join {S w : Nat} (hw : w < 4 * (S * (S * S))) :
    w % 4 + 4 * (w / 4 % S + S * (w / (4 * S) % S + S * (w / (4 * S * S) % S))) = w := by
  have htop : w / (4 * S * S) < S := Nat.div_lt_of_lt_mul (by linarith)
  rw [Nat.mod_eq_of_lt htop, ← Nat.div_div_eq_div_mul _ (4 * S), ← Nat.div_div_eq_div_mul, Nat.mod_add_div,
    Nat.mod_add_div, Nat.mod_add_div]

theorem decode_wf (x : Xlen) (w : Cmd) : (decode x w).wf x = true := by
  obtain ⟨-, eA, eB, eC⟩ := decode_fields x w
  simp only [wf_eq_operands_fit, Xlen.fits, eA, eB, eC, Nat.mod_lt _ (size_pos x), decide_true, Bool.and_self]

/-- Settles O2: the fields of a word, put together again, are the word. -/
theorem everyWordIsOneCommand : Obligations.EveryWordIsOneCommand := by
  intro x w hw
  obtain ⟨eop, eA, eB, eC⟩ := decode_fields x w
  rw [two_pow_wordBits] at hw
  refine ⟨decode_wf x w, BitVec.eq_of_toNat_eq ?_⟩
  rw [encode_toNat (decode_wf x w), Instr.wordNat, eop, eA, eB, eC, fields_join hw]

/-- Settles O4: each word is decoded. -/
theorem sampleCommandWords : Obligations.SampleCommandWords := by
  unfold Obligations.SampleCommandWords
  decide

/-! ## The response word -/

theorem addressFault_word_toNat (a : Addr) (k : Kind) (n : Size) :
    (Response.addressFault a k n).word.toNat =
      1 + (if k = .write then 2 else 0) + (if n = .word then 4 else 0) + a.toNat * 8 := by
  have ha := a.isLt
  cases k <;> cases n <;>
    simp [Response.word, Response.statusBit, Response.kindBit, Response.sizeBit, Response.faultAddr] <;> omega

/-- Settles O5: the fields stand apart, so their sum has no carry and no overflow. -/
theorem responseWordLayout : Obligations.ResponseWordLayout := by
  refine ⟨rfl, fun x a k n ha => ⟨addressFault_word_toNat a k n, ?_⟩⟩
  simp only [Xlen.fits, Xlen.size, decide_eq_true_eq] at ha
  rw [addressFault_word_toNat, pow_add]
  split <;> split <;> omega

end Sys2Proof
end

section
/-! The command channel in RUN, and whole commands by one induction over the Memory Port calls of their pseudocode: the
one response of a command, and what a command leaves unchanged (30_encoding.md R81 to R83, 60_exceptions.md R178). -/

namespace Sys2Proof.Machine

/-! ## The command channel in RUN -/

theorem ContinuesFrom.offered {t u : State} (h : ContinuesFrom t u) : u.offered = t.offered := by
  obtain rfl | ⟨_, _, _, _, _, rfl⟩ := h
  · rfl
  · rfl

theorem Performs.offered {x : Xlen} {c : Access} {perform : State → State} (h : Performs x c perform) {t : State}
    (ht : t.params.xlen = x) : (perform t).offered = t.offered := by
  obtain ⟨d, hd⟩ := h t ht
  rw [hd]

/-- A row takes nothing off the command channel; the outside alone adds to it (30_encoding.md R81). -/
theorem IsRow.offered {s t : State} (h : IsRow s (.next t)) : t.offered = s.afterMoves.offered := by
  obtain ⟨c, perform, after, hperf, hafter, hcall⟩ := h
  have hgranted : (perform s.atCall).offered = s.afterMoves.offered :=
    hperf.offered (congrArg Params.xlen (atCall_params s))
  obtain ⟨-, rfl⟩ | ⟨-, -, rfl⟩ | ⟨-, rfl⟩ | ⟨-, -, hnext⟩ | ⟨-, -, ⟨-, rfl⟩ | rfl⟩ := portCall_next hcall.symm
  · rfl
  · rfl
  · rfl
  · cases hnext
    exact (hafter _).offered.trans hgranted
  · exact hgranted
  · rfl

/-- Settles O8: another command goes to the end of the channel, and each kind of step in RUN leaves its words there. -/
theorem offeredCommandWaitsInRun : Obligations.OfferedCommandWaitsInRun := by
  refine fun s hst => ⟨fun i hi => exec_other hst hi.symm, fun t h => ?_⟩
  obtain hf | hsort | hrow := step_run_cases hst
  · cases hf.symm.trans h
  · cases hsort.symm.trans h
    exact ⟨[], (List.append_nil _).symm⟩
  · rw [(h ▸ hrow : IsRow s (.next t)).offered]
    exact afterMoves_offered s

/-! ## A state after some calls -/

/-- `s` after the calls `cs`, which left memory `m`. -/
def State.transferred (s : State) (m : Memory) (cs : List Access) : State :=
  { s with mem := m, calls := s.calls ++ cs }

section Transferred

variable (s : State) (m m' : Memory) (cs cs' : List Access)

@[simp] theorem transferred_params : (s.transferred m cs).params = s.params := rfl
@[simp] theorem transferred_st : (s.transferred m cs).st = s.st := rfl
@[simp] theorem transferred_mem : (s.transferred m cs).mem = m := rfl
@[simp] theorem transferred_outstanding : (s.transferred m cs).outstanding = s.outstanding := rfl
@[simp] theorem transferred_env : (s.transferred m cs).env = s.env := rfl
@[simp] theorem transferred_responses : (s.transferred m cs).responses = s.responses := rfl

@[simp] theorem transferred_self : s.transferred s.mem [] = s := by simp [State.transferred]

@[simp] theorem transferred_transferred : (s.transferred m cs).transferred m' cs' = s.transferred m' (cs ++ cs') := by
  simp [State.transferred]

theorem transferred_finished (r : Response) : (s.transferred m cs).finished m' cs' r = s.finished m' (cs ++ cs') r := by
  simp [State.transferred, State.finished]

theorem respond_eq_finished (r : Response) : s.respond r = s.finished s.mem [] r := by simp [State.finished]

theorem takeAddressFault_eq_finished (a : Addr) (k : Kind) (n : Size) :
    s.takeAddressFault a k n = s.finished s.mem [failedCall a k n] (.addressFault a k n) := rfl

end Transferred

/-! ## Induction over the calls of a command -/

/-- `perform` is a granted access of kind `k` and size `n` at `a`: it is logged with the value transferred, and memory
is what the call did to it. -/
def Transfers (k : Kind) (n : Size) (a : Addr) (perform : State → State) : Prop :=
  ∀ t : State, ∃ c : Access, c.kind = k ∧ c.size = n ∧ c.addr = a ∧
    perform t = t.transferred (t.mem.replay t.params.xlen c) [c]

theorem performReadWord_transfers (a : Addr) : Transfers .read .word a (performReadWord a) :=
  fun t => ⟨⟨.read, .word, a, some (t.mem.readWord t.params.xlen a)⟩, rfl, rfl, rfl, rfl⟩

theorem performReadByte_transfers (a : Addr) : Transfers .read .byte a (performReadByte a) :=
  fun t => ⟨⟨.read, .byte, a, some ((t.mem.read (byteAddr t.params.xlen a 0)).setWidth 32)⟩, rfl, rfl, rfl, rfl⟩

theorem performWriteWord_transfers (a : Addr) (v : Word) : Transfers .write .word a (performWriteWord a v) :=
  fun _ => ⟨⟨.write, .word, a, some v⟩, rfl, rfl, rfl, rfl⟩

theorem performWriteByte_transfers (a : Addr) (v : Byte) : Transfers .write .byte a (performWriteByte a v) :=
  fun t => ⟨⟨.write, .byte, a, some (v.setWidth 32)⟩, rfl, rfl, rfl, by
    simp [performWriteByte, Memory.replay, State.transferred, State.setMem, State.logCall]⟩

/-- The accesses a command may make (40_dma_transpose.md R103, 41_sort.md R121, 42_crush.md R142, 43_expand.md R157). -/
def Issues (x : Xlen) (i : Instr) (k : Kind) (n : Size) (a : Addr) : Prop :=
  match i, k with
  | .dma _ src g, .read =>
    n = .word ∧ ∃ j < grainDim (latch x g) * grainDim (latch x g), a = wordAddr x (latch x src) j
  | .dma dst _ g, .write =>
    n = .word ∧ ∃ j < grainDim (latch x g) * grainDim (latch x g), a = wordAddr x (latch x dst) j
  | .sort addr len _, _ => n = .word ∧ ∃ j < (latch x len).toNat, a = wordAddr x (latch x addr) j
  | .crush _ src count, .read => n = .byte ∧ ∃ j < 2 * pairCount (latch x count), a = addrAt x (latch x src) j
  | .crush dst _ count, .write => n = .byte ∧ ∃ j < pairCount (latch x count), a = addrAt x (latch x dst) j
  | .expand _ src count, .read => n = .byte ∧ ∃ j < (latch x count).toNat, a = addrAt x (latch x src) j
  | .expand dst _ count, .write => n = .byte ∧ ∃ j < 2 * (latch x count).toNat, a = addrAt x (latch x dst) j

/-- `P` holds of the response OK, and of an allowed call if it holds of what follows the granted access. -/
structure ClosedUnderCalls (allowed : Kind → Size → Addr → Prop) (P : State → Result → Prop) : Prop where
  respondOk : ∀ s, P s (respondOk s)
  call : ∀ {k n a perform granted}, allowed k n a → Transfers k n a perform → (∀ t, P t (granted t)) →
    ∀ s, P s (portCall a n k perform s granted)

section Closed

variable {allowed : Kind → Size → Addr → Prop} {P : State → Result → Prop} (h : ClosedUnderCalls allowed P)
include h

theorem ClosedUnderCalls.readWord {a : Addr} (ha : allowed .read .word a) {use : Word → State → Result}
    (huse : ∀ w t, P t (use w t)) (s : State) : P s (readWord a s use) :=
  h.call ha (performReadWord_transfers a) (fun t => huse _ t) s

theorem ClosedUnderCalls.readByte {a : Addr} (ha : allowed .read .byte a) {use : Byte → State → Result}
    (huse : ∀ v t, P t (use v t)) (s : State) : P s (readByte a s use) :=
  h.call ha (performReadByte_transfers a) (fun t => huse _ t) s

theorem ClosedUnderCalls.writeWord {a : Addr} (ha : allowed .write .word a) {go : State → Result}
    (hgo : ∀ t, P t (go t)) (v : Word) (s : State) : P s (writeWord a v s go) :=
  h.call ha (performWriteWord_transfers a v) hgo s

theorem ClosedUnderCalls.writeByte {a : Addr} (ha : allowed .write .byte a) {go : State → Result}
    (hgo : ∀ t, P t (go t)) (v : Byte) (s : State) : P s (writeByte a v s go) :=
  h.call ha (performWriteByte_transfers a v) hgo s

theorem ClosedUnderCalls.forLoop {body : Nat → State → (State → Result) → Result} {last : Nat}
    (hbody : ∀ k go s, k < last → (∀ t, P t (go t)) → P s (body k s go)) {count lo : Nat} (hlast : lo + count ≤ last)
    (s : State) : P s (forLoop body count lo s Machine.respondOk) := by
  induction count generalizing lo s with
  | zero => exact h.respondOk s
  | succ count ih => exact hbody lo _ s (by omega) fun t => ih (by omega) t

theorem ClosedUnderCalls.readLoop {x : Xlen} {base : Addr} {last : Nat}
    (ha : ∀ k < last, allowed .read .word (wordAddr x base k)) {go : List Word → State → Result}
    (hgo : ∀ buf t, P t (go buf t)) {count lo : Nat} (hlast : lo + count ≤ last) (acc : List Word) (s : State) :
    P s (readLoop x base count lo acc s go) := by
  induction count generalizing lo acc s with
  | zero => exact hgo acc s
  | succ count ih => exact h.readWord (ha lo (by omega)) (fun w t => ih (by omega) (acc ++ [w]) t) s

end Closed

/-- What is closed under the calls a command may make holds of the command's pseudocode. -/
theorem ClosedUnderCalls.pseudocode {P : State → Result → Prop} {i : Instr} {s : State}
    (h : ClosedUnderCalls (Issues s.params.xlen i) P) : P s.started (pseudocode i s) := by
  cases i with
  | dma dst src g =>
    exact h.readLoop (fun k hk => ⟨rfl, k, hk, rfl⟩)
      (fun _ t => h.forLoop (fun k _ s hk hgo => h.writeWord ⟨rfl, k, hk, rfl⟩ hgo _ s) (Nat.zero_add _).le t)
      (Nat.zero_add _).le _ _
  | sort addr len sortLen =>
    exact h.readLoop (fun k hk => ⟨rfl, k, hk, rfl⟩)
      (fun _ t => h.forLoop (fun k _ s hk hgo => h.writeWord ⟨rfl, k, hk, rfl⟩ hgo _ s) (Nat.zero_add _).le t)
      (Nat.zero_add _).le _ _
  | crush dst src count =>
    simp only [Machine.pseudocode, crushPseudocode, ← pairCount_eq]
    exact h.forLoop (fun k _ s hk hgo =>
      h.readByte ⟨rfl, 2 * k, by omega, rfl⟩ (fun _ t =>
        h.readByte ⟨rfl, 2 * k + 1, by omega, rfl⟩ (fun _ t => h.writeByte ⟨rfl, k, hk, rfl⟩ hgo _ t) t) s)
      (Nat.zero_add _).le _
  | expand dst src count =>
    exact h.forLoop (fun k _ s hk hgo =>
      h.readByte ⟨rfl, k, hk, rfl⟩ (fun _ t =>
        h.writeByte ⟨rfl, 2 * k, by omega, rfl⟩ (fun t => h.writeByte ⟨rfl, 2 * k + 1, by omega, rfl⟩ hgo _ t) _ t) s)
      (Nat.zero_add _).le _

/-! ## One response -/

/-- In RUN with no call outstanding, where the outside neither resets nor keeps a call from returning. -/
structure State.Served (s : State) : Prop where
  st : s.st = .run
  outstanding : s.outstanding = false
  noReset : s.NoReset
  returns : s.PortReturns

/-- From a served state `o` is an IDLE state with one response more. -/
def RespondsOnce (s : State) (o : Result) : Prop :=
  s.Served → ∃ u r, o = .next u ∧ u.st = .idle ∧ u.responses = s.responses ++ [r]

theorem State.Served.atCall {s : State} (h : s.Served) : s.atCall.Served := by
  have htail : ∀ t ∈ s.env.tail, t ∈ s.env := fun t => List.mem_of_mem_tail
  have hmoves : Move.reset ∉ s.nextTurn.moves := by
    cases henv : s.env with
    | nil => simp [nextTurn_moves_of_quiet s henv]
    | cons w rest => exact (h.noReset s.nextTurn (by simp [State.nextTurn, henv])).1
  refine ⟨(moves_core_of_no_reset _ _ hmoves).1.trans h.st, rfl, fun t ht => h.noReset t ?_, fun t ht => h.returns t ?_⟩
  · exact htail t (atCall_env s ▸ ht)
  · exact htail t (atCall_env s ▸ ht)

/-- The port refuses the call, or answers it by its map. -/
theorem State.Served.answer {s : State} (h : s.Served) :
    s.nextTurn.answer = .refuses ∨ s.nextTurn.answer = .byMap := by
  cases henv : s.env with
  | nil => exact .inr (by simp [nextTurn_of_quiet s henv h.outstanding, Turn.quiet])
  | cons w rest =>
    have hmem : w ∈ s.env := by simp [henv]
    have hturn : s.nextTurn = w := by simp [State.nextTurn, henv]
    have hreset := (h.noReset w hmem).2
    have hreturns := h.returns w hmem
    rw [hturn]
    cases hans : w.answer with
    | byMap => exact .inr rfl
    | refuses => exact .inl rfl
    | pending => exact absurd hans hreturns
    | byMapThenReset => exact absurd hans hreset

theorem portCall_served {s : State} (h : s.Served) (a : Addr) (n : Size) (k : Kind) (perform : State → State)
    (granted : State → Result) :
    portCall a n k perform s granted = .next (s.atCall.takeAddressFault a k n) ∨
      portCall a n k perform s granted = granted (perform s.atCall) := by
  unfold portCall
  simp only [h.atCall.st]
  obtain hans | hans := h.answer
  · simp [hans]
  · by_cases hacc : s.atCall.accessible a n k = true <;> simp [hans, hacc]

theorem respondsOnce_closed (allowed : Kind → Size → Addr → Prop) : ClosedUnderCalls allowed RespondsOnce where
  respondOk _ _ := ⟨_, _, rfl, rfl, rfl⟩
  call {k n a perform granted} _ hperf hgranted s hs := by
    obtain hfault | hgo := portCall_served hs a n k perform granted
    · exact ⟨_, .addressFault a k n, hfault, rfl, by simp⟩
    · obtain ⟨c, -, -, -, hc⟩ := hperf s.atCall
      obtain ⟨st, out, noReset, returns⟩ := hs.atCall
      rw [hc] at hgo
      simpa [hgo] using hgranted (s.atCall.transferred _ [c]) ⟨st, out, noReset, returns⟩

/-- The acceptance and the steps after it end where the pseudocode responds (10_state.md R36). -/
theorem exec_finish_of_pseudocode {i : Instr} {s u : State} (hst : s.st = .idle) (h : pseudocode i s = .next u)
    (hu : u.st = .idle) : ∃ t, exec i s = .next t ∧ finish t = .next u := by
  obtain ⟨t, ht⟩ := exec_idle i hst
  exact ⟨t, ht, (invocation_eq ht).symm.trans (invocation_of_pseudocode hst h hu)⟩

/-- Settles O14: by induction over the calls of the pseudocode, which the invocation follows. -/
theorem everyCommandGetsOneResponse : Obligations.EveryCommandGetsOneResponse := by
  intro i s hst hreset hreturns
  obtain ⟨u, r, hpseudo, hidle, hresp⟩ :=
    (respondsOnce_closed (Issues s.params.xlen i)).pseudocode ⟨rfl, rfl, hreset, hreturns⟩
  obtain ⟨t, ht, hfinish⟩ := exec_finish_of_pseudocode hst hpseudo hidle
  exact ⟨t, u, r, ht, hfinish, hidle, hresp⟩

/-! ## What a command leaves unchanged -/

/-- A call changes no byte location but those it writes. -/
theorem Memory.read_replay_other (x : Xlen) (m : Memory) {c : Access} {loc : Nat}
    (h : c.kind = .write → ∀ b < c.size.bytes, loc ≠ (addrAt x c.addr b).toNat) :
    (m.replay x c).read loc = m.read loc := by
  obtain ⟨k, n, a, d⟩ := c
  cases k with
  | read => cases n <;> rfl
  | write =>
    cases d with
    | none => cases n <;> rfl
    | some v =>
      cases n with
      | byte => exact Memory.read_write_other _ _ (h rfl 0 Nat.one_pos)
      | word => exact Memory.read_writeWord_other _ _ _ _ (h rfl)

theorem Memory.read_foldl_replay_other (x : Xlen) (m : Memory) {cs : List Access} {loc : Nat}
    (h : ∀ c ∈ cs, c.kind = .write → ∀ b < c.size.bytes, loc ≠ (addrAt x c.addr b).toNat) :
    (cs.foldl (Memory.replay x) m).read loc = m.read loc := by
  induction cs generalizing m with
  | nil => rfl
  | cons c cs ih =>
    rw [List.foldl_cons, ih _ fun d hd => h d (List.mem_cons_of_mem _ hd),
      Memory.read_replay_other x m (h c List.mem_cons_self)]

/-- From an undisturbed state `o` is the state after allowed calls, memory being what they stored. -/
def FinishesWith (allowed : Kind → Size → Addr → Prop) (s : State) (o : Result) : Prop :=
  s.Undisturbed → ∃ new r, o = .next (s.finished (new.foldl (Memory.replay s.params.xlen) s.mem) new r) ∧
    ∀ c ∈ new, allowed c.kind c.size c.addr

theorem finishesWith_closed (allowed : Kind → Size → Addr → Prop) :
    ClosedUnderCalls allowed (FinishesWith allowed) where
  respondOk s _ := ⟨[], .ok, by rw [respondOk, respond_eq_finished]; rfl, by simp⟩
  call {k n a perform granted} ha hperf hgranted s hs := by
    obtain ⟨hst, henv, hout⟩ := id hs
    rw [portCall_quiet henv hout hst]
    split
    · obtain ⟨c, rfl, rfl, rfl, hc⟩ := hperf s
      rw [hc]
      obtain ⟨new, r, hnext, hnew⟩ := hgranted (s.transferred _ [c]) hs
      exact ⟨c :: new, r, by rw [hnext, transferred_finished]; rfl, by simpa using ⟨ha, hnew⟩⟩
    · refine ⟨[failedCall a k n], .addressFault a k n, ?_, by simpa [failedCall] using ha⟩
      rw [takeAddressFault_eq_finished]
      cases k <;> cases n <;> rfl

/-- With no other actor an invocation ends, and of the state only memory, the call log, the response channel and the
registers change, memory by the calls made. -/
theorem invocation_finished {i : Instr} {s t : State} (hready : s.Ready) (h : invocation i s = .next t) :
    ∃ new r, t = s.finished (new.foldl (Memory.replay s.params.xlen) s.mem) new r ∧
      ∀ k, ∀ c ∈ new, c.kind = k → Issues s.params.xlen i k c.size c.addr := by
  obtain ⟨hst, henv⟩ := hready
  obtain ⟨new, r, hpseudo, hnew⟩ := (finishesWith_closed (Issues s.params.xlen i)).pseudocode ⟨rfl, henv, rfl⟩
  cases (invocation_of_pseudocode hst hpseudo rfl).symm.trans h
  exact ⟨new, r, rfl, fun _ c hc hk => hk ▸ hnew c hc⟩

section WrittenRegion

variable {x : Xlen} {cs : List Access} {base : Addr} {last : Nat}

theorem read_replayed_outside_words
    (hcs : ∀ c ∈ cs, c.kind = .write → c.size = .word ∧ ∃ j < last, c.addr = wordAddr x base j)
    (m : Memory) {loc : Nat} (hloc : ∀ j < last, ∀ b < 4, loc ≠ (addrAt x (wordAddr x base j) b).toNat) :
    (cs.foldl (Memory.replay x) m).read loc = m.read loc := by
  refine Memory.read_foldl_replay_other x m fun c hc hk b hb => ?_
  obtain ⟨hn, j, hj, ha⟩ := hcs c hc hk
  rw [hn] at hb
  exact ha ▸ hloc j hj b hb

theorem read_replayed_outside_bytes
    (hcs : ∀ c ∈ cs, c.kind = .write → c.size = .byte ∧ ∃ j < last, c.addr = addrAt x base j)
    (m : Memory) {loc : Nat} (hloc : ∀ j < last, loc ≠ (addrAt x base j).toNat) :
    (cs.foldl (Memory.replay x) m).read loc = m.read loc := by
  refine Memory.read_foldl_replay_other x m fun c hc hk b hb => ?_
  obtain ⟨hn, j, hj, ha⟩ := hcs c hc hk
  obtain rfl : b = 0 := by simpa [hn, Size.bytes] using hb
  rw [ha, addrAt_addrAt_zero]
  exact hloc j hj

end WrittenRegion

/-- Settles O36: a DMA writes words at `A` and reads words at `B`. -/
theorem dmaFrame : Obligations.DmaFrame := by
  intro s t dst src g hready h
  obtain ⟨new, r, rfl, hnew⟩ := invocation_finished hready h
  exact ⟨fun _ => read_replayed_outside_words (hnew .write) s.mem, ⟨new, rfl, fun c hc hk => (hnew .read c hc hk).2⟩,
    rfl, rfl, rfl, rfl, rfl, rfl, rfl, rfl⟩

/-- Settles O45: a SORT makes word accesses at `A` only. -/
theorem sortFrame : Obligations.SortFrame := by
  intro s t addr len sortLen hready h
  obtain ⟨new, r, rfl, hnew⟩ := invocation_finished hready h
  exact ⟨fun _ => read_replayed_outside_words (hnew .write) s.mem, rfl, rfl, rfl, rfl, rfl, rfl, rfl, rfl⟩

/-- Settles O53: a CRUSH writes single bytes at `A`. -/
theorem crushFrame : Obligations.CrushFrame := by
  intro s t dst src count hready h
  obtain ⟨new, r, rfl, hnew⟩ := invocation_finished hready h
  exact ⟨fun _ => read_replayed_outside_bytes (hnew .write) s.mem, rfl, rfl, rfl, rfl, rfl, rfl, rfl, rfl⟩

/-- Settles O58: an EXPAND writes single bytes at `A`. -/
theorem expandFrame : Obligations.ExpandFrame := by
  intro s t dst src count hready h
  obtain ⟨new, r, rfl, hnew⟩ := invocation_finished hready h
  exact ⟨fun _ => read_replayed_outside_bytes (hnew .write) s.mem, rfl, rfl, rfl, rfl, rfl, rfl, rfl, rfl⟩

end Sys2Proof.Machine
end

section
/-! A command whose accesses are all granted, with no other actor: the loops of its pseudocode in closed form, up to any
iteration (40_dma_transpose.md R107, 41_sort.md R125, 42_crush.md R142, 43_expand.md R157). -/

namespace Sys2Proof.Machine

/-! ## The closed forms, one iteration more -/

section Succ

variable (x : Xlen) (m : Memory) (base dst src : Addr) (val : Nat → Word) (k : Kind) (n : Nat)

theorem storeWords_succ :
    storeWords x m base val (n + 1) = (storeWords x m base val n).writeWord x (wordAddr x base n) (val n) := by
  simp [storeWords, List.range_succ]

theorem wordCalls_succ :
    wordCalls x k base val (n + 1) =
      wordCalls x k base val n ++ [{ kind := k, size := .word, addr := wordAddr x base n, data := some (val n) }] := by
  simp [wordCalls, List.range_succ]

theorem wordsAt_succ : wordsAt x m base (n + 1) = wordsAt x m base n ++ [wordAt x m base n] := by
  simp [wordsAt, List.range_succ]

theorem crushMem_succ :
    crushMem x m dst src (n + 1) =
      (crushMem x m dst src n).write (addrAt x dst n).toNat (crushByte x (crushMem x m dst src n) src n) := by
  simp [crushMem, List.range_succ]

theorem crushCalls_succ :
    crushCalls x m dst src (n + 1) = crushCalls x m dst src n ++ crushCallsAt x (crushMem x m dst src n) dst src n := by
  simp [crushCalls, List.range_succ]

theorem expandMem_succ :
    expandMem x m dst src (n + 1) = expandBoth x (expandMem x m dst src n) dst src n := by
  simp [expandMem, List.range_succ]

theorem expandCalls_succ :
    expandCalls x m dst src (n + 1) =
      expandCalls x m dst src n ++ expandCallsAt x (expandMem x m dst src n) dst src n := by
  simp [expandCalls, List.range_succ]

end Succ

/-- Cell `k` of the words read is word `k` of the array. -/
theorem wordsAt_getD (x : Xlen) (m : Memory) (base : Addr) {n k : Nat} (h : k < n) :
    (wordsAt x m base n).getD k 0 = wordAt x m base k := by
  simp [wordsAt, h]

/-! ## A granted call -/

theorem State.Undisturbed.transferred {s : State} (h : s.Undisturbed) (m : Memory) (cs : List Access) :
    (s.transferred m cs).Undisturbed := h

section Granted

variable {s : State} (hu : s.Undisturbed)
include hu

theorem portCall_undisturbed_granted {a : Addr} {n : Size} {k : Kind} (hacc : s.accessible a n k = true)
    (perform : State → State) (granted : State → Result) :
    portCall a n k perform s granted = granted (perform s) := by
  obtain ⟨hst, henv, hout⟩ := hu
  rw [portCall_quiet henv hout hst, if_pos hacc]

theorem readWord_granted {a : Addr} (hacc : s.accessible a .word .read = true) (use : Word → State → Result) :
    readWord a s use = use (s.mem.readWord s.params.xlen a)
      (s.transferred s.mem
        [{ kind := .read, size := .word, addr := a, data := some (s.mem.readWord s.params.xlen a) }]) :=
  portCall_undisturbed_granted hu hacc ..

theorem writeWord_granted {a : Addr} (hacc : s.accessible a .word .write = true) (v : Word) (go : State → Result) :
    writeWord a v s go = go
      (s.transferred (s.mem.writeWord s.params.xlen a v)
        [{ kind := .write, size := .word, addr := a, data := some v }]) :=
  portCall_undisturbed_granted hu hacc ..

theorem readByte_granted {base : Addr} {off : Nat}
    (hacc : s.accessible (addrAt s.params.xlen base off) .byte .read = true) (use : Byte → State → Result) :
    readByte (addrAt s.params.xlen base off) s use = use (byteAt s.params.xlen s.mem base off)
      (s.transferred s.mem [byteCall s.params.xlen .read base off (byteAt s.params.xlen s.mem base off)]) := by
  rw [readByte, portCall_undisturbed_granted hu hacc, performReadByte_addrAt, State.logCall_mem, State.logCall_params,
    byteAddr_addrAt]
  rfl

theorem writeByte_granted {base : Addr} {off : Nat}
    (hacc : s.accessible (addrAt s.params.xlen base off) .byte .write = true) (v : Byte) (go : State → Result) :
    writeByte (addrAt s.params.xlen base off) v s go = go
      (s.transferred (s.mem.write (addrAt s.params.xlen base off).toNat v)
        [byteCall s.params.xlen .write base off v]) := by
  rw [writeByte, portCall_undisturbed_granted hu hacc, performWriteByte_addrAt]
  rfl

end Granted

/-! ## Loops whose first iterations are granted -/

/-- `st k` being the state before iteration `k`, the first `n` iterations of a loop lead from `s` to `st n`. -/
theorem forLoop_from {body : Nat → State → (State → Result) → Result} {st : Nat → State} {s : State} {n : Nat}
    (hstart : st 0 = s) (hbody : ∀ k < n, ∀ go, body k (st k) go = go (st (k + 1))) (rest : Nat)
    (go : State → Result) : forLoop body (n + rest) 0 s go = forLoop body rest n (st n) go := by
  induction n generalizing rest with
  | zero => rw [Nat.zero_add, hstart]
  | succ n ih =>
    rw [Nat.add_right_comm, Nat.add_assoc, ih (fun k hk => hbody k (by omega)) (rest + 1)]
    exact hbody n (by omega) _

section Loops

variable {s : State} (hu : s.Undisturbed) {base : Addr} {n : Nat}
include hu

/-- The first `n` reads fill the buffer with the first `n` words of the array, and change no memory. -/
theorem readLoop_from (hopen : s.wordsOpen .read base n) (rest : Nat) (go : List Word → State → Result) :
    readLoop s.params.xlen base (n + rest) 0 [] s go =
      readLoop s.params.xlen base rest n (wordsAt s.params.xlen s.mem base n)
        (s.transferred s.mem (wordCalls s.params.xlen .read base (wordAt s.params.xlen s.mem base) n)) go := by
  induction n generalizing rest with
  | zero => rw [Nat.zero_add]; simp [wordsAt, wordCalls]
  | succ n ih =>
    rw [Nat.add_right_comm, Nat.add_assoc, ih (fun j hj => hopen j (by omega)) (rest + 1), readLoop,
      readWord_granted (hu.transferred _ _) (hopen n (by omega)), wordsAt_succ, wordCalls_succ,
      transferred_transferred]
    rfl

/-- The first `n` writes store the first `n` values. -/
theorem writeLoop_from (hopen : s.wordsOpen .write base n) {val : Nat → Word}
    {body : Nat → State → (State → Result) → Result}
    (hbody : ∀ k < n, ∀ t go, body k t go = writeWord (wordAddr s.params.xlen base k) (val k) t go)
    (rest : Nat) (go : State → Result) :
    forLoop body (n + rest) 0 s go =
      forLoop body rest n (s.transferred (storeWords s.params.xlen s.mem base val n)
        (wordCalls s.params.xlen .write base val n)) go := by
  refine forLoop_from (st := fun k => s.transferred (storeWords s.params.xlen s.mem base val k)
    (wordCalls s.params.xlen .write base val k)) (transferred_self s) (fun k hk go => ?_) rest go
  rw [hbody k hk, writeWord_granted (hu.transferred _ _) (hopen k hk), storeWords_succ, wordCalls_succ,
    transferred_transferred]
  rfl

end Loops

/-! ## CRUSH and EXPAND, an iteration at a time -/

/-- Iteration `i` of the loop of a CRUSH (42_crush.md R140). -/
def crushBody (x : Xlen) (dst src : Addr) (i : Nat) (t : State) (go : State → Result) : Result :=
  readByte (addrAt x src (2 * i)) t fun v1 t =>
    readByte (addrAt x src (2 * i + 1)) t fun v2 t => writeByte (addrAt x dst i) (packNibbles v1 v2) t go

theorem crushPseudocode_eq (dst src : Addr) (count : Operand) (s : State) :
    crushPseudocode dst src count s =
      forLoop (crushBody s.params.xlen (latch s.params.xlen dst) (latch s.params.xlen src))
        ((latch s.params.xlen count).toNat / 2) 0 s.started respondOk := rfl

/-- Iteration `i` of the loop of an EXPAND (43_expand.md R155). -/
def expandBody (x : Xlen) (dst src : Addr) (i : Nat) (t : State) (go : State → Result) : Result :=
  readByte (addrAt x src i) t fun v t =>
    writeByte (addrAt x dst (2 * i)) (lowNibble v) t fun t => writeByte (addrAt x dst (2 * i + 1)) (highNibble v) t go

theorem expandPseudocode_eq (dst src : Addr) (count : Operand) (s : State) :
    expandPseudocode dst src count s =
      forLoop (expandBody s.params.xlen (latch s.params.xlen dst) (latch s.params.xlen src))
        (latch s.params.xlen count).toNat 0 s.started respondOk := rfl

section Bytes

variable {s : State} (hu : s.Undisturbed) {dst src : Addr}
include hu

theorem crushBody_granted {i : Nat} (hfirst : s.accessible (addrAt s.params.xlen src (2 * i)) .byte .read = true)
    (hsecond : s.accessible (addrAt s.params.xlen src (2 * i + 1)) .byte .read = true)
    (hwrite : s.accessible (addrAt s.params.xlen dst i) .byte .write = true) (go : State → Result) :
    crushBody s.params.xlen dst src i s go =
      go (s.transferred (s.mem.write (addrAt s.params.xlen dst i).toNat (crushByte s.params.xlen s.mem src i))
        (crushCallsAt s.params.xlen s.mem dst src i)) := by
  rw [crushBody, readByte_granted hu hfirst]
  refine (readByte_granted (hu.transferred _ _) hsecond _).trans ?_
  refine (writeByte_granted ((hu.transferred _ _).transferred _ _) hwrite _ _).trans ?_
  simp [crushCallsAt, crushByte]

theorem expandBody_granted {i : Nat} (hread : s.accessible (addrAt s.params.xlen src i) .byte .read = true)
    (hlow : s.accessible (addrAt s.params.xlen dst (2 * i)) .byte .write = true)
    (hhigh : s.accessible (addrAt s.params.xlen dst (2 * i + 1)) .byte .write = true) (go : State → Result) :
    expandBody s.params.xlen dst src i s go =
      go (s.transferred (expandBoth s.params.xlen s.mem dst src i) (expandCallsAt s.params.xlen s.mem dst src i)) := by
  rw [expandBody, readByte_granted hu hread]
  refine (writeByte_granted (hu.transferred _ _) hlow _ _).trans ?_
  refine (writeByte_granted ((hu.transferred _ _).transferred _ _) hhigh _ _).trans ?_
  simp [expandCallsAt, expandBoth, expandLow]

variable {n : Nat}

/-- The first `n` iterations of a CRUSH pack the first `n` pairs, each from what the earlier ones left. -/
theorem crushLoop_from (hread : s.bytesOpen .read src (2 * n)) (hwrite : s.bytesOpen .write dst n) (rest : Nat)
    (go : State → Result) :
    forLoop (crushBody s.params.xlen dst src) (n + rest) 0 s go =
      forLoop (crushBody s.params.xlen dst src) rest n
        (s.transferred (crushMem s.params.xlen s.mem dst src n) (crushCalls s.params.xlen s.mem dst src n)) go := by
  refine forLoop_from (st := fun k => s.transferred (crushMem s.params.xlen s.mem dst src k)
    (crushCalls s.params.xlen s.mem dst src k)) (transferred_self s) (fun k hk go => ?_) rest go
  refine (crushBody_granted (hu.transferred _ _) (hread (2 * k) (by omega)) (hread (2 * k + 1) (by omega))
    (hwrite k hk) go).trans ?_
  rw [crushMem_succ, crushCalls_succ, transferred_transferred]
  rfl

/-- The first `n` iterations of an EXPAND unpack the first `n` bytes, each from what the earlier ones left. -/
theorem expandLoop_from (hread : s.bytesOpen .read src n) (hwrite : s.bytesOpen .write dst (2 * n)) (rest : Nat)
    (go : State → Result) :
    forLoop (expandBody s.params.xlen dst src) (n + rest) 0 s go =
      forLoop (expandBody s.params.xlen dst src) rest n
        (s.transferred (expandMem s.params.xlen s.mem dst src n) (expandCalls s.params.xlen s.mem dst src n)) go := by
  refine forLoop_from (st := fun k => s.transferred (expandMem s.params.xlen s.mem dst src k)
    (expandCalls s.params.xlen s.mem dst src k)) (transferred_self s) (fun k hk go => ?_) rest go
  refine (expandBody_granted (hu.transferred _ _) (hread k hk) (hwrite (2 * k) (by omega))
    (hwrite (2 * k + 1) (by omega)) go).trans ?_
  rw [expandMem_succ, expandCalls_succ, transferred_transferred]
  rfl

end Bytes

/-! ## The four commands -/

/-- A loop with no iteration left: the response OK ends the invocation from `s`. -/
theorem respondOk_transferred (s : State) (m : Memory) (cs : List Access) :
    respondOk (s.started.transferred m cs) = .next (s.finished m cs .ok) := by
  rw [respondOk, respond_eq_finished, transferred_finished, List.append_nil]
  rfl

theorem State.Ready.started {s : State} (h : s.Ready) : s.started.Undisturbed := ⟨rfl, h.2, rfl⟩

/-- Settles O32: all reads, then all writes, the words written being those read, transposed. -/
theorem dmaCompletes : Obligations.DmaCompletes := by
  intro s dst src g hready hwf x n hread hwrite
  obtain ⟨hA, hB, hC⟩ := latch_of_wf hwf
  simp only [Instr.opA, Instr.opB, Instr.opC] at hA hB hC
  have hs := hready.started
  refine exec_finish_of_pseudocode hready.1 ?_ rfl
  simp only [pseudocode, dmaPseudocode, hA, hB, hC]
  refine (readLoop_from hs hread 0 _).trans ?_
  refine (writeLoop_from (hs.transferred _ _) hwrite (val := transposed x s.mem src n)
    (fun k hk t go => ?_) 0 _).trans ?_
  · exact congrArg (writeWord _ · t go) (wordsAt_getD _ _ _ (transposeIndex_lt hk))
  · rw [transferred_transferred]
    exact respondOk_transferred ..

/-- Settles O39: all reads, then all writes, the words written being those read, the first ones sorted. -/
theorem sortCompletes : Obligations.SortCompletes := by
  intro s addr len sortLen hready hwf x val hread hwrite
  obtain ⟨hA, hB, hC⟩ := latch_of_wf hwf
  simp only [Instr.opA, Instr.opB, Instr.opC] at hA hB hC
  have hs := hready.started
  refine exec_finish_of_pseudocode hready.1 ?_ rfl
  simp only [pseudocode, sortPseudocode, hA, hB, hC]
  refine (readLoop_from hs hread 0 _).trans ?_
  refine (writeLoop_from (hs.transferred _ _) hwrite (val := val) (fun _ _ _ _ => rfl) 0 _).trans ?_
  rw [transferred_transferred]
  exact respondOk_transferred ..

/-- Settles O48: the iterations of the pseudocode, one after another. -/
theorem crushCompletes : Obligations.CrushCompletes := by
  intro s dst src count hready hwf x n hread hwrite
  obtain ⟨hA, hB, hC⟩ := latch_of_wf hwf
  simp only [Instr.opA, Instr.opB, Instr.opC] at hA hB hC
  refine exec_finish_of_pseudocode hready.1 ?_ rfl
  rw [pseudocode, crushPseudocode_eq, hA, hB, hC]
  exact (crushLoop_from hready.started hread hwrite 0 _).trans (respondOk_transferred ..)

/-- Settles O55: the iterations of the pseudocode, one after another. -/
theorem expandCompletes : Obligations.ExpandCompletes := by
  intro s dst src count hready hwf x n hread hwrite
  obtain ⟨hA, hB, hC⟩ := latch_of_wf hwf
  simp only [Instr.opA, Instr.opB, Instr.opC] at hA hB hC
  refine exec_finish_of_pseudocode hready.1 ?_ rfl
  rw [pseudocode, expandPseudocode_eq, hA, hB, hC]
  exact (expandLoop_from hready.started hread hwrite 0 _).trans (respondOk_transferred ..)

end Sys2Proof.Machine
end

section
/-! A DMA to its end, as data: the destination holds the transpose of the source as it was, and transposing back gives
the source again (40_dma_transpose.md R101, R105, R110, R111). -/

namespace Sys2Proof.Machine

/-! ## The grain -/

/-- Settles O30: the table is the definition. -/
theorem grainTable : Obligations.GrainTable :=
  ⟨by decide, by decide, by decide, fun _ h0 h1 h2 => by rw [grainDim, if_neg h0, if_neg h1, if_neg h2]⟩

/-- No matrix reaches around the address space (40_dma_transpose.md R102). -/
theorem grain_bytes_le_size (x : Xlen) (c : Operand) : 4 * (grainDim c * grainDim c) ≤ x.size := by
  have hsize : 4096 ≤ x.size := by cases x <;> decide
  obtain h | h | h := grainDim_cases c <;> rw [h] <;> omega

/-- Row `i`, column `j` of the transpose comes from row `j`, column `i` (40_dma_transpose.md R104). -/
theorem transposeIndex_row_col {n j : Nat} (i : Nat) (hj : j < n) : transposeIndex n (i * n + j) = j * n + i := by
  rw [transposeIndex, Nat.mul_comm i n, Nat.mul_add_mod, Nat.mod_eq_of_lt hj, Nat.mul_add_div (Nat.zero_lt_of_lt hj),
    Nat.div_eq_of_lt hj, Nat.add_zero]

theorem row_col_lt {n i j : Nat} (hi : i < n) (hj : j < n) : i * n + j < n * n := by nlinarith

/-! ## The words of an array -/

/-- Memories that agree on the four bytes of a word agree on the word. -/
theorem Memory.readWord_congr {x : Xlen} {m m' : Memory} {a : Addr}
    (h : ∀ b < 4, m.read (addrAt x a b).toNat = m'.read (addrAt x a b).toNat) : m.readWord x a = m'.readWord x a := by
  simp only [Memory.readWord, h 0 (by omega), h 1 (by omega), h 2 (by omega), h 3 (by omega)]

/-- Byte `b` of word `k` of the array at `base`. -/
theorem addrAt_wordAddr (x : Xlen) (base : Addr) (k b : Nat) :
    addrAt x (wordAddr x base k) b = addrAt x base (4 * k + b) := addrAt_addrAt x base (4 * k) b

/-- A location outside the region of an array is no byte of its words. -/
theorem ne_word_byte_of_not_inRegion {x : Xlen} {base : Addr} {n loc : Nat} (h : ¬InRegion x base (4 * n) loc) :
    ∀ k < n, ∀ b < 4, loc ≠ (addrAt x (wordAddr x base k) b).toNat := fun k hk b hb hloc =>
  h ⟨4 * k + b, by omega, addrAt_wordAddr x base k b ▸ hloc⟩

/-- A word of one of two disjoint arrays has no byte in the other's region. -/
theorem not_inRegion_of_disjoint {x : Xlen} {dst src : Addr} {n k b : Nat} (h : Disjoint x dst (4 * n) src (4 * n))
    (hk : k < n) (hb : b < 4) : ¬InRegion x dst (4 * n) (addrAt x (wordAddr x src k) b).toNat := by
  rintro ⟨i, hi, hloc⟩
  exact h i hi (4 * k + b) (by omega) (addrAt_wordAddr x src k b ▸ hloc.symm)

/-- Two words of an array that does not reach around the address space share no byte location. -/
theorem words_apart {x : Xlen} {base : Addr} {n j k b c : Nat} (hn : 4 * n ≤ x.size) (hj : j < n) (hk : k < n)
    (hne : j ≠ k) (hb : b < 4) (hc : c < 4) :
    (addrAt x (wordAddr x base j) b).toNat ≠ (addrAt x (wordAddr x base k) c).toNat := fun h => by
  rw [addrAt_wordAddr, addrAt_wordAddr] at h
  have := addrAt_inj (by omega) (by omega) h
  omega

theorem storeWords_wf {m : Memory} (hm : m.wf = true) (x : Xlen) (base : Addr) (val : Nat → Word) (n : Nat) :
    (storeWords x m base val n).wf = true := by
  induction n with
  | zero => exact hm
  | succ n ih => exact storeWords_succ x m base val n ▸ Memory.writeWord_wf ih ..

/-- Each word stored is read back, in an array that does not reach around the address space. -/
theorem wordAt_storeWords {x : Xlen} {m : Memory} (hm : m.wf = true) (base : Addr) (val : Nat → Word) {n k : Nat}
    (hn : 4 * n ≤ x.size) (hk : k < n) : wordAt x (storeWords x m base val n) base k = val k := by
  induction n with
  | zero => omega
  | succ n ih =>
    rw [storeWords_succ]
    obtain rfl | hlt := Nat.eq_or_lt_of_le (Nat.le_of_lt_succ hk)
    · exact Memory.readWord_writeWord (storeWords_wf hm ..) x _ _
    · refine Eq.trans (Memory.readWord_congr fun b hb => ?_) (ih (by omega) hlt)
      exact Memory.read_writeWord_other _ _ _ _ fun c hc => words_apart hn hk n.lt_succ_self hlt.ne hb hc

/-! ## The matrix after a DMA -/

section Dma

variable {s : State} {dst src : Addr} {g : Operand} (hready : s.Ready) (hm : s.mem.wf = true)
  (hwf : (Instr.dma dst src g).wf s.params.xlen = true) (hread : s.wordsOpen .read src (grainDim g * grainDim g))
  (hwrite : s.wordsOpen .write dst (grainDim g * grainDim g))
include hready hm hwf hread hwrite

/-- A DMA with every access granted responds OK with the transposed source in the destination (40_dma_transpose.md
R105). -/
theorem invocation_dma : ∃ m cs, invocation (.dma dst src g) s = .next (s.finished m cs .ok) ∧ m.wf = true ∧
    ∀ k < grainDim g * grainDim g,
      wordAt s.params.xlen m dst k = transposed s.params.xlen s.mem src (grainDim g) k := by
  obtain ⟨t, haccept, hfinish⟩ := dmaCompletes s dst src g hready hwf hread hwrite
  exact ⟨_, _, (invocation_eq haccept).trans hfinish, storeWords_wf hm ..,
    fun k hk => wordAt_storeWords hm dst _ (grain_bytes_le_size _ g) hk⟩

/-- A DMA and the DMA back, whatever the overlap: the first reads the whole source before it writes, and so does the
second. -/
theorem dma_there_and_back (hwfBack : (Instr.dma src dst g).wf s.params.xlen = true)
    (hreadBack : s.wordsOpen .read dst (grainDim g * grainDim g))
    (hwriteBack : s.wordsOpen .write src (grainDim g * grainDim g)) :
    ∃ t u, invocation (.dma dst src g) s = .next t ∧ invocation (.dma src dst g) t = .next u ∧
      ∀ k < grainDim g * grainDim g, wordAt s.params.xlen u.mem src k = wordAt s.params.xlen s.mem src k := by
  obtain ⟨m, cs, hthere, hm', hwords⟩ := invocation_dma hready hm hwf hread hwrite
  have hready' : (s.finished m cs .ok).Ready := ⟨rfl, hready.2⟩
  obtain ⟨m', cs', hback, -, hwords'⟩ := invocation_dma hready' hm' hwfBack hreadBack hwriteBack
  refine ⟨_, _, hthere, hback, fun k hk => ?_⟩
  calc wordAt s.params.xlen m' src k
      = wordAt s.params.xlen m dst (transposeIndex (grainDim g) k) := hwords' k hk
    _ = transposed s.params.xlen s.mem src (grainDim g) (transposeIndex (grainDim g) k) :=
      hwords _ (transposeIndex_lt hk)
    _ = wordAt s.params.xlen s.mem src k := by rw [transposed, transposeIndex_transposeIndex hk]

end Dma

/-- Settles O33: the words are those of the completed DMA, and the rest of memory is the frame of a DMA. -/
theorem dmaTransposes : Obligations.DmaTransposes := by
  intro s dst src g hready hm hwf x n hread hwrite
  obtain ⟨m, cs, hrun, -, hwords⟩ := invocation_dma hready hm hwf hread hwrite
  obtain ⟨hframe, -⟩ := dmaFrame s _ dst src g hready hrun
  obtain ⟨hA, -, hC⟩ := latch_of_wf hwf
  simp only [Instr.opA, Instr.opC] at hA hC
  rw [hA, hC] at hframe
  have houtside : ∀ loc, ¬InRegion x dst (4 * (n * n)) loc → m.read loc = s.mem.read loc := fun loc hloc =>
    hframe loc (ne_word_byte_of_not_inRegion hloc)
  refine ⟨_, hrun, rfl, fun i hi j hj => ?_, fun hdisj k hk => ?_, houtside⟩
  · rw [← transposeIndex_row_col i hj]
    exact hwords _ (row_col_lt hi hj)
  · exact Memory.readWord_congr fun b hb => houtside _ (not_inRegion_of_disjoint hdisj hk hb)

/-- Settles O34: the way back transposes the transposed indices, in place too. -/
theorem dmaTwiceRestores : Obligations.DmaTwiceRestores := by
  intro s dst src g hready hm hwf x n hreadSrc hwriteSrc hreadDst hwriteDst
  obtain ⟨⟨hdst, hsrc⟩, hg⟩ : (x.fits dst = true ∧ x.fits src = true) ∧ x.fits g = true := by
    simpa only [Instr.wf, Bool.and_eq_true] using hwf
  have hback : (Instr.dma src dst g).wf x = true := by simp only [Instr.wf, hdst, hsrc, hg, Bool.and_self]
  have hplace : (Instr.dma src src g).wf x = true := by simp only [Instr.wf, hsrc, hg, Bool.and_self]
  exact ⟨fun _ => dma_there_and_back hready hm hwf hreadSrc hwriteDst hback hreadDst hwriteSrc,
    dma_there_and_back hready hm hplace hreadSrc hwriteSrc hplace hreadSrc hwriteSrc⟩

end Sys2Proof.Machine
end

section
/-! The loops of the pseudocode up to a refused call, with no other actor: what was written before it stays
(40_dma_transpose.md R106, 41_sort.md R127, 60_exceptions.md R178). -/

namespace Sys2Proof.Machine

section Refused

variable {s : State} (hu : s.Undisturbed) {base : Addr} {n k : Nat} (hk : k < n)
include hu

/-- A call the map refuses ends the invocation with its AddressFault. -/
theorem portCall_undisturbed_refused {a : Addr} {size : Size} {kind : Kind} (hacc : s.accessible a size kind = false)
    (perform : State → State) (granted : State → Result) :
    portCall a size kind perform s granted =
      .next (s.finished s.mem [failedCall a kind size] (.addressFault a kind size)) := by
  obtain ⟨hst, henv, hout⟩ := hu
  rw [portCall_quiet henv hout hst, hacc, takeAddressFault_eq_finished]
  rfl

include hk

/-- A read loop whose word `k` is the first refused. -/
theorem readLoop_refused_at (hopen : s.wordsOpen .read base k)
    (hacc : s.accessible (wordAddr s.params.xlen base k) .word .read = false) (go : List Word → State → Result) :
    readLoop s.params.xlen base n 0 [] s go =
      .next (s.finished s.mem
        (wordCalls s.params.xlen .read base (wordAt s.params.xlen s.mem base) k ++
          [failedCall (wordAddr s.params.xlen base k) .read .word])
        (.addressFault (wordAddr s.params.xlen base k) .read .word)) := by
  obtain ⟨rest, rfl⟩ : ∃ rest, n = k + (rest + 1) := ⟨n - k - 1, by omega⟩
  rw [readLoop_from hu hopen, readLoop, readWord, portCall_undisturbed_refused (hu.transferred _ _) hacc,
    transferred_finished]
  rfl

/-- A loop of word writes whose word `k` is the first refused. -/
theorem writeLoop_refused_at (hopen : s.wordsOpen .write base k)
    (hacc : s.accessible (wordAddr s.params.xlen base k) .word .write = false) {val : Nat → Word}
    {body : Nat → State → (State → Result) → Result}
    (hbody : ∀ j < n, ∀ t go, body j t go = writeWord (wordAddr s.params.xlen base j) (val j) t go)
    (go : State → Result) :
    forLoop body n 0 s go =
      .next (s.finished (storeWords s.params.xlen s.mem base val k)
        (wordCalls s.params.xlen .write base val k ++ [failedCall (wordAddr s.params.xlen base k) .write .word])
        (.addressFault (wordAddr s.params.xlen base k) .write .word)) := by
  obtain ⟨rest, rfl⟩ : ∃ rest, n = k + (rest + 1) := ⟨n - k - 1, by omega⟩
  rw [writeLoop_from hu hopen (fun j hj => hbody j (by omega)), forLoop, hbody k hk, writeWord,
    portCall_undisturbed_refused (hu.transferred _ _) hacc, transferred_finished]
  rfl

end Refused

/-- Settles O35: the loop of either phase, up to the refused call. -/
theorem dmaFaultLeavesPrefix : Obligations.DmaFaultLeavesPrefix := by
  intro s dst src g k hready hwf x n hk
  obtain ⟨hA, hB, hC⟩ := latch_of_wf hwf
  simp only [Instr.opA, Instr.opB, Instr.opC] at hA hB hC
  have hs := hready.started
  refine ⟨fun hopen hacc => ?_, fun hread hopen hacc => ?_⟩
  · refine invocation_of_pseudocode hready.1 ?_ rfl
    simp only [pseudocode, dmaPseudocode, hA, hB, hC]
    exact readLoop_refused_at hs hk hopen hacc _
  · refine invocation_of_pseudocode hready.1 ?_ rfl
    simp only [pseudocode, dmaPseudocode, hA, hB, hC]
    refine (readLoop_from hs hread 0 _).trans ?_
    refine (writeLoop_refused_at (hs.transferred _ _) hk hopen hacc (val := transposed x s.mem src n)
      (fun j hj t go => ?_) _).trans ?_
    · exact congrArg (writeWord _ · t go) (wordsAt_getD _ _ _ (transposeIndex_lt hj))
    · rw [transferred_finished, List.append_assoc]
      rfl

end Sys2Proof.Machine
end

section
/-! The traffic of a command that answers OK, whatever the outside does: the kinds of its calls, in order
(70_reset_and_hazards.md R225). -/

namespace Sys2Proof.Machine

/-- Where `o` is a next state with the response OK and no other, the calls made from `s` on have the kinds `kinds`. -/
def OkMakes (kinds : List Kind) (s : State) (o : Result) : Prop :=
  ∀ t, o = .next t → t.responses = s.responses ++ [.ok] →
    ∃ new, t.calls = s.calls ++ new ∧ new.map Access.kind = kinds

theorem respondOk_okMakes (s : State) : OkMakes [] s (respondOk s) := by
  rintro t ⟨⟩ -
  exact ⟨[], (List.append_nil _).symm, rfl⟩

/-- Of all that can happen to a call, only that it is granted leads to the response OK. -/
theorem portCall_okMakes {a : Addr} {n : Size} {k : Kind} {perform : State → State} (hperf : Transfers k n a perform)
    {kinds : List Kind} {granted : State → Result} (hgranted : ∀ t, OkMakes kinds t (granted t)) (s : State) :
    OkMakes (k :: kinds) s (portCall a n k perform s granted) := by
  intro u hu hok
  obtain ⟨c, rfl, -, -, hc⟩ := hperf s.atCall
  obtain ⟨-, rfl⟩ | ⟨-, -, rfl⟩ | ⟨-, rfl⟩ | ⟨-, -, hnext⟩ | ⟨-, -, ⟨-, rfl⟩ | rfl⟩ := portCall_next hu
  · simp at hok
  · simp at hok
  · simp at hok
  · obtain ⟨new, hcalls, hkinds⟩ := hgranted _ u hnext (by simpa [hc] using hok)
    exact ⟨c :: new, by simpa [hc, State.transferred] using hcalls, by rw [List.map_cons, hkinds]⟩
  · simp [hc] at hok
  · simp at hok

theorem forLoop_okMakes {iteration : List Kind} {body : Nat → State → (State → Result) → Result}
    (hbody : ∀ k go s kinds, (∀ t, OkMakes kinds t (go t)) → OkMakes (iteration ++ kinds) s (body k s go))
    (count lo : Nat) (s : State) :
    OkMakes (List.replicate count iteration).flatten s (forLoop body count lo s respondOk) := by
  induction count generalizing lo s with
  | zero => exact respondOk_okMakes s
  | succ count ih => exact hbody lo _ s _ fun t => ih (lo + 1) t

theorem readLoop_okMakes {x : Xlen} {base : Addr} {kinds : List Kind} {go : List Word → State → Result}
    (hgo : ∀ buf t, OkMakes kinds t (go buf t)) (count lo : Nat) (acc : List Word) (s : State) :
    OkMakes (List.replicate count .read ++ kinds) s (readLoop x base count lo acc s go) := by
  induction count generalizing lo acc s with
  | zero => exact hgo acc s
  | succ count ih => exact portCall_okMakes (performReadWord_transfers _) (fun t => ih (lo + 1) (acc ++ [_]) t) s

/-- A read phase, then a write phase, of `count` words each. -/
theorem readLoop_writeLoop_okMakes {x : Xlen} {base : Addr} {dst : Nat → Addr} {val : List Word → Nat → Word}
    (count : Nat) (s : State) :
    OkMakes (List.replicate count .read ++ (List.replicate count [.write]).flatten) s
      (readLoop x base count 0 [] s fun buf t =>
        forLoop (fun k t go => writeWord (dst k) (val buf k) t go) count 0 t respondOk) :=
  readLoop_okMakes (fun _ t => forLoop_okMakes
    (fun _ _ s _ hgo => portCall_okMakes (performWriteWord_transfers _ _) hgo s) count 0 t) count 0 [] s

section Bytes

variable {x : Xlen} {dst src : Addr} {k : Nat} {kinds : List Kind} {go : State → Result}
  (hgo : ∀ t, OkMakes kinds t (go t))
include hgo

theorem crushBody_okMakes (s : State) :
    OkMakes ([.read, .read, .write] ++ kinds) s (crushBody x dst src k s go) :=
  portCall_okMakes (performReadByte_transfers _) (fun t => portCall_okMakes (performReadByte_transfers _)
    (fun t => portCall_okMakes (performWriteByte_transfers _ _) hgo t) t) s

theorem expandBody_okMakes (s : State) :
    OkMakes ([.read, .write, .write] ++ kinds) s (expandBody x dst src k s go) :=
  portCall_okMakes (performReadByte_transfers _) (fun t => portCall_okMakes (performWriteByte_transfers _ _)
    (fun t => portCall_okMakes (performWriteByte_transfers _ _) hgo t) t) s

end Bytes

/-- The kinds of the accesses of a command that answers OK, in order (40_dma_transpose.md R107, 41_sort.md R125,
42_crush.md R142, 43_expand.md R157). -/
def okKinds : Instr → List Kind
  | .dma _ _ g =>
    List.replicate (grainDim g * grainDim g) .read ++ (List.replicate (grainDim g * grainDim g) [.write]).flatten
  | .sort _ len _ => List.replicate len.toNat .read ++ (List.replicate len.toNat [.write]).flatten
  | .crush _ _ count => (List.replicate (count.toNat / 2) [.read, .read, .write]).flatten
  | .expand _ _ count => (List.replicate count.toNat [.read, .write, .write]).flatten

theorem pseudocode_okMakes {i : Instr} {s : State} (hwf : i.wf s.params.xlen = true) :
    OkMakes (okKinds i) s.started (pseudocode i s) := by
  obtain ⟨hA, hB, hC⟩ := latch_of_wf hwf
  cases i with
  | dma dst src g =>
    simp only [Instr.opC] at hC
    simp only [pseudocode, dmaPseudocode, hC]
    exact readLoop_writeLoop_okMakes _ _
  | sort addr len sortLen =>
    simp only [Instr.opB] at hB
    simp only [pseudocode, sortPseudocode, hB]
    exact readLoop_writeLoop_okMakes _ _
  | crush dst src count =>
    simp only [Instr.opC] at hC
    rw [pseudocode, crushPseudocode_eq, hC]
    exact forLoop_okMakes (fun _ _ s _ hgo => crushBody_okMakes hgo s) _ _ _
  | expand dst src count =>
    simp only [Instr.opC] at hC
    rw [pseudocode, expandPseudocode_eq, hC]
    exact forLoop_okMakes (fun _ _ s _ hgo => expandBody_okMakes hgo s) _ _ _

/-- Settles O22: the reads and the writes among the kinds of the calls. -/
theorem trafficCounts : Obligations.TrafficCounts := by
  intro i s t hst hwf h hok
  obtain ⟨u, r, hu, hpseudo, -⟩ := stepTablesMeetPseudocode i s hst
  cases hu.symm.trans h
  obtain ⟨new, hcalls, hkinds⟩ := pseudocode_okMakes hwf _ hpseudo hok
  refine ⟨new, hcalls, ?_⟩
  have hcount : ∀ k, (new.filter (·.kind = k)).length = (okKinds i).count k := fun k => by
    rw [← hkinds, List.count, List.countP_map, List.countP_eq_length_filter]
    rfl
  rw [hcount, hcount]
  cases i <;> simp [okKinds, List.count_flatten, List.count_replicate, Nat.mul_comm]

end Sys2Proof.Machine
end

section
/-! SORT's permutation of its words, as data: the unique ascending rearrangement, and the tail left alone
(41_sort.md R123, R126). -/

namespace Sys2Proof.Machine

/-! ## The ascending rearrangement -/

theorem sortAscU32_perm (ws : List Word) : (sortAscU32 ws).Perm ws := List.perm_insertionSort (· ≤ ·) ws

@[simp] theorem sortAscU32_length (ws : List Word) : (sortAscU32 ws).length = ws.length := (sortAscU32_perm ws).length_eq

theorem sortAscU32_ascending (ws : List Word) : (sortAscU32 ws).Pairwise (fun a b => a.toNat ≤ b.toNat) :=
  List.pairwise_insertionSort (· ≤ ·) ws

/-- Two ascending rearrangements of the same words are the same sequence. -/
theorem ascending_unique {vs ws : List Word} (hperm : vs.Perm ws) (hvs : vs.Pairwise (fun a b => a.toNat ≤ b.toNat))
    (hws : ws.Pairwise (fun a b => a.toNat ≤ b.toNat)) : vs = ws :=
  hperm.eq_of_pairwise (fun _ _ _ _ hab hba => BitVec.eq_of_toNat_eq (le_antisymm hab hba)) hvs hws

/-- Settles O37: insertion sort, whose outcome is ascending; and the order of words is antisymmetric. -/
theorem sortAscendingUnsigned : Obligations.SortAscendingUnsigned := fun ws =>
  ⟨sortAscU32_perm ws, sortAscU32_ascending ws, fun _ hperm hvs =>
    ascending_unique (hperm.trans (sortAscU32_perm ws).symm) hvs (sortAscU32_ascending ws)⟩

theorem sortAscU32_sortAscU32 (ws : List Word) : sortAscU32 (sortAscU32 ws) = sortAscU32 ws :=
  ascending_unique (sortAscU32_perm _) (sortAscU32_ascending _) (sortAscU32_ascending ws)

/-! ## The working buffer after the sort -/

section Buffer

variable {e : Nat} {ws : List Word} (h : e ≤ ws.length)
include h

theorem take_sortPrefix : (sortPrefix e ws).take e = sortAscU32 (ws.take e) := List.take_left' (by simpa using h)

theorem drop_sortPrefix : (sortPrefix e ws).drop e = ws.drop e := List.drop_left' (by simpa using h)

/-- Sorting the same cells again changes nothing (41_sort.md R131). -/
theorem sortPrefix_sortPrefix : sortPrefix e (sortPrefix e ws) = sortPrefix e ws := by
  rw [sortPrefix, take_sortPrefix h, drop_sortPrefix h, sortAscU32_sortAscU32, sortPrefix]

end Buffer

end Sys2Proof.Machine
end

section
/-! A SORT to its end, as data: the array holds its former words, the first ones sorted, its accesses are those of
`addr` and `arrayLen`, and a second run changes nothing (41_sort.md R127, R128, R130, R131). -/

namespace Sys2Proof.Machine

/-! ## Words and bytes of an array -/

@[simp] theorem wordsAt_length (x : Xlen) (m : Memory) (base : Addr) (n : Nat) : (wordsAt x m base n).length = n := by
  simp [wordsAt]

/-- An array that holds the cells of `ws` holds the sequence `ws`. -/
theorem wordsAt_eq {x : Xlen} {m : Memory} {base : Addr} {n : Nat} {ws : List Word} (hlen : ws.length = n)
    (h : ∀ k < n, wordAt x m base k = ws.getD k 0) : wordsAt x m base n = ws := by
  refine List.ext_getElem (by simp [hlen]) fun k hk hk' => ?_
  simp only [wordsAt, List.getElem_map, List.getElem_range]
  rw [h k (hlen ▸ hk'), List.getD_eq_getElem _ _ hk']

/-- Arrays of the same words are made of the same bytes. -/
theorem read_eq_of_wordsAt_eq {x : Xlen} {m m' : Memory} {base : Addr} {n : Nat}
    (h : wordsAt x m base n = wordsAt x m' base n) {loc : Nat} (hloc : InRegion x base (4 * n) loc) :
    m.read loc = m'.read loc := by
  obtain ⟨i, hi, rfl⟩ := hloc
  have hword : m.readWord x (wordAddr x base (i / 4)) = m'.readWord x (wordAddr x base (i / 4)) := by
    have hcell := congrArg (·.getD (i / 4) 0) h
    rwa [wordsAt_getD _ _ _ (by omega), wordsAt_getD _ _ _ (by omega)] at hcell
  have hbyte : addrAt x base i = addrAt x (wordAddr x base (i / 4)) (i % 4) := by
    rw [addrAt_wordAddr, Nat.div_add_mod]
  have hlt : i % 4 < 4 := Nat.mod_lt _ (by decide)
  rw [hbyte, ← Memory.extractLsb'_readWord m x _ hlt, ← Memory.extractLsb'_readWord m' x _ hlt, hword]

/-- The kinds and the addresses of the accesses to the words of an array. -/
theorem wordCalls_accesses (x : Xlen) (k : Kind) (base : Addr) (val : Nat → Word) (n : Nat) :
    (wordCalls x k base val n).map (fun c => (c.kind, c.addr)) =
      (List.range n).map fun j => (k, wordAddr x base j) := by
  rw [wordCalls, List.map_map]
  rfl

theorem addr_of_mem_wordCalls {x : Xlen} {k : Kind} {base : Addr} {val : Nat → Word} {n : Nat} {c : Access}
    (hc : c ∈ wordCalls x k base val n) : ∃ j < n, c.addr = wordAddr x base j := by
  obtain ⟨j, hj, rfl⟩ := List.mem_map.1 hc
  exact ⟨j, List.mem_range.1 hj, rfl⟩

/-! ## A SORT in closed form -/

/-- Memory after a SORT of `len` words that sorts the first `eff` (41_sort.md R123, R126). -/
def sortMem (x : Xlen) (m : Memory) (addr : Addr) (len eff : Nat) : Memory :=
  storeWords x m addr (sortedWord x m addr len eff) len

/-- The accesses of a SORT, memory being `m` before it (41_sort.md R125). -/
def sortCalls (x : Xlen) (m : Memory) (addr : Addr) (len eff : Nat) : List Access :=
  wordCalls x .read addr (wordAt x m addr) len ++ wordCalls x .write addr (sortedWord x m addr len eff) len

section ClosedForm

variable (x : Xlen) (m : Memory) (addr : Addr) (len eff : Nat)

/-- The accesses of a SORT depend on neither the data nor `sortLen` (41_sort.md R128). -/
theorem sortCalls_accesses :
    (sortCalls x m addr len eff).map (fun c => (c.kind, c.addr)) =
      (List.range len).map (fun k => (Kind.read, wordAddr x addr k)) ++
        (List.range len).map (fun k => (Kind.write, wordAddr x addr k)) := by
  rw [sortCalls, List.map_append, wordCalls_accesses, wordCalls_accesses]

@[simp] theorem sortCalls_length : (sortCalls x m addr len eff).length = 2 * len := by
  simpa [Nat.two_mul] using congrArg List.length (sortCalls_accesses x m addr len eff)

variable {x m addr len eff}

theorem addr_of_mem_sortCalls {c : Access} (hc : c ∈ sortCalls x m addr len eff) :
    ∃ k < len, c.addr = wordAddr x addr k :=
  (List.mem_append.1 hc).elim addr_of_mem_wordCalls addr_of_mem_wordCalls

/-- The array after a SORT, where it does not reach around the address space (41_sort.md R123, R126). -/
theorem wordsAt_sortMem (hm : m.wf = true) (hlen : 4 * len ≤ x.size) :
    wordsAt x (sortMem x m addr len eff) addr len = sortPrefix eff (wordsAt x m addr len) :=
  wordsAt_eq (by simp) fun _ hk => wordAt_storeWords hm addr _ hlen hk

/-- Sorting the same array again leaves it as it is (41_sort.md R131). -/
theorem wordsAt_sortMem_sortMem (hm : m.wf = true) (hlen : 4 * len ≤ x.size) (heff : eff ≤ len) :
    wordsAt x (sortMem x (sortMem x m addr len eff) addr len eff) addr len =
      wordsAt x (sortMem x m addr len eff) addr len := by
  have hm' : (sortMem x m addr len eff).wf = true := storeWords_wf hm ..
  rw [wordsAt_sortMem hm' hlen, wordsAt_sortMem hm hlen, sortPrefix_sortPrefix (by simpa using heff)]

end ClosedForm

/-! ## A SORT with every access granted -/

section Granted

variable {s : State} {addr : Addr} {len sortLen : Operand} (hready : s.Ready)
  (hwf : (Instr.sort addr len sortLen).wf s.params.xlen = true) (hread : s.wordsOpen .read addr len.toNat)
  (hwrite : s.wordsOpen .write addr len.toNat)
include hready hwf hread hwrite

theorem invocation_sort :
    invocation (.sort addr len sortLen) s =
      .next (s.finished (sortMem s.params.xlen s.mem addr len.toNat (min sortLen.toNat len.toNat))
        (sortCalls s.params.xlen s.mem addr len.toNat (min sortLen.toNat len.toNat)) .ok) := by
  obtain ⟨t, haccept, hfinish⟩ := sortCompletes s addr len sortLen hready hwf hread hwrite
  exact (invocation_eq haccept).trans hfinish

theorem read_sortMem_outside {loc : Nat} (hloc : ¬InRegion s.params.xlen addr (4 * len.toNat) loc) :
    (sortMem s.params.xlen s.mem addr len.toNat (min sortLen.toNat len.toNat)).read loc = s.mem.read loc := by
  obtain ⟨hframe, -⟩ := sortFrame s _ addr len sortLen hready (invocation_sort hready hwf hread hwrite)
  obtain ⟨hA, hB, -⟩ := latch_of_wf hwf
  simp only [Instr.opA, Instr.opB] at hA hB
  rw [hA, hB] at hframe
  exact hframe loc (ne_word_byte_of_not_inRegion hloc)

end Granted

/-- Settles O40: the array is its first words sorted and its old tail, and the rest of memory is the frame of a SORT. -/
theorem sortLaw : Obligations.SortLaw := by
  intro s addr len sortLen hready hm hwf hsize x e hread hwrite
  have he : e ≤ (wordsAt x s.mem addr len.toNat).length := by simp [e]
  have hwords := wordsAt_sortMem (addr := addr) (eff := e) hm hsize.le
  have hsorted := (congrArg (List.take e) hwords).trans (take_sortPrefix he)
  refine ⟨_, _, invocation_sort hready hwf hread hwrite, rfl, ?_, ?_, ?_,
    fun _ => read_sortMem_outside hready hwf hread hwrite, rfl, fun _ => addr_of_mem_sortCalls⟩
  · exact (congrArg (List.drop e) hwords).trans (drop_sortPrefix he)
  · exact hsorted ▸ sortAscU32_perm _
  · exact hsorted ▸ sortAscU32_ascending _

/-- Settles O41: the second run finds the words sorted, so that the array is as it was, and the rest is the frame. -/
theorem sortTwiceIsSortOnce : Obligations.SortTwiceIsSortOnce := by
  intro s addr len sortLen hready hm hwf hsize hread hwrite
  have hready' (m : Memory) (cs : List Access) : (s.finished m cs .ok).Ready := ⟨rfl, hready.2⟩
  refine ⟨_, _, invocation_sort hready hwf hread hwrite, invocation_sort (hready' _ _) hwf hread hwrite, by simp,
    by simp [Nat.add_assoc], fun loc => ?_⟩
  by_cases hloc : InRegion s.params.xlen addr (4 * len.toNat) loc
  · exact read_eq_of_wordsAt_eq (wordsAt_sortMem_sortMem hm hsize.le (Nat.min_le_right ..)) hloc
  · exact read_sortMem_outside (hready' _ _) hwf hread hwrite hloc

/-- Settles O43: an empty array is answered at the acceptance; any other makes the accesses of the closed form. -/
theorem sortEmptyArray : Obligations.SortEmptyArray := by
  refine ⟨fun s addr sortLen hst => ?_, fun s addr len sortLen hready hwf hread hwrite => ?_⟩
  · have hlen : (latch s.params.xlen 0).toNat = 0 := by simp [latch]
    rw [invocation_eq (exec_sort_idle hst ..), sortAccept_eq, if_pos hlen]
    exact untilIdle_idle _ rfl
  · exact ⟨_, _, invocation_sort hready hwf hread hwrite, rfl, sortCalls_length .., sortCalls_accesses ..⟩

/-- Settles O44: the loop of either phase, up to the refused call. -/
theorem sortFaultLeavesPrefix : Obligations.SortFaultLeavesPrefix := by
  intro s addr len sortLen k hready hwf x val hk
  obtain ⟨hA, hB, hC⟩ := latch_of_wf hwf
  simp only [Instr.opA, Instr.opB, Instr.opC] at hA hB hC
  have hs := hready.started
  refine ⟨fun hopen hacc => ?_, fun hread hopen hacc => ?_⟩
  · refine invocation_of_pseudocode hready.1 ?_ rfl
    simp only [pseudocode, sortPseudocode, hA, hB, hC]
    exact readLoop_refused_at hs hk hopen hacc _
  · refine invocation_of_pseudocode hready.1 ?_ rfl
    simp only [pseudocode, sortPseudocode, hA, hB, hC]
    refine (readLoop_from hs hread 0 _).trans ?_
    refine (writeLoop_refused_at (hs.transferred _ _) hk hopen hacc (val := val) (fun _ _ _ _ => rfl) _).trans ?_
    rw [transferred_finished, List.append_assoc]
    rfl

end Sys2Proof.Machine
end

section
/-! Two SORTs that differ in the latch `C` alone, step by step: no row of the step table reads `C`, so nothing tells them
apart but `C` itself, and where they end they end in the same state (41_sort.md R122, R129, R131). -/

namespace Sys2Proof.Machine

/-- The state with another value in the latch `C`. -/
def State.withC (s : State) (c : Operand) : State := s.setRegs { s.regs with c := c }

/-- The same IDLE state, or the same SORT in RUN with `c` in the latch `C`. -/
def SameButC (c : Operand) (t t' : State) : Prop :=
  (t.st = .idle ∧ t' = t) ∨ (t.st = .run ∧ t.regs.op = .sort ∧ t' = t.withC c)

/-- Where `o` is a next state, `o'` is the same but for the latch `C`. -/
def AlikeButC (c : Operand) (o o' : Result) : Prop := ∀ t, o = .next t → ∃ t', o' = .next t' ∧ SameButC c t t'

section Alike

variable {c : Operand} {t t' : State}

theorem SameButC.of_idle (h : t.st = .idle) : SameButC c t t := .inl ⟨h, rfl⟩

theorem SameButC.next (h : SameButC c t t') : AlikeButC c (.next t) (.next t') := by
  rintro u ⟨⟩
  exact ⟨t', rfl, h⟩

theorem SameButC.eq_of_idle (h : SameButC c t t') (ht : t'.st = .idle) : t' = t := by
  obtain ⟨-, rfl⟩ | ⟨hrun, -, rfl⟩ := h
  · rfl
  · cases hrun.symm.trans ht

theorem SameButC.eq_up_to_c (h : SameButC c t t') : t' = { t with regs := { t.regs with c := t'.regs.c } } := by
  obtain ⟨-, rfl⟩ | ⟨-, -, rfl⟩ := h
  · rfl
  · rfl

end Alike

/-! ## One step -/

section Step

variable {s : State} (c : Operand) (hst : s.st = .run)
include hst

/-- The outside's moves keep the difference, or a reset among them ends it. -/
theorem atCall_withC :
    (s.atCall.st = .idle ∧ (s.withC c).atCall = s.atCall) ∨
      (s.atCall.st = .run ∧ s.atCall.regs = s.regs ∧ (s.withC c).atCall = s.atCall.withC c) := by
  cases hcall : s.atCall.st with
  | idle => exact .inl ⟨rfl, atCall_setRegs_of_idle _ hst hcall⟩
  | run =>
    have hregs : s.atCall.regs = s.regs := afterMoves_regs_of_run s hcall
    refine .inr ⟨rfl, hregs, ?_⟩
    rw [State.withC, State.withC, hregs]
    exact atCall_setRegs_of_run _ hcall

variable (hop : s.regs.op = .sort)
include hop

/-- Whatever the port or the outside does to a call of both, they stay alike if they do after the granted access. -/
theorem portCall_withC (a : Addr) (n : Size) (k : Kind) {perform : State → State} {granted granted' : State → Result}
    (hcomm : ∀ t, perform (t.withC c) = (perform t).withC c)
    (hgranted : ∀ t : State, t.st = .run → t.regs.op = .sort →
      AlikeButC c (granted (perform t)) (granted' ((perform t).withC c))) :
    AlikeButC c (portCall a n k perform s granted) (portCall a n k perform (s.withC c) granted') := by
  unfold portCall
  obtain ⟨hidle, heq⟩ | ⟨hrun, hregs, heq⟩ := atCall_withC c hst
  · simp only [heq, hidle]
    exact (SameButC.of_idle hidle).next
  · have hop' : s.atCall.regs.op = .sort := hregs ▸ hop
    have hrun' : (s.atCall.withC c).st = .run := hrun
    have hturn : (s.withC c).nextTurn = s.nextTurn := rfl
    have hacc : (s.atCall.withC c).accessible a n k = s.atCall.accessible a n k := accessible_congr rfl rfl a n k
    simp only [heq, hrun, hrun', hturn, hacc, hcomm]
    cases s.nextTurn.answer with
    | pending => exact SameButC.next (.inr ⟨hrun, hop', rfl⟩)
    | refuses => exact (SameButC.of_idle rfl).next
    | byMap =>
      dsimp only
      split
      · exact hgranted _ hrun hop'
      · exact (SameButC.of_idle rfl).next
    | byMapThenReset =>
      dsimp only
      split
      · exact (SameButC.of_idle rfl).next
      · exact (SameButC.of_idle rfl).next

theorem sortAfterRead_withC (w : Word) : SameButC c (sortAfterRead w s) (sortAfterRead w (s.withC c)) := by
  by_cases hlast : s.regs.idx + 1 = s.regs.len
  · simp only [sortAfterRead, State.withC, State.setRegs_regs, hlast, if_true]
    exact .inr ⟨hst, hop, rfl⟩
  · simp only [sortAfterRead, State.withC, State.setRegs_regs, hlast, if_false]
    exact .inr ⟨hst, hop, rfl⟩

theorem sortAfterWrite_withC : SameButC c (sortAfterWrite s) (sortAfterWrite (s.withC c)) := by
  by_cases hlast : s.regs.idx + 1 = s.regs.len
  · simp only [sortAfterWrite, State.withC, State.setRegs_regs, hlast, if_true]
    exact .of_idle rfl
  · simp only [sortAfterWrite, State.withC, State.setRegs_regs, hlast, if_false]
    exact .inr ⟨hst, hop, rfl⟩

/-- No row of SORT's step table reads `C` (41_sort.md R129). -/
theorem sortTick_withC : AlikeButC c (sortTick s) (sortTick (s.withC c)) := by
  cases hph : s.regs.phase with
  | rd =>
    rw [sortTick_rd hph, sortTick_rd (s := s.withC c) hph]
    exact portCall_withC c hst hop _ _ _ (fun _ => rfl)
      fun t hrun hsort => (sortAfterRead_withC c (s := performReadWord _ t) hrun hsort _).next
  | srt =>
    rw [sortTick_srt hph, sortTick_srt (s := s.withC c) hph]
    exact SameButC.next (.inr ⟨hst, hop, rfl⟩)
  | wr =>
    rw [sortTick_wr hph, sortTick_wr (s := s.withC c) hph]
    exact portCall_withC c hst hop _ _ _ (fun _ => rfl)
      fun t hrun hsort => (sortAfterWrite_withC c (s := performWriteWord _ _ t) hrun hsort).next
  | r1 | r2 | w | r | wl | wh => simp [AlikeButC, sortTick, hph]

theorem step_of_sort : step s = sortTick s := by rw [step_run hst, hop]

theorem step_withC : AlikeButC c (step s) (step (s.withC c)) := by
  rw [step_of_sort hst hop, step_of_sort (s := s.withC c) hst hop]
  exact sortTick_withC c hst hop

end Step

/-! ## The whole command -/

theorem untilIdle_alikeButC {c : Operand} (fuel : Nat) {s s' : State} (hs : SameButC c s s') :
    AlikeButC c (untilIdle fuel s) (untilIdle fuel s') := by
  induction fuel generalizing s s' with
  | zero => exact hs.next
  | succ fuel ih =>
    obtain ⟨hidle, rfl⟩ | ⟨hst, hop, rfl⟩ := id hs
    · rw [untilIdle_idle _ hidle]
      exact hs.next
    cases hout : s.outstanding with
    | true =>
      rw [untilIdle_waiting _ hout, untilIdle_waiting (s := s.withC c) _ hout]
      exact hs.next
    | false =>
      intro u hu
      cases hstep : step s with
      | next t =>
        obtain ⟨t', hstep', hsame⟩ := step_withC c hst hop t hstep
        rw [untilIdle_next hst hout hstep] at hu
        rw [untilIdle_next (s := s.withC c) hst hout hstep']
        exact ih hsame u hu
      | fault f => simp [untilIdle, hst, hout, hstep] at hu
      | refused r => simp [untilIdle, hst, hout, hstep] at hu

theorem finish_alikeButC {c : Operand} {s s' : State} (hs : SameButC c s s') : AlikeButC c (finish s) (finish s') := by
  have hcount : s'.regs.stepCount = s.regs.stepCount := by
    obtain ⟨-, rfl⟩ | ⟨-, -, rfl⟩ := hs
    · rfl
    · rfl
  rw [finish, finish, hcount]
  exact untilIdle_alikeButC _ hs

/-- `EFF` is `arrayLen` for both commands (41_sort.md R122). -/
theorem sortAccept_sameButC (s : State) (addr : Addr) {len sortLen : Operand}
    (hle : (latch s.params.xlen len).toNat ≤ (latch s.params.xlen sortLen).toNat) :
    SameButC (latch s.params.xlen sortLen) (sortAccept addr len len s) (sortAccept addr len sortLen s) := by
  rw [sortAccept_eq, sortAccept_eq]
  by_cases hlen : (latch s.params.xlen len).toNat = 0
  · rw [if_pos hlen, if_pos hlen]
    exact .of_idle rfl
  · rw [if_neg hlen, if_neg hlen]
    simp only [effectiveSortLen, Nat.min_eq_right hle, Nat.min_self]
    exact .inr ⟨rfl, rfl, rfl⟩

/-- Settles O42: the two commands are alike at their acceptance, and every step keeps them so. -/
theorem sortLenIsClamped : Obligations.SortLenIsClamped := by
  intro s addr len sortLen hst hlen hsortLen hle
  have hle' : (latch s.params.xlen len).toNat ≤ (latch s.params.xlen sortLen).toNat := by
    rwa [latch_of_fits hlen, latch_of_fits hsortLen]
  obtain ⟨u, -, hu, -, -⟩ := stepTablesMeetPseudocode (.sort addr len len) s hst
  have hfinish : finish (sortAccept addr len len s) = .next u := (invocation_eq (exec_sort_idle hst ..)).symm.trans hu
  obtain ⟨t, ht, hsame⟩ := finish_alikeButC (sortAccept_sameButC s addr hle') u hfinish
  exact ⟨t, u, (invocation_eq (exec_sort_idle hst ..)).trans ht, hu, hsame.eq_up_to_c, hsame.eq_of_idle⟩

end Sys2Proof.Machine
end

section
/-! The nibbles of a packed byte (42_crush.md R143, 43_expand.md R158). -/

namespace Sys2Proof.Machine

/-- Bits 3:0 of a packed byte are the low nibble of the pair's first byte. -/
theorem packNibbles_low (v1 v2 : Byte) : (packNibbles v1 v2).extractLsb' 0 4 = v1.extractLsb' 0 4 := by
  ext i hi
  have hmask : (0x0F#8).getLsbD i = true := by interval_cases i <;> rfl
  simp [packNibbles, hi, hmask]

/-- Bits 7:4 of a packed byte are the low nibble of the pair's second byte. -/
theorem packNibbles_high (v1 v2 : Byte) : (packNibbles v1 v2).extractLsb' 4 4 = v2.extractLsb' 0 4 := by
  ext i hi
  have hlow : (0x0F#8).getLsbD i = true := by interval_cases i <;> rfl
  have hhigh : (0x0F#8).getLsbD (4 + i) = false := by interval_cases i <;> rfl
  have hbit : v2.getLsbD i = true → 4 + i < 8 := fun _ => by omega
  simpa [packNibbles, hlow, hhigh] using hbit

theorem lowNibble_toNat (v : Byte) : (lowNibble v).toNat = v.toNat % 16 := by
  rw [lowNibble, BitVec.toNat_and]
  exact Nat.and_two_pow_sub_one_eq_mod v.toNat 4

theorem highNibble_toNat (v : Byte) : (highNibble v).toNat = v.toNat / 16 := by
  have hshift : (v >>> 4).toNat = v.toNat / 16 := by simp [Nat.shiftRight_eq_div_pow]
  have hlt := v.isLt
  calc (highNibble v).toNat = (v >>> 4).toNat % 16 := lowNibble_toNat (v >>> 4)
    _ = v.toNat / 16 := by omega

/-- Settles O46: packing bit by bit, unpacking as remainder and quotient by 16. -/
theorem nibblesPackAndSplit : Obligations.NibblesPackAndSplit := fun v1 v2 v =>
  ⟨rfl, packNibbles_low v1 v2, packNibbles_high v1 v2, rfl, rfl, lowNibble_toNat v, highNibble_toNat v⟩

end Sys2Proof.Machine
end

section
/-! A CRUSH to its end, as data: the destination holds the packed pairs of the source as it was, wherever no write lands
on a byte still to be read (42_crush.md R145, R148). -/

namespace Sys2Proof.Machine

section Packed

variable {x : Xlen} {m : Memory} {dst src : Addr} {n : Nat}

theorem crushMem_wf (hm : m.wf = true) : (crushMem x m dst src n).wf = true := by
  induction n with
  | zero => exact hm
  | succ n ih => exact crushMem_succ x m dst src n ▸ Memory.write_wf ih ..

/-- The iterations write nothing but their destination bytes. -/
theorem read_crushMem_other {loc : Nat} (h : ∀ i < n, loc ≠ (addrAt x dst i).toNat) :
    (crushMem x m dst src n).read loc = m.read loc := by
  induction n with
  | zero => rfl
  | succ n ih =>
    rw [crushMem_succ, Memory.read_write_other _ _ (h n n.lt_succ_self)]
    exact ih fun i hi => h i (by omega)

/-- No iteration reads a byte that an earlier one has written. -/
def ReadsAhead (x : Xlen) (dst src : Addr) (n : Nat) : Prop :=
  ∀ i < n, ∀ b < 2, ∀ j < i, (addrAt x src (2 * i + b)).toNat ≠ (addrAt x dst j).toNat

theorem readsAhead_of_disjoint (h : Disjoint x dst n src (2 * n)) : ReadsAhead x dst src n :=
  fun i hi b hb j hj heq => h j (by omega) (2 * i + b) (by omega) heq.symm

/-- In place, the write of iteration `j` is behind the reads of every later one (42_crush.md R145). -/
theorem readsAhead_in_place (hn : 2 * n ≤ x.size) : ReadsAhead x src src n := fun i hi b hb j hj heq => by
  have := addrAt_inj (by omega) (by omega) heq
  omega

/-- An iteration that reads ahead packs its pair as the pair was at the start. -/
theorem crushByte_crushMem (h : ReadsAhead x dst src n) {i : Nat} (hi : i < n) :
    crushByte x (crushMem x m dst src i) src i = crushByte x m src i :=
  congrArg₂ packNibbles (read_crushMem_other (h i hi 0 (by decide))) (read_crushMem_other (h i hi 1 (by decide)))

theorem byteAt_crushMem (hm : m.wf = true) (hn : n ≤ x.size) (h : ReadsAhead x dst src n) {i : Nat} (hi : i < n) :
    byteAt x (crushMem x m dst src n) dst i = crushByte x m src i := by
  induction n with
  | zero => omega
  | succ n ih =>
    rw [byteAt, crushMem_succ]
    obtain rfl | hlt := Nat.eq_or_lt_of_le (Nat.le_of_lt_succ hi)
    · rw [Memory.read_write_same (crushMem_wf hm), crushByte_crushMem h hi]
    · have hne : (addrAt x dst i).toNat ≠ (addrAt x dst n).toNat := fun heq =>
        hlt.ne (addrAt_inj (by omega) (by omega) heq)
      rw [Memory.read_write_other _ _ hne]
      exact ih (by omega) (fun j hj => h j (by omega)) hlt

end Packed

/-- The pairs of a count that fits XLEN bits do not reach around the address space. -/
theorem pairs_le_size {x : Xlen} {dst src : Addr} {count : Operand} (hwf : (Instr.crush dst src count).wf x = true) :
    2 * (count.toNat / 2) ≤ x.size := by
  have hcount : count.toNat < x.size := by
    simp only [Instr.wf, Bool.and_eq_true, Xlen.fits, decide_eq_true_eq] at hwf
    exact hwf.2
  omega

theorem invocation_crush {s : State} {dst src : Addr} {count : Operand} (hready : s.Ready)
    (hwf : (Instr.crush dst src count).wf s.params.xlen = true) (hread : s.bytesOpen .read src (2 * (count.toNat / 2)))
    (hwrite : s.bytesOpen .write dst (count.toNat / 2)) :
    invocation (.crush dst src count) s =
      .next (s.finished (crushMem s.params.xlen s.mem dst src (count.toNat / 2))
        (crushCalls s.params.xlen s.mem dst src (count.toNat / 2)) .ok) := by
  obtain ⟨t, haccept, hfinish⟩ := crushCompletes s dst src count hready hwf hread hwrite
  exact (invocation_eq haccept).trans hfinish

/-- A CRUSH reads the bytes of its pairs only. -/
theorem addr_of_read_mem_crushCalls {x : Xlen} {m : Memory} {dst src : Addr} {n : Nat} {c : Access}
    (hc : c ∈ crushCalls x m dst src n) (hk : c.kind = .read) : ∃ k < 2 * n, c.addr = addrAt x src k := by
  obtain ⟨i, hi, hc⟩ := List.mem_flatMap.1 hc
  have hi := List.mem_range.1 hi
  simp only [crushCallsAt, List.mem_cons, List.not_mem_nil, or_false] at hc
  obtain rfl | rfl | rfl := hc
  · exact ⟨2 * i, by omega, rfl⟩
  · exact ⟨2 * i + 1, by omega, rfl⟩
  · cases hk

/-- Settles O49: disjoint regions read ahead, and the writes stay inside the destination. -/
theorem crushLaw : Obligations.CrushLaw := by
  intro s dst src count hready hm hwf x n hread hwrite hdisj
  have hn : 2 * n ≤ x.size := pairs_le_size hwf
  refine ⟨_, _, invocation_crush hready hwf hread hwrite, rfl, fun i hi => ?_, fun k hk => ?_, fun loc hloc => ?_, rfl,
    fun _ => addr_of_read_mem_crushCalls⟩
  · exact byteAt_crushMem hm (by omega) (readsAhead_of_disjoint hdisj) hi
  · exact read_crushMem_other fun i hi heq => hdisj i hi k hk heq.symm
  · exact read_crushMem_other fun i hi heq => hloc ⟨i, hi, heq⟩

/-- Settles O51: in place the reads are ahead of the writes. -/
theorem crushInPlace : Obligations.CrushInPlace := by
  intro s a count hready hm hwf x n hread hwrite
  have hn : 2 * n ≤ x.size := pairs_le_size hwf
  exact ⟨_, invocation_crush hready hwf hread hwrite,
    fun i hi => byteAt_crushMem hm (by omega) (readsAhead_in_place hn) hi⟩

end Sys2Proof.Machine
end

section
/-! A CRUSH up to a refused access, with no other actor: each of the three accesses of an iteration as the first refused
one (42_crush.md R146, 60_exceptions.md R178). -/

namespace Sys2Proof.Machine

section Iteration

variable {s : State} (hu : s.Undisturbed) {dst src : Addr} {i : Nat}
include hu

theorem crushBody_refused_first (hfirst : s.accessible (addrAt s.params.xlen src (2 * i)) .byte .read = false)
    (go : State → Result) :
    crushBody s.params.xlen dst src i s go =
      .next (s.finished s.mem [failedCall (addrAt s.params.xlen src (2 * i)) .read .byte]
        (.addressFault (addrAt s.params.xlen src (2 * i)) .read .byte)) :=
  portCall_undisturbed_refused hu hfirst ..

variable (hfirst : s.accessible (addrAt s.params.xlen src (2 * i)) .byte .read = true)
include hfirst

theorem crushBody_refused_second
    (hsecond : s.accessible (addrAt s.params.xlen src (2 * i + 1)) .byte .read = false) (go : State → Result) :
    crushBody s.params.xlen dst src i s go =
      .next (s.finished s.mem
        [byteCall s.params.xlen .read src (2 * i) (byteAt s.params.xlen s.mem src (2 * i)),
         failedCall (addrAt s.params.xlen src (2 * i + 1)) .read .byte]
        (.addressFault (addrAt s.params.xlen src (2 * i + 1)) .read .byte)) := by
  rw [crushBody, readByte_granted hu hfirst]
  refine (portCall_undisturbed_refused (hu.transferred _ _) hsecond ..).trans ?_
  rw [transferred_finished]
  rfl

theorem crushBody_refused_write (hsecond : s.accessible (addrAt s.params.xlen src (2 * i + 1)) .byte .read = true)
    (hwrite : s.accessible (addrAt s.params.xlen dst i) .byte .write = false) (go : State → Result) :
    crushBody s.params.xlen dst src i s go =
      .next (s.finished s.mem
        [byteCall s.params.xlen .read src (2 * i) (byteAt s.params.xlen s.mem src (2 * i)),
         byteCall s.params.xlen .read src (2 * i + 1) (byteAt s.params.xlen s.mem src (2 * i + 1)),
         failedCall (addrAt s.params.xlen dst i) .write .byte]
        (.addressFault (addrAt s.params.xlen dst i) .write .byte)) := by
  rw [crushBody, readByte_granted hu hfirst]
  refine (readByte_granted (hu.transferred _ _) hsecond _).trans ?_
  refine (portCall_undisturbed_refused ((hu.transferred _ _).transferred _ _) hwrite ..).trans ?_
  rw [transferred_transferred, transferred_finished]
  rfl

end Iteration

/-- A CRUSH accepted in `s`, its iterations before `i` done. -/
def State.crushedTo (s : State) (dst src : Addr) (i : Nat) : State :=
  s.started.transferred (crushMem s.params.xlen s.mem dst src i) (crushCalls s.params.xlen s.mem dst src i)

/-- A CRUSH whose iteration `i` is the first that is not granted ends as that iteration does. -/
theorem invocation_crush_of_iteration {s : State} {dst src : Addr} {count : Operand} {i : Nat} (hready : s.Ready)
    (hwf : (Instr.crush dst src count).wf s.params.xlen = true) (hi : i < count.toNat / 2)
    (hread : s.bytesOpen .read src (2 * i)) (hwrite : s.bytesOpen .write dst i) {m : Memory} {cs : List Access}
    {r : Response}
    (hbody : ∀ go, crushBody s.params.xlen dst src i (s.crushedTo dst src i) go =
      .next ((s.crushedTo dst src i).finished m cs r)) :
    invocation (.crush dst src count) s =
      .next (s.finished m (crushCalls s.params.xlen s.mem dst src i ++ cs) r) := by
  obtain ⟨hA, hB, hC⟩ := latch_of_wf hwf
  simp only [Instr.opA, Instr.opB, Instr.opC] at hA hB hC
  obtain ⟨rest, hrest⟩ : ∃ rest, count.toNat / 2 = i + (rest + 1) := ⟨count.toNat / 2 - i - 1, by omega⟩
  refine invocation_of_pseudocode hready.1 ?_ rfl
  rw [pseudocode, crushPseudocode_eq, hA, hB, hC, hrest]
  refine (crushLoop_from hready.started hread hwrite (rest + 1) _).trans ((hbody _).trans ?_)
  rw [State.crushedTo, transferred_finished]
  rfl

/-- Settles O52: the iterations before `i`, then iteration `i` up to its refused access. -/
theorem crushFaultLeavesPrefix : Obligations.CrushFaultLeavesPrefix := by
  intro s dst src count i hready hwf x m before a1 a2 aw hi hread hwrite
  have hu : (s.crushedTo dst src i).Undisturbed := hready.started
  refine ⟨fun hfirst => ?_, fun hfirst hsecond => ?_, fun hfirst hsecond hthird => ?_⟩
  · exact invocation_crush_of_iteration hready hwf hi hread hwrite (crushBody_refused_first hu hfirst)
  · exact invocation_crush_of_iteration hready hwf hi hread hwrite (crushBody_refused_second hu hfirst hsecond)
  · exact invocation_crush_of_iteration hready hwf hi hread hwrite (crushBody_refused_write hu hfirst hsecond hthird)

end Sys2Proof.Machine
end

section
/-! Two CRUSHes that differ in the latch `C` alone, step by step: `ITER` is resolved at the acceptance and no row of the
step table reads `C`, so the byte that an odd count leaves over is never read (42_crush.md R141, R144, R147). -/

namespace Sys2Proof.Machine

/-- The same IDLE state, or the same state in RUN but for `c` in the latch `C`. -/
def SameButLatchC (c : Operand) (t t' : State) : Prop :=
  (t.st = .idle ∧ t' = t) ∨ (t.st = .run ∧ t' = t.withC c)

/-- Where `o` is a next state, so is `o'`, the same but for the latch `C`. -/
def AlikeButLatchC (c : Operand) (o o' : Result) : Prop :=
  ∀ t, o = .next t → ∃ t', o' = .next t' ∧ SameButLatchC c t t'

section Alike

variable {c : Operand} {t t' : State}

theorem SameButLatchC.of_idle (h : t.st = .idle) : SameButLatchC c t t := .inl ⟨h, rfl⟩

theorem SameButLatchC.of_run (h : t.st = .run) : SameButLatchC c t (t.withC c) := .inr ⟨h, rfl⟩

theorem SameButLatchC.next (h : SameButLatchC c t t') : AlikeButLatchC c (.next t) (.next t') := by
  rintro u ⟨⟩
  exact ⟨t', rfl, h⟩

theorem SameButLatchC.eq_of_idle (h : SameButLatchC c t t') (ht : t'.st = .idle) : t' = t := by
  obtain ⟨-, rfl⟩ | ⟨hrun, rfl⟩ := h
  · rfl
  · cases hrun.symm.trans ht

theorem SameButLatchC.eq_up_to_c (h : SameButLatchC c t t') :
    t' = { t with regs := { t.regs with c := t'.regs.c } } := by
  obtain ⟨-, rfl⟩ | ⟨-, rfl⟩ := h
  · rfl
  · rfl

end Alike

/-! ## One step -/

section Step

variable {s : State} (c : Operand) (hst : s.st = .run)
include hst

/-- A call of both: the outside and the port do the same to each, and so does the row after a granted access. -/
theorem portCall_alikeButLatchC (a : Addr) (n : Size) (k : Kind) {perform : State → State}
    {after after' : State → State} (hcomm : ∀ t, perform (t.withC c) = (perform t).withC c)
    (hafter : ∀ t : State, t.st = .run → SameButLatchC c (after (perform t)) (after' ((perform t).withC c))) :
    AlikeButLatchC c (portCall a n k perform s fun t => .next (after t))
      (portCall a n k perform (s.withC c) fun t => .next (after' t)) := by
  unfold portCall
  obtain ⟨hidle, heq⟩ | ⟨hrun, -, heq⟩ := atCall_withC c hst
  · simp only [heq, hidle]
    exact (SameButLatchC.of_idle hidle).next
  · have hrun' : (s.atCall.withC c).st = .run := hrun
    have hturn : (s.withC c).nextTurn = s.nextTurn := rfl
    have hacc : (s.atCall.withC c).accessible a n k = s.atCall.accessible a n k := accessible_congr rfl rfl a n k
    simp only [heq, hrun, hrun', hturn, hacc, hcomm]
    cases s.nextTurn.answer with
    | pending => exact (SameButLatchC.of_run (c := c) (t := s.atCall.setOutstanding true) hrun).next
    | refuses => exact (SameButLatchC.of_idle rfl).next
    | byMap =>
      dsimp only
      split
      · exact (hafter _ hrun).next
      · exact (SameButLatchC.of_idle rfl).next
    | byMapThenReset =>
      dsimp only
      split
      · exact (SameButLatchC.of_idle rfl).next
      · exact (SameButLatchC.of_idle rfl).next

theorem crushAfterWrite_withC : SameButLatchC c (crushAfterWrite s) (crushAfterWrite (s.withC c)) := by
  by_cases hlast : s.regs.idx + 1 = s.regs.iter
  · simp only [crushAfterWrite, State.withC, State.setRegs_regs, hlast, if_true]
    exact .of_idle rfl
  · simp only [crushAfterWrite, State.withC, State.setRegs_regs, hlast, if_false]
    exact .inr ⟨hst, rfl⟩

/-- No row of CRUSH's step table reads `C` (42_crush.md R147). -/
theorem crushTick_withC : AlikeButLatchC c (crushTick s) (crushTick (s.withC c)) := by
  cases hph : s.regs.phase with
  | r1 =>
    rw [crushTick_r1 hph, crushTick_r1 (s := s.withC c) hph]
    exact portCall_alikeButLatchC c hst _ _ _ (fun _ => rfl)
      fun t hrun => .of_run (t := crushAfterFirst _ (performReadByte _ t)) hrun
  | r2 =>
    rw [crushTick_r2 hph, crushTick_r2 (s := s.withC c) hph]
    exact portCall_alikeButLatchC c hst _ _ _ (fun _ => rfl)
      fun t hrun => .of_run (t := crushAfterSecond _ (performReadByte _ t)) hrun
  | w =>
    rw [crushTick_w hph, crushTick_w (s := s.withC c) hph]
    exact portCall_alikeButLatchC c hst _ _ _ (fun _ => rfl)
      fun t hrun => crushAfterWrite_withC c (s := performWriteByte _ _ t) hrun
  | rd | wr | srt | r | wl | wh => simp [AlikeButLatchC, crushTick, hph]

variable (hop : s.regs.op = .crush)
include hop

theorem step_of_crush : step s = crushTick s := by rw [step_run hst, hop]

theorem step_crush_withC : AlikeButLatchC c (step s) (step (s.withC c)) := by
  rw [step_of_crush hst hop, step_of_crush (s := s.withC c) hst hop]
  exact crushTick_withC c hst

end Step

/-! ## The whole command -/

theorem untilIdle_crush_withC (c : Operand) (fuel : Nat) {s : State} (hst : s.st = .run) (hop : s.regs.op = .crush) :
    AlikeButLatchC c (untilIdle fuel s) (untilIdle fuel (s.withC c)) := by
  induction fuel generalizing s with
  | zero => exact (SameButLatchC.of_run hst).next
  | succ fuel ih =>
    cases hout : s.outstanding with
    | true =>
      rw [untilIdle_waiting _ hout, untilIdle_waiting (s := s.withC c) _ hout]
      exact (SameButLatchC.of_run hst).next
    | false =>
      cases hstep : step s with
      | next t =>
        obtain ⟨t', hstep', hsame⟩ := step_crush_withC c hst hop t hstep
        rw [untilIdle_next hst hout hstep, untilIdle_next (s := s.withC c) hst hout hstep']
        obtain ⟨hidle, rfl⟩ | ⟨hrun, rfl⟩ := hsame
        · rw [untilIdle_idle _ hidle]
          exact (SameButLatchC.of_idle hidle).next
        · exact ih hrun ((latchedCommandHolds s t hst hstep hrun).1.trans hop)
      | fault f => simp [AlikeButLatchC, untilIdle, hst, hout, hstep]
      | refused r => simp [AlikeButLatchC, untilIdle, hst, hout, hstep]

/-- Two CRUSHes of as many pairs end in the same state, or wait in states that differ in the latch `C` alone. -/
theorem finish_crushAccept_alike (s : State) (dst src : Addr) {count count' : Operand}
    (hpairs : pairCount (latch s.params.xlen count') = pairCount (latch s.params.xlen count)) :
    AlikeButLatchC (latch s.params.xlen count') (finish (crushAccept dst src count s))
      (finish (crushAccept dst src count' s)) := by
  rw [crushAccept_eq, crushAccept_eq, hpairs]
  split
  · rw [finish, untilIdle_idle _ rfl]
    exact (SameButLatchC.of_idle rfl).next
  · exact untilIdle_crush_withC _ _ rfl rfl

/-- The counts `2*k` and `2*k + 1` have `k` pairs (42_crush.md R141). -/
theorem pairCount_latch_ofNat {x : Xlen} {n : Nat} (hn : n < x.size) :
    pairCount (latch x (BitVec.ofNat 64 n)) = n / 2 := by
  have hx := size_le x
  have hcount : (BitVec.ofNat 64 n).toNat = n := BitVec.toNat_ofNat .. ▸ Nat.mod_eq_of_lt (by omega)
  have hfits : x.fits (BitVec.ofNat 64 n) = true := by simpa only [Xlen.fits, hcount, decide_eq_true_eq] using hn
  rw [latch_of_fits hfits, pairCount_eq, hcount]

/-- Settles O50: both counts have the same pairs, of which a count below 2 has none. -/
theorem crushOddCount : Obligations.CrushOddCount := by
  refine ⟨fun s dst src k hst hk => ?_, fun s dst src count hst hcount => ?_⟩
  · have hpairs : pairCount (latch s.params.xlen (BitVec.ofNat 64 (2 * k + 1))) =
        pairCount (latch s.params.xlen (BitVec.ofNat 64 (2 * k))) := by
      rw [pairCount_latch_ofNat hk, pairCount_latch_ofNat (Nat.lt_of_succ_lt hk)]
      omega
    obtain ⟨u, -, hu, -, -⟩ := stepTablesMeetPseudocode (.crush dst src (BitVec.ofNat 64 (2 * k))) s hst
    have hfinish : finish (crushAccept dst src (BitVec.ofNat 64 (2 * k)) s) = .next u :=
      (invocation_eq (exec_crush_idle hst ..)).symm.trans hu
    obtain ⟨t, ht, hsame⟩ := finish_crushAccept_alike s dst src hpairs u hfinish
    exact ⟨t, u, (invocation_eq (exec_crush_idle hst ..)).trans ht, hu, hsame.eq_up_to_c, hsame.eq_of_idle⟩
  · have hnone : pairCount (latch s.params.xlen count) = 0 := by
      have hle := Nat.mod_le count.toNat s.params.xlen.size
      rw [pairCount_eq, latch, BitVec.toNat_ofNat]
      omega
    rw [invocation_eq (exec_crush_idle hst ..), crushAccept_eq, if_pos hnone]
    exact untilIdle_idle _ rfl

end Sys2Proof.Machine
end

section
/-! An EXPAND to its end, as data: with disjoint regions the destination holds the nibbles of the source as it was
(43_expand.md R157, R159, R161). -/

namespace Sys2Proof.Machine

section Unpacked

variable {x : Xlen} {m : Memory} {dst src : Addr} {n i loc : Nat}

theorem expandBoth_wf (hm : m.wf = true) : (expandBoth x m dst src i).wf = true :=
  Memory.write_wf (Memory.write_wf hm ..) ..

theorem read_expandBoth_other (hlow : loc ≠ (addrAt x dst (2 * i)).toNat)
    (hhigh : loc ≠ (addrAt x dst (2 * i + 1)).toNat) : (expandBoth x m dst src i).read loc = m.read loc := by
  rw [expandBoth, Memory.read_write_other _ _ hhigh, expandLow, Memory.read_write_other _ _ hlow]

/-- Two offsets below 2^XLEN that differ give different locations. -/
theorem addrAt_toNat_ne {j k : Nat} (hj : j < x.size) (hk : k < x.size) (hne : j ≠ k) :
    (addrAt x dst j).toNat ≠ (addrAt x dst k).toNat := fun h => hne (addrAt_inj hj hk h)

theorem byteAt_expandBoth (hm : m.wf = true) (hi : 2 * i + 1 < x.size) :
    byteAt x (expandBoth x m dst src i) dst (2 * i) = lowNibble (byteAt x m src i) ∧
      byteAt x (expandBoth x m dst src i) dst (2 * i + 1) = highNibble (byteAt x m src i) := by
  constructor
  · rw [byteAt, expandBoth, Memory.read_write_other _ _ (addrAt_toNat_ne (by omega) hi (by omega)), expandLow,
      Memory.read_write_same hm]
  · exact Memory.read_write_same (Memory.write_wf hm ..) _ _

theorem expandMem_wf (hm : m.wf = true) : (expandMem x m dst src n).wf = true := by
  induction n with
  | zero => exact hm
  | succ n ih => exact expandMem_succ x m dst src n ▸ expandBoth_wf ih

/-- The iterations write nothing but their destination bytes. -/
theorem read_expandMem_other (h : ∀ j < 2 * n, loc ≠ (addrAt x dst j).toNat) :
    (expandMem x m dst src n).read loc = m.read loc := by
  induction n with
  | zero => rfl
  | succ n ih =>
    rw [expandMem_succ, read_expandBoth_other (h _ (by omega)) (h _ (by omega))]
    exact ih fun j hj => h j (by omega)

/-- A byte of a source that the destination does not meet is what it was, after any number of iterations. -/
theorem byteAt_expandMem_src {k l : Nat} (h : Disjoint x dst k src l) (hn : 2 * n ≤ k) (hi : i < l) :
    byteAt x (expandMem x m dst src n) src i = byteAt x m src i :=
  read_expandMem_other fun j hj heq => h j (by omega) i hi heq.symm

theorem byteAt_expandMem_dst (hm : m.wf = true) (hn : 2 * n ≤ x.size) (h : Disjoint x dst (2 * n) src n)
    (hi : i < n) :
    byteAt x (expandMem x m dst src n) dst (2 * i) = lowNibble (byteAt x m src i) ∧
      byteAt x (expandMem x m dst src n) dst (2 * i + 1) = highNibble (byteAt x m src i) := by
  induction n with
  | zero => omega
  | succ n ih =>
    rw [expandMem_succ]
    obtain rfl | hlt := Nat.eq_or_lt_of_le (Nat.le_of_lt_succ hi)
    · rw [← byteAt_expandMem_src (m := m) h (by omega : 2 * i ≤ _) hi]
      exact byteAt_expandBoth (expandMem_wf hm) (by omega)
    · have hother : ∀ j < 2 * n, byteAt x (expandBoth x (expandMem x m dst src n) dst src n) dst j =
          byteAt x (expandMem x m dst src n) dst j := fun j hj =>
        read_expandBoth_other (addrAt_toNat_ne (by omega) (by omega) (by omega))
          (addrAt_toNat_ne (by omega) (by omega) (by omega))
      rw [hother _ (by omega), hother _ (by omega)]
      exact ih (by omega) (fun j hj k hk => h j (by omega) k (by omega)) hlt

/-- An EXPAND reads its source bytes only. -/
theorem addr_of_read_mem_expandCalls {c : Access} (hc : c ∈ expandCalls x m dst src n) (hk : c.kind = .read) :
    ∃ k < n, c.addr = addrAt x src k := by
  obtain ⟨i, hi, hc⟩ := List.mem_flatMap.1 hc
  simp only [expandCallsAt, List.mem_cons, List.not_mem_nil, or_false] at hc
  obtain rfl | rfl | rfl := hc
  · exact ⟨i, List.mem_range.1 hi, rfl⟩
  · cases hk
  · cases hk

end Unpacked

theorem invocation_expand {s : State} {dst src : Addr} {count : Operand} (hready : s.Ready)
    (hwf : (Instr.expand dst src count).wf s.params.xlen = true) (hread : s.bytesOpen .read src count.toNat)
    (hwrite : s.bytesOpen .write dst (2 * count.toNat)) :
    invocation (.expand dst src count) s =
      .next (s.finished (expandMem s.params.xlen s.mem dst src count.toNat)
        (expandCalls s.params.xlen s.mem dst src count.toNat) .ok) := by
  obtain ⟨t, haccept, hfinish⟩ := expandCompletes s dst src count hready hwf hread hwrite
  exact (invocation_eq haccept).trans hfinish

/-- Settles O56: with disjoint regions every read finds the source as it was, and the writes stay inside the
destination. -/
theorem expandLaw : Obligations.ExpandLaw := by
  intro s dst src count hready hm hwf x n hn hread hwrite hdisj
  refine ⟨_, _, invocation_expand hready hwf hread hwrite, rfl, fun i hi => ?_, fun k hk => ?_, fun loc hloc => ?_,
    rfl, fun _ => addr_of_read_mem_expandCalls⟩
  · exact byteAt_expandMem_dst hm hn hdisj hi
  · exact byteAt_expandMem_src hdisj le_rfl hk
  · exact read_expandMem_other fun i hi heq => hloc ⟨i, hi, heq⟩

end Sys2Proof.Machine
end

section
/-! An EXPAND up to a refused access, with no other actor: each of the three accesses of an iteration as the first
refused one (43_expand.md R160, 60_exceptions.md R178). -/

namespace Sys2Proof.Machine

section Iteration

variable {s : State} (hu : s.Undisturbed) {dst src : Addr} {i : Nat}
include hu

theorem expandBody_refused_read (hread : s.accessible (addrAt s.params.xlen src i) .byte .read = false)
    (go : State → Result) :
    expandBody s.params.xlen dst src i s go =
      .next (s.finished s.mem [failedCall (addrAt s.params.xlen src i) .read .byte]
        (.addressFault (addrAt s.params.xlen src i) .read .byte)) :=
  portCall_undisturbed_refused hu hread ..

variable (hread : s.accessible (addrAt s.params.xlen src i) .byte .read = true)
include hread

theorem expandBody_refused_low (hlow : s.accessible (addrAt s.params.xlen dst (2 * i)) .byte .write = false)
    (go : State → Result) :
    expandBody s.params.xlen dst src i s go =
      .next (s.finished s.mem
        [byteCall s.params.xlen .read src i (byteAt s.params.xlen s.mem src i),
         failedCall (addrAt s.params.xlen dst (2 * i)) .write .byte]
        (.addressFault (addrAt s.params.xlen dst (2 * i)) .write .byte)) := by
  rw [expandBody, readByte_granted hu hread]
  refine (portCall_undisturbed_refused (hu.transferred _ _) hlow ..).trans ?_
  rw [transferred_finished]
  rfl

theorem expandBody_refused_high (hlow : s.accessible (addrAt s.params.xlen dst (2 * i)) .byte .write = true)
    (hhigh : s.accessible (addrAt s.params.xlen dst (2 * i + 1)) .byte .write = false) (go : State → Result) :
    expandBody s.params.xlen dst src i s go =
      .next (s.finished (expandLow s.params.xlen s.mem dst src i)
        [byteCall s.params.xlen .read src i (byteAt s.params.xlen s.mem src i),
         byteCall s.params.xlen .write dst (2 * i) (lowNibble (byteAt s.params.xlen s.mem src i)),
         failedCall (addrAt s.params.xlen dst (2 * i + 1)) .write .byte]
        (.addressFault (addrAt s.params.xlen dst (2 * i + 1)) .write .byte)) := by
  rw [expandBody, readByte_granted hu hread]
  refine (writeByte_granted (hu.transferred _ _) hlow _ _).trans ?_
  refine (portCall_undisturbed_refused ((hu.transferred _ _).transferred _ _) hhigh ..).trans ?_
  rw [transferred_transferred, transferred_finished]
  rfl

end Iteration

/-- An EXPAND accepted in `s`, its iterations before `i` done. -/
def State.expandedTo (s : State) (dst src : Addr) (i : Nat) : State :=
  s.started.transferred (expandMem s.params.xlen s.mem dst src i) (expandCalls s.params.xlen s.mem dst src i)

/-- An EXPAND whose iteration `i` is the first that is not granted ends as that iteration does. -/
theorem invocation_expand_of_iteration {s : State} {dst src : Addr} {count : Operand} {i : Nat} (hready : s.Ready)
    (hwf : (Instr.expand dst src count).wf s.params.xlen = true) (hi : i < count.toNat)
    (hread : s.bytesOpen .read src i) (hwrite : s.bytesOpen .write dst (2 * i)) {m : Memory} {cs : List Access}
    {r : Response}
    (hbody : ∀ go, expandBody s.params.xlen dst src i (s.expandedTo dst src i) go =
      .next ((s.expandedTo dst src i).finished m cs r)) :
    invocation (.expand dst src count) s =
      .next (s.finished m (expandCalls s.params.xlen s.mem dst src i ++ cs) r) := by
  obtain ⟨hA, hB, hC⟩ := latch_of_wf hwf
  simp only [Instr.opA, Instr.opB, Instr.opC] at hA hB hC
  obtain ⟨rest, hrest⟩ : ∃ rest, count.toNat = i + (rest + 1) := ⟨count.toNat - i - 1, by omega⟩
  refine invocation_of_pseudocode hready.1 ?_ rfl
  rw [pseudocode, expandPseudocode_eq, hA, hB, hC, hrest]
  refine (expandLoop_from hready.started hread hwrite (rest + 1) _).trans ((hbody _).trans ?_)
  rw [State.expandedTo, transferred_finished]
  rfl

/-- Settles O57: the iterations before `i`, then iteration `i` up to its refused access. -/
theorem expandFaultLeavesPrefix : Obligations.ExpandFaultLeavesPrefix := by
  intro s dst src count i hready hwf x m before v ar al ah hi hread hwrite
  have hu : (s.expandedTo dst src i).Undisturbed := hready.started
  refine ⟨fun hr => ?_, fun hr hl => ?_, fun hr hl hh => ?_⟩
  · exact invocation_expand_of_iteration hready hwf hi hread hwrite (expandBody_refused_read hu hr)
  · exact invocation_expand_of_iteration hready hwf hi hread hwrite (expandBody_refused_low hu hr hl)
  · exact invocation_expand_of_iteration hready hwf hi hread hwrite (expandBody_refused_high hu hr hl hh)

end Sys2Proof.Machine
end

section
/-! A CRUSH then an EXPAND, and an EXPAND then a CRUSH, on pairwise disjoint regions: what packing and unpacking keep of
the nibbles (43_expand.md R163, R164). -/

namespace Sys2Proof.Machine

/-! ## One byte, packed and unpacked -/

theorem packNibbles_toNat_mod (v1 v2 : Byte) : (packNibbles v1 v2).toNat % 16 = v1.toNat % 16 := by
  simpa using congrArg BitVec.toNat (packNibbles_low v1 v2)

theorem packNibbles_toNat_div (v1 v2 : Byte) : (packNibbles v1 v2).toNat / 16 = v2.toNat % 16 := by
  have hhigh : (packNibbles v1 v2).toNat / 16 % 16 = v2.toNat % 16 := by
    simpa [Nat.shiftRight_eq_div_pow] using congrArg BitVec.toNat (packNibbles_high v1 v2)
  omega

theorem lowNibble_packNibbles (v1 v2 : Byte) : lowNibble (packNibbles v1 v2) = lowNibble v1 :=
  BitVec.eq_of_toNat_eq (by rw [lowNibble_toNat, lowNibble_toNat, packNibbles_toNat_mod])

theorem highNibble_packNibbles (v1 v2 : Byte) : highNibble (packNibbles v1 v2) = lowNibble v2 :=
  BitVec.eq_of_toNat_eq (by rw [highNibble_toNat, lowNibble_toNat, packNibbles_toNat_div])

/-- A byte is its two nibbles packed. -/
theorem packNibbles_lowNibble_highNibble (v : Byte) : packNibbles (lowNibble v) (highNibble v) = v := by
  apply BitVec.eq_of_toNat_eq
  have hmod := packNibbles_toNat_mod (lowNibble v) (highNibble v)
  have hdiv := packNibbles_toNat_div (lowNibble v) (highNibble v)
  rw [lowNibble_toNat] at hmod
  rw [highNibble_toNat] at hdiv
  omega

/-- A byte of at most 0x0F is its own low nibble. -/
theorem lowNibble_of_le {v : Byte} (h : v.toNat ≤ 0x0F) : lowNibble v = v :=
  BitVec.eq_of_toNat_eq (by rw [lowNibble_toNat]; omega)

/-! ## The memory after both -/

section Memory

variable {x : Xlen} {m : Memory} {a b c : Addr} {n : Nat} (hm : m.wf = true) (hn : 2 * n ≤ x.size)
include hm hn

/-- `n` pairs at `a` packed into `b` and unpacked from there into `c`: each byte keeps its low nibble. -/
theorem byteAt_expandMem_crushMem (hba : Disjoint x b n a (2 * n)) (hcb : Disjoint x c (2 * n) b n) {k : Nat}
    (hk : k < 2 * n) :
    byteAt x (expandMem x (crushMem x m b a n) c b n) c k = lowNibble (byteAt x m a k) := by
  obtain ⟨hlow, hhigh⟩ := byteAt_expandMem_dst (crushMem_wf hm) hn hcb (i := k / 2) (by omega)
  rw [byteAt_crushMem hm (by omega) (readsAhead_of_disjoint hba) (by omega), crushByte] at hlow hhigh
  obtain heven | hodd : k = 2 * (k / 2) ∨ k = 2 * (k / 2) + 1 := by omega
  · rw [heven]
    exact hlow.trans (lowNibble_packNibbles ..)
  · rw [hodd]
    exact hhigh.trans (highNibble_packNibbles ..)

/-- `n` bytes at `a` unpacked into `b` and packed from there into `c`: each byte comes back. -/
theorem byteAt_crushMem_expandMem (hba : Disjoint x b (2 * n) a n) (hcb : Disjoint x c n b (2 * n)) {i : Nat}
    (hi : i < n) : byteAt x (crushMem x (expandMem x m b a n) c b n) c i = byteAt x m a i := by
  obtain ⟨hlow, hhigh⟩ := byteAt_expandMem_dst hm hn hba hi
  calc byteAt x (crushMem x (expandMem x m b a n) c b n) c i
      = crushByte x (expandMem x m b a n) b i :=
        byteAt_crushMem (expandMem_wf hm) (by omega) (readsAhead_of_disjoint hcb) hi
    _ = packNibbles (lowNibble (byteAt x m a i)) (highNibble (byteAt x m a i)) := by rw [crushByte, hlow, hhigh]
    _ = byteAt x m a i := packNibbles_lowNibble_highNibble _

end Memory

/-! ## One command after another -/

/-- A CORE that has answered a command is ready for the next. -/
theorem State.Ready.finished {s : State} (h : s.Ready) (m : Memory) (cs : List Access) (r : Response) :
    (s.finished m cs r).Ready := ⟨rfl, h.2⟩

/-- A count below 2^XLEN is held whole by the operand that carries it. -/
theorem toNat_ofNat_of_lt_size {x : Xlen} {n : Nat} (hn : n < x.size) : (BitVec.ofNat 64 n).toNat = n := by
  have hx := size_le x
  exact BitVec.toNat_ofNat .. ▸ Nat.mod_eq_of_lt (by omega)

theorem fits_ofNat {x : Xlen} {n : Nat} (hn : n < x.size) : x.fits (BitVec.ofNat 64 n) = true := by
  simpa only [Xlen.fits, toNat_ofNat_of_lt_size hn, decide_eq_true_eq] using hn

/-- Settles O59: the EXPAND unpacks the pairs that the CRUSH packed, and a byte of at most 0x0F is its low nibble. -/
theorem crushThenExpandKeepsLowNibbles : Obligations.CrushThenExpandKeepsLowNibbles := by
  intro s p src y n hready hm hwf hy x h hreadSrc hwriteP hreadP hwriteY hPSrc hYP _
  obtain ⟨⟨hp, -⟩, -⟩ : (x.fits p = true ∧ x.fits src = true) ∧ x.fits n = true := by
    simpa only [Instr.wf, Bool.and_eq_true] using hwf
  have hsize : 2 * h ≤ x.size := pairs_le_size hwf
  have hh : h < x.size := by have := size_pos x; omega
  have hcount : (BitVec.ofNat 64 h).toNat = h := toNat_ofNat_of_lt_size hh
  have hwf' : (Instr.expand y p (BitVec.ofNat 64 h)).wf x = true := by
    simpa only [Instr.wf, Bool.and_eq_true] using ⟨⟨hy, hp⟩, fits_ofNat hh⟩
  have hexpand := invocation_expand (hready.finished (crushMem x s.mem p src h) (crushCalls x s.mem p src h) .ok) hwf'
    (hcount.symm ▸ hreadP) (hcount.symm ▸ hwriteY)
  rw [hcount] at hexpand
  have hpairs : Disjoint x p h src (2 * h) := fun i hi j hj => hPSrc i hi j (by omega)
  have hlow : ∀ k < 2 * h, byteAt x (expandMem x (crushMem x s.mem p src h) y p h) y k =
      lowNibble (byteAt x s.mem src k) := fun _ => byteAt_expandMem_crushMem hm hsize hpairs hYP
  refine ⟨_, _, invocation_crush hready hwf hreadSrc hwriteP, hexpand, hlow, fun heven hsmall k hk => ?_⟩
  exact (hlow k (by omega)).trans (lowNibble_of_le (hsmall k hk))

/-- Settles O60: the CRUSH packs the two nibbles that the EXPAND made of each byte. -/
theorem expandThenCrushLosesNothing : Obligations.ExpandThenCrushLosesNothing := by
  intro s y z w n hready hm hwf hw x hn hreadZ hwriteY hreadY hwriteW hYZ hWY _
  obtain ⟨⟨hy, -⟩, -⟩ : (x.fits y = true ∧ x.fits z = true) ∧ x.fits n = true := by
    simpa only [Instr.wf, Bool.and_eq_true] using hwf
  have hcount : (BitVec.ofNat 64 (2 * n.toNat)).toNat / 2 = n.toNat := by
    rw [toNat_ofNat_of_lt_size hn, Nat.mul_div_cancel_left _ Nat.two_pos]
  have hwf' : (Instr.crush w y (BitVec.ofNat 64 (2 * n.toNat))).wf x = true := by
    simpa only [Instr.wf, Bool.and_eq_true] using ⟨⟨hw, hy⟩, fits_ofNat hn⟩
  have hcrush := invocation_crush
    (hready.finished (expandMem x s.mem y z n.toNat) (expandCalls x s.mem y z n.toNat) .ok) hwf'
    (hcount.symm ▸ hreadY) (hcount.symm ▸ hwriteW)
  rw [hcount] at hcrush
  exact ⟨_, _, invocation_expand hready hwf hreadZ hwriteY, hcrush,
    fun _ => byteAt_crushMem_expandMem hm hn.le hYZ hWY⟩

end Sys2Proof.Machine
end

section
/-! Where an invocation ends: with the response OK after performed calls alone, or at the access that raised AddressFault
(60_exceptions.md R178); and an IDLE CORE with nothing to do (60_exceptions.md R188). -/

namespace Sys2Proof.Machine

/-- Settles O7: an idle step is the outside's turn, and the outside has none. -/
theorem idleCoreDoesNothing : Obligations.IdleCoreDoesNothing := by
  intro s hready ho
  rw [step_idle_none hready.1 ho, afterMoves_of_quiet s hready.2]

/-! ## A call without a reset -/

section NoReset

variable {s : State} (h : s.NoReset)
include h

theorem State.NoReset.nextTurn : Move.reset ∉ s.nextTurn.moves ∧ s.nextTurn.answer ≠ .byMapThenReset := by
  cases henv : s.env with
  | nil =>
    cases hout : s.outstanding with
    | false => simp [nextTurn_of_quiet s henv hout, Turn.quiet]
    | true => simp [nextTurn_of_waiting s henv hout, Turn.waiting]
  | cons turn later =>
    have hturn : s.nextTurn = turn := by simp [State.nextTurn, henv]
    exact hturn ▸ h turn (by simp [henv])

theorem State.NoReset.atCall_st : s.atCall.st = s.st :=
  (moves_core_of_no_reset (s.setEnv s.env.tail) s.nextTurn.moves h.nextTurn.1).1

end NoReset

/-! ## Performed calls, then the end -/

/-- From `s` to `t` the CORE performed every call it made and gave no response, and the outside's turns still to come are
turns of `s`. -/
structure AdvancesTo (s t : State) : Prop where
  calls : ∃ new, t.calls = s.calls ++ new ∧ ∀ c ∈ new, c.data ≠ none
  responses : t.responses = s.responses
  env : t.env ⊆ s.env

/-- From `s` every call is performed up to the response that leaves `u`: OK, or an AddressFault, whose call is the last. -/
def EndsIn (s u : State) : Prop :=
  ∃ t, AdvancesTo s t ∧ (u = t.respond .ok ∨ ∃ a k n, u = t.takeAddressFault a k n)

theorem AdvancesTo.of_no_call {s t : State} (hcalls : t.calls = s.calls) (hresp : t.responses = s.responses)
    (henv : t.env ⊆ s.env) : AdvancesTo s t :=
  ⟨⟨[], by simpa using hcalls, by simp⟩, hresp, henv⟩

theorem AdvancesTo.refl (s : State) : AdvancesTo s s := .of_no_call rfl rfl (List.Subset.refl _)

theorem AdvancesTo.trans {s t u : State} (h₁ : AdvancesTo s t) (h₂ : AdvancesTo t u) : AdvancesTo s u := by
  obtain ⟨⟨new₁, hcalls₁, hdata₁⟩, hresp₁, henv₁⟩ := h₁
  obtain ⟨⟨new₂, hcalls₂, hdata₂⟩, hresp₂, henv₂⟩ := h₂
  refine ⟨⟨new₁ ++ new₂, by rw [hcalls₂, hcalls₁, List.append_assoc], fun c hc => ?_⟩, hresp₂.trans hresp₁,
    List.Subset.trans henv₂ henv₁⟩
  exact (List.mem_append.1 hc).elim (hdata₁ c) (hdata₂ c)

theorem AdvancesTo.endsIn {s t u : State} (h : AdvancesTo s t) (hu : EndsIn t u) : EndsIn s u := by
  obtain ⟨v, hv, hend⟩ := hu
  exact ⟨v, h.trans hv, hend⟩

theorem EndsIn.idle {s u : State} (h : EndsIn s u) : u.st = .idle := by
  obtain ⟨t, -, rfl | ⟨a, k, n, rfl⟩⟩ := h
  · rfl
  · rfl

theorem AdvancesTo.noReset {s t : State} (h : AdvancesTo s t) (hs : s.NoReset) : t.NoReset :=
  fun turn hturn => hs turn (h.env hturn)

theorem atCall_advances (s : State) : AdvancesTo s s.atCall :=
  .of_no_call (atCall_calls s) (atCall_responses s) (atCall_env s ▸ List.tail_subset _)

/-- A granted access is performed: its call is logged with the value transferred. -/
theorem Performs.advances {x : Xlen} {c : Access} {perform : State → State} (h : Performs x c perform) {t : State}
    (ht : t.params.xlen = x) : AdvancesTo t (perform t) ∧ (perform t).st = t.st := by
  obtain ⟨d, hd⟩ := h t ht
  rw [hd]
  exact ⟨⟨⟨[{ c with data := some d }], rfl, by simp⟩, rfl, List.Subset.refl _⟩, rfl⟩

/-! ## The steps of an invocation -/

theorem ContinuesFrom.advances_or_ends {t u : State} (h : ContinuesFrom t u) :
    (AdvancesTo t u ∧ u.st = t.st) ∨ EndsIn t u := by
  obtain rfl | ⟨_, _, _, _, _, rfl⟩ := h
  · exact .inr ⟨t, .refl t, .inl rfl⟩
  · exact .inl ⟨.of_no_call rfl rfl (List.Subset.refl _), rfl⟩

/-- The call of a row does not return, is performed, or raises the AddressFault that ends the invocation. -/
theorem IsRow.advances_or_ends {s t : State} (h : IsRow s (.next t)) (hst : s.st = .run) (hreset : s.NoReset) :
    (AdvancesTo s t ∧ t.st = .run) ∨ EndsIn s t := by
  have hcall := atCall_advances s
  have hrun : s.atCall.st = .run := hreset.atCall_st.trans hst
  obtain ⟨c, perform, after, hperf, hafter, hport⟩ := h
  obtain ⟨hidle, -⟩ | ⟨-, -, rfl⟩ | ⟨-, rfl⟩ | ⟨-, -, hnext⟩ | ⟨-, hans, -⟩ := portCall_next hport.symm
  · cases hidle.symm.trans hrun
  · exact .inl ⟨hcall.trans (.of_no_call rfl rfl (List.Subset.refl _)), hrun⟩
  · exact .inr ⟨s.atCall, hcall, .inr ⟨_, _, _, rfl⟩⟩
  · cases hnext
    obtain ⟨hadv, hperfst⟩ := hperf.advances (congrArg Params.xlen (atCall_params s))
    obtain ⟨hcont, hcontst⟩ | hend := (hafter (perform s.atCall)).advances_or_ends
    · exact .inl ⟨hcall.trans (hadv.trans hcont), hcontst.trans (hperfst.trans hrun)⟩
    · exact .inr ((hcall.trans hadv).endsIn hend)
  · exact absurd hans hreset.nextTurn.2

theorem step_run_advances_or_ends {s t : State} (hst : s.st = .run) (hreset : s.NoReset) (h : step s = .next t) :
    (AdvancesTo s t ∧ t.st = .run) ∨ EndsIn s t := by
  obtain hf | hsort | hrow := step_run_cases hst
  · cases hf.symm.trans h
  · cases hsort.symm.trans h
    exact .inl ⟨.of_no_call rfl rfl (List.Subset.refl _), hst⟩
  · exact (h ▸ hrow).advances_or_ends hst hreset

/-- Without resets an invocation that leaves RUN ends in a response. -/
theorem untilIdle_endsIn (fuel : Nat) {s u : State} (hst : s.st = .run) (hreset : s.NoReset)
    (h : untilIdle fuel s = .next u) (hu : u.st = .idle) : EndsIn s u := by
  induction fuel generalizing s with
  | zero =>
    cases h
    cases hst.symm.trans hu
  | succ fuel ih =>
    cases hout : s.outstanding with
    | true =>
      rw [untilIdle_waiting _ hout] at h
      cases h
      cases hst.symm.trans hu
    | false =>
      cases hstep : step s with
      | next t =>
        rw [untilIdle_next hst hout hstep] at h
        obtain ⟨hadv, hrun⟩ | hend := step_run_advances_or_ends hst hreset hstep
        · exact hadv.endsIn (ih hrun (hadv.noReset hreset) h)
        · cases (untilIdle_idle fuel hend.idle).symm.trans h
          exact hend
      | fault f => simp [untilIdle, hst, hout, hstep] at h
      | refused r => simp [untilIdle, hst, hout, hstep] at h

theorem invocation_endsIn {i : Instr} {s u : State} (hst : s.st = .idle) (hreset : s.NoReset)
    (h : invocation i s = .next u) (hu : u.st = .idle) : EndsIn s u := by
  obtain ⟨t, ht, r, hacc⟩ := exec_idle_accepted i hst
  have hstart : AdvancesTo s (s.start r) := .of_no_call rfl rfl (List.Subset.refl _)
  rw [invocation_eq ht] at h
  obtain rfl | rfl := hacc
  · exact hstart.endsIn (untilIdle_endsIn _ rfl (hstart.noReset hreset) h hu)
  · cases (untilIdle_idle _ rfl).symm.trans h
    exact ⟨_, hstart, .inl rfl⟩

/-- Settles O20: the calls before the end are performed, and the call of an AddressFault is the last. -/
theorem firstFaultEndsTheCommand : Obligations.FirstFaultEndsTheCommand := by
  intro i s u hst hreset h hu
  obtain ⟨t, ⟨⟨new, hcalls, hdata⟩, hresp, -⟩, rfl | ⟨a, k, n, rfl⟩⟩ := invocation_endsIn hst hreset h hu
  · exact ⟨new, .ok, hcalls, by simp [hresp], hdata⟩
  · exact ⟨new ++ [failedCall a k n], .addressFault a k n, by simp [hcalls, failedCall], by simp [hresp], new, rfl, hdata⟩

end Sys2Proof.Machine
end

section
/-! A reset in RUN: before a Memory Port call, or with one outstanding, the call does not happen; during a granted call
the call has happened whole (70_reset_and_hazards.md R201). -/

namespace Sys2Proof.Machine

/-- Where the outside's turn leaves the CORE in IDLE a step in RUN, SORT's sort apart, makes no call. -/
theorem State.Inv.step_of_atCall_idle {s : State} (hi : s.Inv) (hst : s.st = .run) (hph : s.regs.phase ≠ .srt)
    (hidle : s.atCall.st = .idle) : step s = .next s.atCall := by
  obtain ⟨c, perform, after, hstep⟩ := hi.step_row_of_phase hst hph
  simp only [hstep, portCall, hidle]

/-- The state at the call after a turn that is a reset alone. -/
theorem atCall_of_reset {s : State} {ans : Answer} {later : List Turn}
    (henv : s.env = { moves := [.reset], answer := ans } :: later) :
    s.atCall = { s with st := .idle, outstanding := false, regs := Regs.reset, env := later } := by
  simp only [State.atCall, State.afterMoves, State.nextTurn, henv]
  rfl

/-- Settles O10: a reset before the call leaves the CORE in IDLE at the call, which is then not made; a reset during a
granted call strikes the state that the whole access left. -/
theorem resetEndsInvocation : Obligations.ResetEndsInvocation := by
  refine ⟨fun s ans later hi hst hph henv => ?_, fun s moves later c hi hst hc henv hreset hacc => ?_⟩
  · rw [← atCall_of_reset henv]
    exact hi.step_of_atCall_idle hst hph (by rw [atCall_of_reset henv])
  · obtain ⟨hturn, hcall, -⟩ := turn_of_no_reset henv hreset
    obtain ⟨perform, after, hperf, hstep⟩ := step_row hi hst hc
    obtain ⟨d, hd⟩ := hperf s.atCall (congrArg Params.xlen (atCall_params s))
    have hdone : step s = .next (perform s.atCall).applyReset := by
      simp only [hstep, portCall, hcall, hst, hturn, hacc, if_true]
    exact ⟨_, d, hdone, rfl, rfl, by simp [hd], by simp [hd], by simp [hd]⟩

end Sys2Proof.Machine
end
